-- ==== Sys2Proof/Word.lean ====
section
/-! DEFINITION. The data types of the block: port words, Q2.62 words, bitmaps, distances, and one value per class. -/

namespace Sys2Proof

/-- A word of a stream port (20_memory R73). -/
abbrev Word32 := BitVec 32

/-- A 64-bit value: a request value V (30_encoding R101), or a Q2.62 word (00_scope R12). -/
abbrev Word64 := BitVec 64

/-- A 49-bit digit bitmap (00_scope R14, R17). -/
abbrev Bitmap := BitVec 49

/-- A distance or k-best entry: 6 bits, 0..50 (00_scope R10). -/
abbrev Dist := BitVec 6

/-- A class index, 0..9 (00_scope R8, NCLASS = 10). -/
abbrev ClassIdx := Fin 10

/-- One value for each of the ten classes, such as `cls.ptr[c]` (10_state R35). -/
abbrev PerClass (α : Type) := Vector α 10

end Sys2Proof
end

