-- ==== Sys2Proof/Syntax.lean ====
section
/-! DEFINITION. The two request operations of the opcode table, the units and ports they are named by, and the host's
actions and pseudo-instructions (30_encoding R107 to R109). -/

namespace Sys2Proof

/-- The two units (00_scope R1). A unit has one input port `u.in` and one output port `u.out` (20_memory R73), so a port
is named by its unit and its direction. -/
inductive UnitId where
  | rot
  | cls
  deriving DecidableEq, Repr, Inhabited

/-- The operations of spec/opcode_table.json, one constructor a row. The operand is the whole 64-bit request value V
(30_encoding R101). -/
inductive Instr where
  /-- ROTATE: V is the angle theta, used whole (30_encoding R102). -/
  | rotate (v : Word64)
  /-- CLASSIFY: V[48:0] is QUERY and V[63:49] is reserved (30_encoding R103). -/
  | classify (v : Word64)
  deriving DecidableEq, Repr

/-- What `RESET` names: one unit or `all` (30_encoding R108). -/
inductive ResetTarget where
  | unit (u : UnitId)
  | all
  deriving DecidableEq, Repr

/-- The host's actions (30_encoding R108). `dst` is the number of the host variable that `-> <name>` names. -/
inductive HostAction where
  | push (u : UnitId) (w : Word32)
  | pop (u : UnitId) (dst : Nat)
  | status (u : UnitId) (dst : Nat)
  | reset (t : ResetTarget)
  deriving DecidableEq, Repr

/-- The pseudo-instructions of the host notation (30_encoding R109). A GET names the host variables its pops write. -/
inductive Pseudo where
  | rotate (v : Word64)
  | classify (v : Word64)
  | getrot (cLo cHi sLo sHi : Nat)
  | getcls (w : Nat)
  deriving DecidableEq, Repr

end Sys2Proof
end

