-- ==== Sys2Proof/Config.lean ====
section
/-! DEFINITION. The configuration record of 00_scope R8, its fixed sizes, its default tables (10_state R40, R41), and the
free value that picks whose turn it is where nothing else says so. -/

namespace Sys2Proof

/-- WIDTH (00_scope R8): bits of the angle, the cosine, the sine and the ROM words. -/
abbrev Config.width : Nat := 64

/-- NITER (00_scope R8): pseudo-rotations per ROTATE. -/
abbrev Config.niter : Nat := 20

/-- NCLASS (00_scope R8). -/
abbrev Config.nclass : Nat := 10

/-- PIX (00_scope R8): bits of a bitmap. -/
abbrev Config.pix : Nat := 49

/-- SENTINEL (00_scope R8): the initial value of every k-best entry. -/
abbrev Config.sentinel : Dist := 50

/-- The configuration (00_scope R8): ROM contents and parameters, constant during a run (10_state R30). -/
structure Cfg where
  /-- IBITS: integer bits, sign included. -/
  ibits : Nat
  /-- FBITS: fractional bits. -/
  fbits : Nat
  /-- ATAN_TABLE: the arctangent ROM, word i at index i (10_state R40). -/
  atan : List Word64
  /-- KGAIN: the initial cosine (10_state R41). -/
  kgain : Word64
  /-- KNN_K: the length of a k-best array and the number of vote rounds. -/
  knnK : Nat
  /-- TRAIN_N: training instances per class. -/
  trainN : Nat
  /-- TRAIN: `train[c][t]` is instance t of class c (10_state R55). -/
  train : List (List Bitmap)
  /-- IN_DEPTH: the capacity of an input FIFO, in words. -/
  inDepth : Nat
  /-- OUT_DEPTH: the capacity of an output FIFO, in words. -/
  outDepth : Nat
  deriving DecidableEq, Repr

/-- The default ATAN ROM, `floor(atan(2^-i) × 2^62)` for i = 0..19 (10_state R40). -/
def Config.atanDefault : List Word64 :=
  [ 0x3243F6A8885A308D, 0x1DAC670561BB4F68, 0x0FADBAFC96406EB1, 0x07F56EA6AB0BDB71, 0x03FEAB76E59FBD38,
    0x01FFD55BBA97624A, 0x00FFFAAADDDB94D5, 0x007FFF5556EEEA5C, 0x003FFFEAAAB7776E, 0x001FFFFD5555BBBB ] ++
  [ 0x000FFFFFAAAAADDD, 0x0007FFFFF555556E, 0x0003FFFFFEAAAAAB, 0x0001FFFFFFD55555, 0x0000FFFFFFFAAAAA,
    0x00007FFFFFFF5555, 0x00003FFFFFFFEAAA, 0x00001FFFFFFFFD55, 0x00000FFFFFFFFFAA, 0x000007FFFFFFFFF5 ]

/-- The default KGAIN (10_state R41). -/
def Config.kgainDefault : Word64 := 0x26DD3B6A10D796AB

/-- The configuration of `State.reset`. The tables are the spec's defaults. DESIGN CHOICE (log 1): KNN_K, TRAIN_N, TRAIN,
IN_DEPTH and OUT_DEPTH are OPEN in 00_scope R8. Unsafe for a statement that rests on them, so none does. -/
def Config.resetCfg : Cfg where
  ibits := 2
  fbits := 62
  atan := Config.atanDefault
  kgain := Config.kgainDefault
  knnK := 1
  trainN := 1
  train := List.replicate Config.nclass [0]
  inDepth := 2
  outDepth := 4

/-- How much a unit does in one turn. 20_memory R78 lets a model take the compute phases as one atomic step; the model has
both (log 4). -/
inductive Grain where
  /-- One phase of 10_state R33 or R37. -/
  | phase
  /-- A request taken in HAVE_LO is also executed, up to the phase that emits its response. -/
  | whole
  deriving DecidableEq, Repr, Inhabited

/-- Whose turn it is (00_scope R18). -/
inductive Turn where
  | host
  | unit (u : UnitId) (g : Grain)
  deriving DecidableEq, Repr, Inhabited

/-- FREE VALUE (log 3). Whose turn it is where `State.turns` says nothing: any interleaving is allowed (92 D33), so nothing
is known of this function. -/
opaque Config.freeTurn : Nat → Turn

end Sys2Proof
end

