-- ==== Sys2Proof/WellFormed.lean ====
section
/-! DEFINITION. Well-formed requests (30_encoding R102 to R104) and well-formed configurations (00_scope R8, R9). -/

namespace Sys2Proof

/-- A request is well formed: every ROTATE is (30_encoding R102); a CLASSIFY is when V[63:49] = 0 (30_encoding R103). -/
def Instr.wf : Instr → Bool
  | .rotate _ => true
  | .classify v => v.extractLsb' 49 15 == 0

/-- The fixed-point split fills the word and has a sign bit (00_scope R8, R12; 92 D2). -/
def Cfg.splitWf (c : Cfg) : Bool := decide (1 ≤ c.ibits ∧ c.ibits + c.fbits = Config.width)

/-- KNN_K ≥ 1 (00_scope R9). -/
def Cfg.knnWf (c : Cfg) : Bool := decide (1 ≤ c.knnK)

/-- TRAIN has exactly NCLASS × TRAIN_N entries (00_scope R9): ten classes of TRAIN_N instances (10_state R55). That an entry
is below 2^49 is its type. -/
def Cfg.trainWf (c : Cfg) : Bool :=
  decide (c.train.length = Config.nclass) && c.train.all fun row => decide (row.length = c.trainN)

/-- ATAN_TABLE has exactly NITER entries (00_scope R9). That an entry, or KGAIN, is a 64-bit word is its type. -/
def Cfg.atanWf (c : Cfg) : Bool := decide (c.atan.length = Config.niter)

/-- IN_DEPTH and OUT_DEPTH are at least 1 (00_scope R8, 92 D10). -/
def Cfg.depthWf (c : Cfg) : Bool := decide (1 ≤ c.inDepth ∧ 1 ≤ c.outDepth)

/-- A well-formed configuration (00_scope R9, with the ranges of R8). Any other has no run. -/
def Cfg.wf (c : Cfg) : Bool := c.splitWf && c.knnWf && c.trainWf && c.atanWf && c.depthWf

end Sys2Proof
end

