-- ==== Sys2Proof/Decode.lean ====
section
/-! DEFINITION. Decoding a request from its port and its words, and encoding one (30_encoding R100 to R107). -/

namespace Sys2Proof

/-- Why a request is not decoded. -/
inductive DecodeError where
  /-- Fewer than two words: the unit waits for the rest (20_memory R76, R80). -/
  | incompleteRequest
  /-- V[63:49] ≠ 0 on `cls.in`: the illegal row of the opcode map (30_encoding R104, R107). -/
  | reservedBitsSet
  deriving DecidableEq, Repr

/-- `V = word1 ‖ word0`, word0 pushed first (30_encoding R101). -/
def requestValue (word1 word0 : Word32) : Word64 := word1 ++ word0

/-- `v[31:0]`, the word that crosses a port first (20_memory R74). -/
def lowWord (v : Word64) : Word32 := v.extractLsb' 0 32

/-- `v[63:32]`, the word that crosses a port second (20_memory R74). -/
def highWord (v : Word64) : Word32 := v.extractLsb' 32 32

/-- QUERY, `V[48:0]` (30_encoding R103). -/
def queryField (v : Word64) : Bitmap := v.extractLsb' 0 49

/-- The reserved field `V[63:49]` (30_encoding R103). -/
def reservedField (v : Word64) : BitVec 15 := v.extractLsb' 49 15

/-- The `mask` of CLASSIFY (30_encoding R104). Its `match` is 0; ROTATE's mask and match are 0. -/
def classifyMask : Word64 := 0xFFFE000000000000

/-- The opcode map over the pair (port, V): the port selects the operation (30_encoding R107). -/
def decode (u : UnitId) (v : Word64) : Except DecodeError Instr :=
  match u with
  | .rot => .ok (.rotate v)
  | .cls => if v &&& classifyMask = 0 then .ok (.classify v) else .error .reservedBitsSet

/-- Decode the request at the head of an input FIFO of unit `u`: two words, low word first (20_memory R74, R80). Answers the
instruction and the words behind it. -/
def decodeWords (u : UnitId) : List Word32 → Except DecodeError (Instr × List Word32)
  | word0 :: word1 :: rest =>
    match decode u (requestValue word1 word0) with
    | .ok i => .ok (i, rest)
    | .error e => .error e
  | _ => .error .incompleteRequest

/-- The unit whose input port a request is pushed to (30_encoding R107). -/
def Instr.unit : Instr → UnitId
  | .rotate _ => .rot
  | .classify _ => .cls

/-- The request value of an instruction. -/
def Instr.value : Instr → Word64
  | .rotate v => v
  | .classify v => v

/-- The two words of a request, in the order they are pushed (30_encoding R109, 20_memory R74). -/
def encode (i : Instr) : List Word32 := [lowWord i.value, highWord i.value]

/-- The host actions of a pseudo-instruction, in order (30_encoding R109). -/
def Pseudo.expand : Pseudo → List HostAction
  | .rotate v => [.push .rot (lowWord v), .push .rot (highWord v)]
  | .classify v => [.push .cls (lowWord v), .push .cls (highWord v)]
  | .getrot cLo cHi sLo sHi => [.pop .rot cLo, .pop .rot cHi, .pop .rot sLo, .pop .rot sHi]
  | .getcls w => [.pop .cls w]

/-- The 64-bit value a GETROT assembles, `hi ‖ lo` (30_encoding R109). -/
def getrotValue (hi lo : Word32) : Word64 := hi ++ lo

/-- The class a GETCLS reads, `w[3:0]` (30_encoding R109). -/
def getclsValue (w : Word32) : BitVec 4 := w.extractLsb' 0 4

/-- The table's numbering of bits: the value of `nbits` bits, zero above them. -/
def tableValue (nbits w : Nat) : Word64 := BitVec.ofNat 64 (w % 2 ^ nbits)

/-- The port a table word is given to. A table word names no port, and on `rot.in` every word is a ROTATE (30_encoding
R107): the row with the longer mask, CLASSIFY, is tried first (DESIGN CHOICE, log 12). -/
def tableUnit (v : Word64) : UnitId := if v &&& classifyMask = 0 then .cls else .rot

/-- The instruction the decoder reads from a table word: its two port words, low word first, on the port `tableUnit`. A word
longer than a request's 64 bits is no request (30_encoding R100). -/
def decodeTableWord (nbits w : Nat) : Option Instr :=
  if nbits ≤ 64 then
    match decodeWords (tableUnit (tableValue nbits w)) [lowWord (tableValue nbits w), highWord (tableValue nbits w)] with
    | .ok (i, _) => some i
    | .error _ => none
  else none

end Sys2Proof
end

