-- ==== Sys2Proof/Machine/State.lean ====
section
/-! DEFINITION. The state of the machine (10_state R30 to R37), its reset values (10_state R60), and the reasons a step can
stop. -/

namespace Sys2Proof.Machine

/-- A fault cause code (60_exceptions R201). A fault of the block is a phase of a unit, not a stop of the model. -/
inductive Cause where
  | none
  | invalidInput
  | degenerateModel
  | arithOverflow
  deriving DecidableEq, Repr

/-- ROT's sequencer phase (10_state R33). The phase ITER(i) is `iter` with i in the register `rot.i` (log 6). -/
inductive RotPhase where
  | idle
  | haveLo
  | iter
  | emit (k : Fin 4)
  | fault
  deriving DecidableEq, Repr

/-- CLS's sequencer phase (10_state R37). The counters c, t and r are the phase's own fields (R37). -/
inductive ClsPhase where
  | idle
  | haveLo
  /-- CHECK; `v` is the request value V that 41_knn_update R152 assigns on entry (log 5). -/
  | check (v : Word64)
  | init
  | update (c : ClassIdx) (t : Nat)
  | vote (r : Nat)
  | decide
  | emit
  | fault
  deriving DecidableEq, Repr

/-- ROT's registers (10_state R31). -/
structure RotRegs where
  lo : Word32
  theta : Word64
  cos : Word64
  sin : Word64
  /-- `rot.i`, 0..19: the i of ITER(i) (10_state R33). -/
  i : Fin 20
  cause : Cause
  phase : RotPhase
  deriving DecidableEq, Repr

/-- CLS's registers (10_state R35). -/
structure ClsRegs where
  lo : Word32
  query : Bitmap
  kbest : PerClass (List Dist)
  ptr : PerClass Nat
  cnt : PerClass Nat
  score : PerClass Nat
  result : BitVec 4
  cause : Cause
  phase : ClsPhase
  deriving DecidableEq, Repr

/-- One observation of the host (70_reset_and_hazards R241): a word it popped or a STATUS word it read, and the host
variable `dst` that the action names (30_encoding R108). -/
inductive Observation where
  | popped (u : UnitId) (dst : Nat) (w : Word32)
  | status (u : UnitId) (dst : Nat) (w : Word32)
  deriving DecidableEq, Repr

/-- The host agent (00_scope R18): the actions it has still to take, and what it has seen, oldest first (log 11). -/
structure HostAgent where
  todo : List HostAction
  seen : List Observation
  deriving DecidableEq, Repr

/-- The machine state `(cfg, rot, cls, rot.in, rot.out, cls.in, cls.out)` (10_state R30), with the host agent and the
interleaving beside it. A FIFO lists its oldest word first. -/
structure State where
  cfg : Cfg
  rot : RotRegs
  cls : ClsRegs
  rotIn : List Word32
  rotOut : List Word32
  clsIn : List Word32
  clsOut : List Word32
  host : HostAgent
  /-- The interleaving still to come; where it is empty, `Config.freeTurn tick` says whose turn it is (log 3). -/
  turns : List Turn
  /-- How many turns have been taken (log 3). -/
  tick : Nat
  deriving DecidableEq, Repr

/-- ROT after reset (10_state R60). DESIGN CHOICE (log 2): the registers R60 calls unspecified hold 0. Unsafe. -/
def RotRegs.reset : RotRegs where
  lo := 0
  theta := 0
  cos := 0
  sin := 0
  i := 0
  cause := .none
  phase := .idle

/-- CLS after reset (10_state R60). DESIGN CHOICE (log 2): the registers R60 calls unspecified hold 0, `cls.kbest` KNN_K
entries of it per class. Unsafe. -/
def ClsRegs.reset (cfg : Cfg) : ClsRegs where
  lo := 0
  query := 0
  kbest := Vector.replicate 10 (List.replicate cfg.knnK 0)
  ptr := Vector.replicate 10 0
  cnt := Vector.replicate 10 0
  score := Vector.replicate 10 0
  result := 0
  cause := .none
  phase := .idle

/-- The power-on state with a configuration: the state after RESET all (70_reset_and_hazards R233). -/
def State.powerOn (cfg : Cfg) : State where
  cfg := cfg
  rot := RotRegs.reset
  cls := ClsRegs.reset cfg
  rotIn := []
  rotOut := []
  clsIn := []
  clsOut := []
  host := { todo := [], seen := [] }
  turns := []
  tick := 0

/-- The machine right after reset, with the configuration of log 1. -/
def State.reset : State := State.powerOn Config.resetCfg

/-- Reasons a step stops with a fault. No run from power-on reaches one (20_memory R71, 42_knn_vote R183; log 10). A fault
of the block itself (60_exceptions R200) is none of these: it is a next state. -/
inductive Fault where
  /-- Raised by a ROM read (ROTATE's iteration, CLASSIFY's update) whose index the ROM does not have. Safe: it stops. -/
  | romIndexOutOfRange
  /-- Raised by a vote round whose pointer is past the end of its k-best array. Safe: it stops. -/
  | kbestIndexOutOfRange
  deriving DecidableEq, Repr

/-- Reasons a step is refused. -/
inductive Refusal where
  /-- Raised by `exec` for an instruction that has no meaning yet (none: both have one). Safe: it stops. -/
  | notModelled (mnemonic : String)
  /-- Raised by `step` in a state whose configuration is ill formed: it has no run at all (00_scope R9). Safe: it stops. -/
  | illFormedConfiguration
  deriving DecidableEq, Repr

end Sys2Proof.Machine
end

