-- ==== Sys2Proof/Machine/Flags.lean ====
section
/-! DEFINITION. The block has no flag or condition-code register (10_state R34). What an operation tests instead is here:
the sign of the residual angle, the range of an exact result, and the orders on distances and on vote tallies. -/

namespace Sys2Proof.Machine

/-- The direction of an iteration is positive: `s64(rot.theta) > 0`, so a zero residual is non-positive (40_cordic R124). -/
def isPositive (theta : Word64) : Bool := decide (0 < theta.toInt)

/-- An exact result is a 64-bit two's-complement value: it lies in [−2^63, 2^63) (00_scope R13). -/
def fits64 (x : Int) : Bool := decide (-2 ^ 63 ≤ x ∧ x < 2 ^ 63)

/-- `<` on distances and k-best entries compares unsigned integers (00_scope R14). -/
def distLt (a b : Dist) : Bool := decide (a.toNat < b.toNat)

/-- A class with count and score `(n, w)` beats the best so far `(n', w')`: a larger count, or an equal count and a larger
score (42_knn_vote R184). -/
def tallyBeats (n w n' w' : Nat) : Bool := decide (n' < n ∨ (n = n' ∧ w' < w))

end Sys2Proof.Machine
end

