-- ==== Sys2Proof/Machine/Operands.lean ====
section
/-! DEFINITION. Fixed-point operands (00_scope R12, R13), ROM reads (00_scope R15, 10_state R40, R55), distances
(41_knn_update R155) and response words (30_encoding R105, R106). -/

namespace Sys2Proof.Machine

/-- `s64(w)`: the two's-complement reading of a 64-bit word (00_scope R12). -/
def s64 (w : Word64) : Int := w.toInt

/-- `u64(x)`: the 64-bit word whose two's-complement reading is x, for x in range (00_scope R12). -/
def u64 (x : Int) : Word64 := BitVec.ofInt 64 x

/-- `a >>a i`: the arithmetic right shift, `floor(a / 2^i)` (00_scope R13; log 17). For a positive divisor Lean's `/` on Int is
the floor. -/
def shiftFloor (a : Int) (i : Nat) : Int := a / 2 ^ i

/-- The value of a Q2.62 word, `s64(w) / 2^FBITS` (00_scope R12, 10_state R32). -/
def fixedValue (cfg : Cfg) (w : Word64) : Rat := (s64 w : Rat) / 2 ^ cfg.fbits

/-- `MemRead(ATAN, i)` (00_scope R15). -/
def atanRead (cfg : Cfg) (i : Fin 20) : Except Fault Word64 :=
  match cfg.atan[i.val]? with
  | some a => .ok a
  | none => .error .romIndexOutOfRange

/-- `MemRead(TRAIN, c, t)` (00_scope R15). -/
def trainRead (cfg : Cfg) (c : ClassIdx) (t : Nat) : Except Fault Bitmap :=
  match cfg.train[c.val]? with
  | some row =>
    match row[t]? with
    | some x => .ok x
    | none => .error .romIndexOutOfRange
  | none => .error .romIndexOutOfRange

/-- The number of 1 bits of a bitmap (00_scope R14). -/
def popcount (b : Bitmap) : Nat := (List.range Config.pix).countP fun j => b.getLsbD j

/-- `dist(q, x) = popcount(q XOR x)`, 0..49, as a k-best entry (41_knn_update R155). -/
def hamming (q x : Bitmap) : Dist := BitVec.ofNat 6 (popcount (q ^^^ x))

/-- ROT's response word k: COS low, COS high, SIN low, SIN high (30_encoding R105, 40_cordic R128). -/
def rotResponse (r : RotRegs) (k : Fin 4) : Word32 :=
  match k with
  | 0 => lowWord r.cos
  | 1 => highWord r.cos
  | 2 => lowWord r.sin
  | 3 => highWord r.sin

/-- CLS's response word, `zext_32(cls.result)` (30_encoding R106, 42_knn_vote R185). -/
def clsResponse (r : ClsRegs) : Word32 := r.result.setWidth 32

/-- The code of a cause (60_exceptions R201). -/
def causeCode : Cause → BitVec 2
  | .none => 0
  | .invalidInput => 1
  | .degenerateModel => 2
  | .arithOverflow => 3

end Sys2Proof.Machine
end

