-- ==== Sys2Proof/Machine/Ops.lean ====
section
/-! DEFINITION. The named operations over the state: sequencing, FIFOs, registers with one value per class, taking a fault,
STATUS, and reset (the one way out of a fault). -/

namespace Sys2Proof.Machine

/-- What one turn or one operation answers. -/
abbrev Result := Host.Outcome State Fault Refusal

/-- Go on with `f` after an operation that answered a next state. -/
def andThen (o : Result) (f : State → Result) : Result :=
  match o with
  | .next s => f s
  | .fault e => .fault e
  | .refused e => .refused e

/-- Go on with `f` where a read gave a value; stop where the read is out of range. -/
def withRead {α : Type} (o : Except Fault α) (f : α → Result) : Result :=
  match o with
  | .ok a => f a
  | .error e => .fault e

/-- `for a in as: f a`, in the list's order (00_scope R16). -/
def forEach {α : Type} (f : α → State → Result) : List α → State → Result
  | [], s => .next s
  | a :: as, s => andThen (f a s) (forEach f as)

/-- An agent that has no step holds: it changes nothing (20_memory R76, R77). -/
def hold (s : State) : Result := .next s

/-- `u.in`, oldest word first. -/
def State.inFifo (s : State) : UnitId → List Word32
  | .rot => s.rotIn
  | .cls => s.clsIn

/-- `u.out`, oldest word first. -/
def State.outFifo (s : State) : UnitId → List Word32
  | .rot => s.rotOut
  | .cls => s.clsOut

/-- Put `ws` in place of `u.in`. -/
def State.setIn (s : State) (u : UnitId) (ws : List Word32) : State :=
  match u with
  | .rot => { s with rotIn := ws }
  | .cls => { s with clsIn := ws }

/-- Put `ws` in place of `u.out`. -/
def State.setOut (s : State) (u : UnitId) (ws : List Word32) : State :=
  match u with
  | .rot => { s with rotOut := ws }
  | .cls => { s with clsOut := ws }

/-- `InPop(u)`: remove and return the oldest word of `u.in`; no step while it is empty (20_memory R76). -/
def inPop (u : UnitId) (s : State) : Option (Word32 × State) :=
  match s.inFifo u with
  | [] => none
  | w :: ws => some (w, s.setIn u ws)

/-- `OutPush(u, w)`: append w to `u.out`; no step while it is full (20_memory R77). -/
def outPush (u : UnitId) (w : Word32) (s : State) : Option State :=
  if (s.outFifo u).length < s.cfg.outDepth then some (s.setOut u (s.outFifo u ++ [w])) else none

/-- The host's side of `u.in`: append w; no step while it is full (20_memory R76). -/
def inPush (u : UnitId) (w : Word32) (s : State) : Option State :=
  if (s.inFifo u).length < s.cfg.inDepth then some (s.setIn u (s.inFifo u ++ [w])) else none

/-- The host's side of `u.out`: remove and return the oldest word; no step while it is empty (20_memory R77). -/
def outPop (u : UnitId) (s : State) : Option (Word32 × State) :=
  match s.outFifo u with
  | [] => none
  | w :: ws => some (w, s.setOut u ws)

/-- Read the value of class c, as in `cls.ptr[c]`. -/
def getAt {α : Type} (v : PerClass α) (c : ClassIdx) : α := v.get c

/-- Write the value of class c. -/
def setAt {α : Type} (v : PerClass α) (c : ClassIdx) (a : α) : PerClass α := v.set c.val a c.isLt

/-- The same value for every class. -/
def allClasses {α : Type} (a : α) : PerClass α := Vector.replicate 10 a

/-- `best <- 0; for c in 1..9: if beats c best: best <- c` (42_knn_vote R182, R184): the first class scanned wins ties when
`beats` is strict. -/
def firstBest (beats : ClassIdx → ClassIdx → Bool) : ClassIdx :=
  [1, 2, 3, 4, 5, 6, 7, 8, 9].foldl (fun best c => if beats c best then c else best) 0

/-- `raise Fault(cause)` in unit `u`: record the cause and enter FAULT, and write nothing else (60_exceptions R206). -/
def raiseFault (u : UnitId) (cause : Cause) (s : State) : State :=
  match u with
  | .rot => { s with rot := { s.rot with cause := cause, phase := .fault } }
  | .cls => { s with cls := { s.cls with cause := cause, phase := .fault } }

/-- `u.cause`. -/
def State.cause (s : State) : UnitId → Cause
  | .rot => s.rot.cause
  | .cls => s.cls.cause

/-- `u.phase = FAULT`. -/
def State.faulted (s : State) : UnitId → Bool
  | .rot => decide (s.rot.phase = .fault)
  | .cls => decide (s.cls.phase = .fault)

/-- The STATUS word of unit `u`: bits [1:0] are the cause, the rest are hardwired 0 (10_state R52). -/
def statusWord (u : UnitId) (s : State) : Word32 := (0 : BitVec 30) ++ causeCode (s.cause u)

/-- Reset of unit `u`, in one step (70_reset_and_hazards R231). It is also the only way out of FAULT (60_exceptions R208). -/
def resetUnit (u : UnitId) (s : State) : State :=
  match u with
  | .rot => { s with rot := RotRegs.reset, rotIn := [], rotOut := [] }
  | .cls => { s with cls := ClsRegs.reset s.cfg, clsIn := [], clsOut := [] }

/-- `RESET rot`, `RESET cls` or `RESET all` (30_encoding R108, 70_reset_and_hazards R230). -/
def resetTarget (t : ResetTarget) (s : State) : State :=
  match t with
  | .unit u => resetUnit u s
  | .all => resetUnit .cls (resetUnit .rot s)

end Sys2Proof.Machine
end

