-- ==== Sys2Proof/Machine/Classify.lean ====
section
/-! DEFINITION. CLS's operations (41_knn_update R150 to R158, 42_knn_vote R180 to R185) and the meaning of CLASSIFY. -/

namespace Sys2Proof.Machine

/-- Bubble entry p leftward by adjacent swaps while it is strictly less than its left neighbour (41_knn_update R156). -/
def bubble : Nat → List Dist → List Dist
  | 0, kb => kb
  | p + 1, kb =>
    match kb[p + 1]?, kb[p]? with
    | some x, some y => if distLt x y then bubble p ((kb.set p x).set (p + 1) y) else kb
    | _, _ => kb

/-- `insert(kb, d)`, bounded ascending insertion (41_knn_update R156). K is the array's length. -/
def insertDist (kb : List Dist) (d : Dist) : List Dist :=
  match kb[kb.length - 1]? with
  | some worst => if distLt d worst then bubble (kb.length - 1) (kb.set (kb.length - 1) d) else kb
  | none => kb

/-- The phase after UPDATE(c, t) (10_state R37). -/
def clsPhaseAfterUpdate (cfg : Cfg) (c : ClassIdx) (t : Nat) : ClsPhase :=
  if t + 1 < cfg.trainN then .update c (t + 1)
  else if h : c.val + 1 < 10 then .update ⟨c.val + 1, h⟩ 0
  else .vote 0

/-- The phase after VOTE(r) (10_state R37). -/
def clsPhaseAfterVote (cfg : Cfg) (r : Nat) : ClsPhase := if r + 1 < cfg.knnK then .vote (r + 1) else .decide

/-- Entering VOTE(0) clears the pointers, counts and scores (42_knn_vote R181; log 15); entering any other phase writes the
phase alone. -/
def clsEnter (p : ClsPhase) (r : ClsRegs) : ClsRegs :=
  match p with
  | .vote 0 => { r with ptr := allClasses 0, cnt := allClasses 0, score := allClasses 0, phase := .vote 0 }
  | p => { r with phase := p }

/-- CHECK (60_exceptions R207): DegenerateModel if TRAIN_N = 0, else InvalidInput if V[63:49] ≠ 0, else take the query and
go on to INIT (41_knn_update R152). -/
def clsCheck (v : Word64) (s : State) : State :=
  if s.cfg.trainN = 0 then raiseFault .cls .degenerateModel s
  else if reservedField v ≠ 0 then raiseFault .cls .invalidInput s
  else { s with cls := { s.cls with query := queryField v, phase := .init } }

/-- INIT: every k-best entry becomes 50 (41_knn_update R153). -/
def clsInit (s : State) : State :=
  { s with cls := { s.cls with kbest := allClasses (List.replicate s.cfg.knnK Config.sentinel), phase := .update 0 0 } }

/-- UPDATE(c, t): insert the distance of instance t of class c (41_knn_update R158). -/
def clsUpdate (c : ClassIdx) (t : Nat) (s : State) : Result :=
  withRead (trainRead s.cfg c t) fun x =>
    .next { s with
      cls := clsEnter (clsPhaseAfterUpdate s.cfg c t)
        { s.cls with kbest := setAt s.cls.kbest c (insertDist (getAt s.cls.kbest c) (hamming s.cls.query x)) } }

/-- The entry `cls.kbest[c][cls.ptr[c]]` (42_knn_vote R182). -/
def voteHead (r : ClsRegs) (c : ClassIdx) : Except Fault Dist :=
  match (getAt r.kbest c)[getAt r.ptr c]? with
  | some d => .ok d
  | none => .error .kbestIndexOutOfRange

/-- The entries of all ten classes, of which a vote round reads every one. -/
def voteHeads (r : ClsRegs) : Except Fault (PerClass Dist) := do
  let d0 ← voteHead r 0
  let d1 ← voteHead r 1
  let d2 ← voteHead r 2
  let d3 ← voteHead r 3
  let d4 ← voteHead r 4
  let d5 ← voteHead r 5
  let d6 ← voteHead r 6
  let d7 ← voteHead r 7
  let d8 ← voteHead r 8
  let d9 ← voteHead r 9
  .ok #v[d0, d1, d2, d3, d4, d5, d6, d7, d8, d9]

/-- The class a vote round picks: the smallest entry, the lowest class index on ties (42_knn_vote R182). -/
def votePick (heads : PerClass Dist) : ClassIdx := firstBest fun c best => distLt (getAt heads c) (getAt heads best)

/-- VOTE(r): the picked class advances its pointer and its count, and scores KNN_K − r (42_knn_vote R182). -/
def clsVote (r : Nat) (s : State) : Result :=
  withRead (voteHeads s.cls) fun heads =>
    let b := votePick heads
    .next { s with
      cls := { s.cls with
        ptr := setAt s.cls.ptr b (getAt s.cls.ptr b + 1)
        cnt := setAt s.cls.cnt b (getAt s.cls.cnt b + 1)
        score := setAt s.cls.score b (getAt s.cls.score b + (s.cfg.knnK - r))
        phase := clsPhaseAfterVote s.cfg r } }

/-- The decision: the largest count, then the largest score, then the lowest class index (42_knn_vote R184). -/
def decision (cnt score : PerClass Nat) : ClassIdx :=
  firstBest fun c b => tallyBeats (getAt cnt c) (getAt score c) (getAt cnt b) (getAt score b)

/-- DECIDE (42_knn_vote R184). -/
def clsDecide (s : State) : State :=
  { s with cls := { s.cls with result := BitVec.ofNat 4 (decision s.cls.cnt s.cls.score).val, phase := .emit } }

/-- EMIT: push the class and return to IDLE, or hold while `cls.out` is full (42_knn_vote R185). -/
def clsEmit (s : State) : Result :=
  match outPush .cls (clsResponse s.cls) s with
  | some t => .next { t with cls := { t.cls with phase := .idle } }
  | none => hold s

/-- Step 1 of CLASSIFY for class c: its instances in ascending t (41_knn_update R158). -/
def updateKnn (c : ClassIdx) (s : State) : Result := forEach (clsUpdate c) (List.range s.cfg.trainN) s

/-- Steps 1 and 2 of CLASSIFY on an accepted query: initialise, update every class, vote KNN_K rounds, decide
(41_knn_update R150). -/
def classifyQuery (s : State) : Result :=
  andThen (forEach updateKnn (List.finRange 10) (clsInit s)) fun s =>
    andThen (forEach clsVote (List.range s.cfg.knnK) s) fun s => .next (clsDecide s)

/-- CLASSIFY (41_knn_update R150), once its request is popped: the checks, then the classification. It ends in EMIT, the
class in `cls.result`, or in FAULT. `clsEmit` pushes the response. -/
def execClassify (v : Word64) (s : State) : Result :=
  let t := clsCheck v s
  if t.faulted .cls then .next t else classifyQuery t

end Sys2Proof.Machine
end

