-- ==== Sys2Proof/Machine/Rotate.lean ====
section
/-! DEFINITION. ROT's operations (40_cordic R120 to R128) and the meaning of ROTATE. -/

namespace Sys2Proof.Machine

/-- The exact results `(t', c', s')` of pseudo-rotation i from `(t, c, s)` and ROM word a. Every one is computed from the
values before the iteration (40_cordic R125, R126). -/
def rotationExact (positive : Bool) (i : Nat) (a t c s : Int) : Int × Int × Int :=
  if positive then (t - a, c - shiftFloor s i, s + shiftFloor c i)
  else (t + a, c + shiftFloor s i, s - shiftFloor c i)

/-- The sequencer moves on from ITER(i): to ITER(i+1), or to EMIT(0) after i = 19 (10_state R33). No rule writes `rot.i` on
leaving ITER(19), so it stays (log 6). -/
def rotAfterIter (r : RotRegs) : RotRegs :=
  if h : r.i.val + 1 < 20 then { r with i := ⟨r.i.val + 1, h⟩, phase := .iter } else { r with phase := .emit 0 }

/-- The phase after EMIT(k) (10_state R33). -/
def rotPhaseAfterEmit (k : Fin 4) : RotPhase := if h : k.val + 1 < 4 then .emit ⟨k.val + 1, h⟩ else .idle

/-- Angle load and initial vector, in one step (40_cordic R122, R123). -/
def rotLoad (v : Word64) (s : State) : State :=
  { s with rot := { s.rot with theta := v, cos := s.cfg.kgain, sin := 0, i := 0, phase := .iter } }

/-- The three exact results are in range (40_cordic R127). -/
def rotationFits (e : Int × Int × Int) : Bool := fits64 e.1 && fits64 e.2.1 && fits64 e.2.2

/-- The pseudo-rotation of ITER(i), `rot.i` its ROM index and shift count: write the three results together and advance
(40_cordic R126), or raise ArithOverflow and write none of them (40_cordic R127). -/
def pseudoRotation (s : State) : Result :=
  withRead (atanRead s.cfg s.rot.i) fun a =>
    let e := rotationExact (isPositive s.rot.theta) s.rot.i.val (s64 a) (s64 s.rot.theta) (s64 s.rot.cos) (s64 s.rot.sin)
    if rotationFits e then
      .next { s with rot := rotAfterIter { s.rot with theta := u64 e.1, cos := u64 e.2.1, sin := u64 e.2.2 } }
    else .next (raiseFault .rot .arithOverflow s)

/-- One turn of ROTATE's loop: a raised fault ends the loop, since a faulted unit does nothing (60_exceptions R208). -/
def rotationUnlessFaulted (s : State) : Result :=
  if s.faulted .rot then hold s else pseudoRotation s

/-- Response word k (40_cordic R128): push it and advance, or hold while `rot.out` is full (20_memory R77). -/
def rotEmit (k : Fin 4) (s : State) : Result :=
  match outPush .rot (rotResponse s.rot k) s with
  | some t => .next { t with rot := { t.rot with phase := rotPhaseAfterEmit k } }
  | none => hold s

/-- ROTATE (40_cordic R120), once its request is popped: load, then the twenty pseudo-rotations. It ends in EMIT(0), the
response in `rot.cos` and `rot.sin`, or in FAULT. `rotEmit` pushes the response. -/
def execRotate (v : Word64) (s : State) : Result :=
  forEach (fun _ => rotationUnlessFaulted) (List.range Config.niter) (rotLoad v s)

end Sys2Proof.Machine
end

