-- ==== Sys2Proof/Machine/Dispatch.lean ====
section
/-! DEFINITION. One arm for each instruction. -/

namespace Sys2Proof.Machine

def exec (i : Instr) (s : State) : Host.Outcome State Fault Refusal :=
  match i with
  | .rotate v => Sys2Proof.Machine.execRotate v s
  | .classify v => Sys2Proof.Machine.execClassify v s

end Sys2Proof.Machine
end

