-- ==== Sys2Proof/Machine/HostActions.lean ====
section
/-! DEFINITION. The host's turns: PUSH, POP, STATUS and RESET (30_encoding R108, 70_reset_and_hazards R240). -/

namespace Sys2Proof.Machine

/-- The host has taken its first action, seeing `os`. -/
def hostDone (os : List Observation) (s : State) : State :=
  { s with host := { todo := s.host.todo.tail, seen := s.host.seen ++ os } }

/-- `PUSH u.in, w` (holds while full). -/
def hostPush (u : UnitId) (w : Word32) (s : State) : Result :=
  match inPush u w s with
  | some t => .next (hostDone [] t)
  | none => hold s

/-- `POP u.out -> dst` (holds while empty). -/
def hostPop (u : UnitId) (dst : Nat) (s : State) : Result :=
  match outPop u s with
  | some (w, t) => .next (hostDone [.popped u dst w] t)
  | none => hold s

/-- `STATUS u -> dst`: no side effect on the units (10_state R52). -/
def hostStatus (u : UnitId) (dst : Nat) (s : State) : Result := .next (hostDone [.status u dst (statusWord u s)] s)

/-- `RESET t`, at any time, in any phase (70_reset_and_hazards R230). -/
def hostReset (t : ResetTarget) (s : State) : Result := .next (hostDone [] (resetTarget t s))

/-- One host action. -/
def hostAct (a : HostAction) (s : State) : Result :=
  match a with
  | .push u w => hostPush u w s
  | .pop u dst => hostPop u dst s
  | .status u dst => hostStatus u dst s
  | .reset t => hostReset t s

/-- The host's turn: its first action, if it has one. -/
def hostTurn (s : State) : Result :=
  match s.host.todo with
  | [] => hold s
  | a :: _ => hostAct a s

/-- The host variable that an observation writes, and the word (30_encoding R108). -/
def observed : Observation → Nat × Word32
  | .popped _ dst w => (dst, w)
  | .status _ dst w => (dst, w)

/-- The value of host variable n: the last word that went to it. -/
def hostVar (h : HostAgent) (n : Nat) : Option Word32 :=
  ((h.seen.map observed).filter fun p => p.1 = n).getLast?.map (·.2)

end Sys2Proof.Machine
end

