-- ==== Sys2Proof/Machine/Fetch.lean ====
section
/-! DEFINITION. The units' turns: taking a request from the input port, decoding it and executing it, and the phases one at a
time (10_state R33, R37; 20_memory R78); and whose turn it is. -/

namespace Sys2Proof.Machine

/-- A request that is illegal on its port (30_encoding R107). Only `cls.in` has one, and CHECK faults on it in its own order
(60_exceptions R207). -/
def illegalRequest (v : Word64) (s : State) : Result := .next (clsCheck v s)

/-- Decode a popped request and execute it whole (20_memory R78). -/
def runRequest (u : UnitId) (v : Word64) (s : State) : Result :=
  match decode u v with
  | .ok i => exec i s
  | .error _ => illegalRequest v s

/-- IDLE: pop the first request word (40_cordic R121), or hold. -/
def rotFirstWord (s : State) : Result :=
  match inPop .rot s with
  | some (w, t) => .next { t with rot := { t.rot with lo := w, phase := .haveLo } }
  | none => hold s

/-- HAVE_LO: pop the second word (40_cordic R122), or hold. The request value goes to `rotLoad` (grain `phase`) or to the
decoder and its meaning (grain `whole`; log 4). -/
def rotSecondWord (g : Grain) (s : State) : Result :=
  match inPop .rot s with
  | some (w, t) =>
    match g with
    | .phase => .next (rotLoad (requestValue w t.rot.lo) t)
    | .whole => runRequest .rot (requestValue w t.rot.lo) t
  | none => hold s

/-- ROT's turn (10_state R33). -/
def rotTurn (g : Grain) (s : State) : Result :=
  match s.rot.phase with
  | .idle => rotFirstWord s
  | .haveLo => rotSecondWord g s
  | .iter => pseudoRotation s
  | .emit k => rotEmit k s
  | .fault => hold s

/-- IDLE: pop the first request word (41_knn_update R151), or hold. -/
def clsFirstWord (s : State) : Result :=
  match inPop .cls s with
  | some (w, t) => .next { t with cls := { t.cls with lo := w, phase := .haveLo } }
  | none => hold s

/-- HAVE_LO: pop the second word (41_knn_update R152), or hold. The request value goes to CHECK (grain `phase`) or to the
decoder and its meaning (grain `whole`; log 4). -/
def clsSecondWord (g : Grain) (s : State) : Result :=
  match inPop .cls s with
  | some (w, t) =>
    match g with
    | .phase => .next { t with cls := { t.cls with phase := .check (requestValue w t.cls.lo) } }
    | .whole => runRequest .cls (requestValue w t.cls.lo) t
  | none => hold s

/-- CLS's turn (10_state R37). -/
def clsTurn (g : Grain) (s : State) : Result :=
  match s.cls.phase with
  | .idle => clsFirstWord s
  | .haveLo => clsSecondWord g s
  | .check v => .next (clsCheck v s)
  | .init => .next (clsInit s)
  | .update c t => clsUpdate c t s
  | .vote r => clsVote r s
  | .decide => .next (clsDecide s)
  | .emit => clsEmit s
  | .fault => hold s

/-- One turn of one agent (00_scope R18). -/
def takeTurn (t : Turn) (s : State) : Result :=
  match t with
  | .host => hostTurn s
  | .unit .rot g => rotTurn g s
  | .unit .cls g => clsTurn g s

/-- Whose turn it is: the interleaving says, and where it is used up, the free value (92 D33; log 3). -/
def nextTurn (s : State) : Turn :=
  match s.turns with
  | t :: _ => t
  | [] => Config.freeTurn s.tick

/-- The interleaving moves on by one turn. -/
def nextTick (s : State) : State := { s with turns := s.turns.tail, tick := s.tick + 1 }

/-- Lay the two words of a request v where unit `u` takes its next request from: the first in `u.lo`, the second the oldest
word of `u.in`, the unit in HAVE_LO, and its turn next (log 12). -/
def placeRequest (u : UnitId) (v : Word64) (s : State) : State :=
  match u with
  | .rot =>
    { s with
      rot := { s.rot with lo := lowWord v, phase := .haveLo }
      rotIn := highWord v :: s.rotIn.tail
      turns := .unit .rot .whole :: s.turns }
  | .cls =>
    { s with
      cls := { s.cls with lo := lowWord v, phase := .haveLo }
      clsIn := highWord v :: s.clsIn.tail
      turns := .unit .cls .whole :: s.turns }

end Sys2Proof.Machine
end

