-- ==== Sys2Proof/Machine/Step.lean ====
section
/-! DEFINITION. One step: one turn of one agent, in a well-formed configuration (00_scope R9, R18). -/

namespace Sys2Proof.Machine

/-- One step. An ill-formed configuration has no run at all (00_scope R9). -/
def step (s : State) : Host.Outcome State Fault Refusal :=
  if s.cfg.wf then takeTurn (nextTurn s) (nextTick s) else .refused .illFormedConfiguration

/-- The state with a table word laid where the next step fetches it (log 12). -/
def State.withFetchWord (s : State) (nbits w : Nat) : State :=
  placeRequest (tableUnit (tableValue nbits w)) (tableValue nbits w) s

end Sys2Proof.Machine
end

