-- ==== Sys2Proof/Machine/Runs.lean ====
section
/-! DEFINITION. Runs of the machine (70_reset_and_hazards R241, R251): which unit holds on a port and which has an enabled step,
weak fairness, the requests that wait for an answer, the end of a run and its observation, and stuck states. A run is a
sequence of states; nothing here is part of State. -/

namespace Sys2Proof.Machine

/-- The port that a phase's step moves a word through. -/
inductive PhasePort where
  | input
  | output
  | none
  deriving DecidableEq, Repr

/-- 10_state R33, 40_cordic R121, R122, R128. -/
def rotPhasePort : RotPhase → PhasePort
  | .idle => .input
  | .haveLo => .input
  | .iter => .none
  | .emit _ => .output
  | .fault => .none

/-- 10_state R37, 41_knn_update R151, R152, 42_knn_vote R185. -/
def clsPhasePort : ClsPhase → PhasePort
  | .idle => .input
  | .haveLo => .input
  | .check _ => .none
  | .init => .none
  | .update _ _ => .none
  | .vote _ => .none
  | .decide => .none
  | .emit => .output
  | .fault => .none

/-- The port that unit `u`'s next step moves a word through. -/
def State.phasePort (s : State) : UnitId → PhasePort
  | .rot => rotPhasePort s.rot.phase
  | .cls => clsPhasePort s.cls.phase

/-- `u.phase = IDLE`. -/
def State.idle (s : State) : UnitId → Bool
  | .rot => decide (s.rot.phase = .idle)
  | .cls => decide (s.cls.phase = .idle)

/-- Unit `u` holds on a FIFO: its input is empty or its output is full where its phase needs it (20_memory R76, R77). -/
def State.holds (s : State) (u : UnitId) : Bool :=
  match s.phasePort u with
  | .input => (s.inFifo u).isEmpty
  | .output => decide (s.cfg.outDepth ≤ (s.outFifo u).length)
  | .none => false

/-- Unit `u` has an enabled step: it is not holding on a FIFO and not in FAULT (70_reset_and_hazards R251). -/
def State.enabled (s : State) (u : UnitId) : Bool := !s.faulted u && !s.holds u

/-- Unit `u` has left IDLE and not returned to it (20_memory R78), and is not in FAULT. -/
def State.inTransaction (s : State) (u : UnitId) : Bool := !s.idle u && !s.faulted u

/-- Unit `u` holds in HAVE_LO, on half a request, or in EMIT, on a full output (70_reset_and_hazards R241). -/
def State.heldInTransaction (s : State) (u : UnitId) : Bool := s.inTransaction u && s.holds u

/-- σ is an infinite run: each state is the step of the one before. -/
def IsRun (σ : Nat → State) : Prop := ∀ n : Nat, step (σ n) = .next (σ (n + 1))

/-- σ is a run up to state n. -/
def IsRunUpTo (σ : Nat → State) (n : Nat) : Prop := ∀ m : Nat, m < n → step (σ m) = .next (σ (m + 1))

/-- Weak fairness for unit `u`: a step that stays enabled is eventually taken (70_reset_and_hazards R251). A claim about
progress takes it as a premise, since `turns` and the free value may leave a unit out (log 3). -/
def WeaklyFair (u : UnitId) (σ : Nat → State) : Prop :=
  ∀ n : Nat, (∀ m : Nat, n ≤ m → (σ m).enabled u = true) → ∃ m : Nat, n ≤ m ∧ ∃ g : Grain, nextTurn (σ m) = .unit u g

/-- A run of the block: every unit's steps are taken fairly (70_reset_and_hazards R251). -/
def FairRun (σ : Nat → State) : Prop := IsRun σ ∧ ∀ u : UnitId, WeaklyFair u σ

/-- What a run has done at one unit's ports: the words pushed to `u.in` and to `u.out` since the last reset of `u`, and the
requests that resets before have abandoned. -/
structure Ledger where
  accepted : Nat
  answered : Nat
  abandoned : Nat
  deriving DecidableEq, Repr

/-- The words of a response record (30_encoding R105, R106). -/
def responseLength : UnitId → Nat
  | .rot => 4
  | .cls => 1

/-- The requests whose whole response record the unit has not pushed. A request counts from its first word (log 16). -/
def unanswered (u : UnitId) (l : Ledger) : Nat := l.abandoned + ((l.accepted + 1) / 2 - l.answered / responseLength u)

/-- The step from s resets unit `u`. -/
def resetsUnit (u : UnitId) (s : State) : Bool :=
  match nextTurn s, s.host.todo with
  | .host, .reset target :: _ => decide (target = .all ∨ target = .unit u)
  | _, _ => false

/-- A step from s to t in the ledger: a reset abandons what is unanswered (70_reset_and_hazards R232); otherwise a FIFO that
has grown has taken a word. -/
def ledgerStep (u : UnitId) (s t : State) (l : Ledger) : Ledger :=
  if resetsUnit u s then { accepted := 0, answered := 0, abandoned := unanswered u l }
  else
    { l with
      accepted := l.accepted + ((t.inFifo u).length - (s.inFifo u).length)
      answered := l.answered + ((t.outFifo u).length - (s.outFifo u).length) }

/-- The ledger of unit `u` at state n of a run from launch. -/
def ledger (u : UnitId) (σ : Nat → State) : Nat → Ledger
  | 0 => { accepted := 0, answered := 0, abandoned := 0 }
  | n + 1 => ledgerStep u (σ n) (σ (n + 1)) (ledger u σ n)

/-- Every request pushed to `u` has its whole response record pushed, and `u` is IDLE or in FAULT (70_reset_and_hazards
R241). -/
abbrev UnitEnded (σ : Nat → State) (n : Nat) (u : UnitId) : Prop :=
  unanswered u (ledger u σ n) = 0 ∧ ((σ n).idle u = true ∨ (σ n).faulted u = true)

/-- State n ends the run σ (70_reset_and_hazards R241). A request that faulted or that a reset abandoned is never answered, so
such a run has no end in this sense; `Settled` is the weaker notion (log 16). -/
abbrev EndOfRun (σ : Nat → State) (n : Nat) : Prop :=
  UnitEnded σ n .rot ∧ UnitEnded σ n .cls ∧ (σ n).host.todo = []

/-- The host has no further action, and each unit is in FAULT, or IDLE with no request word waiting (log 16). -/
abbrev Settled (s : State) : Prop :=
  s.host.todo = [] ∧ (s.faulted .rot = true ∨ (s.idle .rot = true ∧ s.rotIn = [])) ∧
    (s.faulted .cls = true ∨ (s.idle .cls = true ∧ s.clsIn = []))

/-- The observation of a run (70_reset_and_hazards R241). -/
structure RunObservation where
  /-- The words the host popped, in order, each with the unit it came from. -/
  popped : List (UnitId × Word32)
  rotStatus : Word32
  clsStatus : Word32
  deriving DecidableEq, Repr

/-- The word that an observation of the host popped, if it is a pop. -/
def poppedWord : Observation → Option (UnitId × Word32)
  | .popped u _ w => some (u, w)
  | .status _ _ _ => none

/-- The observation of a run that ends in s (70_reset_and_hazards R241). -/
def runObservation (s : State) : RunObservation where
  popped := s.host.seen.filterMap poppedWord
  rotStatus := statusWord .rot s
  clsStatus := statusWord .cls s

/-- The host holds on a full `u.in` while `u` holds on a full `u.out` (70_reset_and_hazards R247). -/
def Deadlocked (s : State) (u : UnitId) : Prop :=
  (∃ (w : Word32) (rest : List HostAction), s.host.todo = .push u w :: rest) ∧
    s.cfg.inDepth ≤ (s.inFifo u).length ∧ s.phasePort u = .output ∧ s.cfg.outDepth ≤ (s.outFifo u).length

/-- A stuck state: some unit holds in HAVE_LO or in EMIT with no host action left, whatever the other unit does
(70_reset_and_hazards R241), or the host and a unit are deadlocked (R247). -/
def Stuck (s : State) : Prop :=
  (s.host.todo = [] ∧ ∃ u : UnitId, s.heldInTransaction u = true) ∨ ∃ u : UnitId, Deadlocked s u

/-- No agent has a step: every one holds. -/
def Quiescent (s : State) : Prop := ∀ t : Turn, takeTurn t s = .next s

end Sys2Proof.Machine
end

