-- ==== Sys2Proof/Safety/Functions.lean ====
section
/-! DEFINITION. ROTATE and CLASSIFY as functions of the request and the configuration (40_cordic R129, 42_knn_vote R186),
written apart from the machine: on integers, sorted lists and counts, with no register, phase or pointer. Claims say that the
machine computes them. -/

namespace Sys2Proof.Functions

/-- The pseudo-rotations with the given shift counts and ROM words, from residual t, cosine c and sine s (40_cordic R126).
`error` carries the values before the pseudo-rotation that overflows (40_cordic R127). -/
def rotations : List (Word64 × Nat) → Int → Int → Int → Except (Int × Int × Int) (Int × Int × Int)
  | [], t, c, s => .ok (t, c, s)
  | (a, i) :: rest, t, c, s =>
    let d : Int := if 0 < t then 1 else -1
    let t' := t - d * a.toInt
    let c' := c - d * (s / 2 ^ i)
    let s' := s + d * (c / 2 ^ i)
    if -2 ^ 63 ≤ t' ∧ t' < 2 ^ 63 ∧ -2 ^ 63 ≤ c' ∧ c' < 2 ^ 63 ∧ -2 ^ 63 ≤ s' ∧ s' < 2 ^ 63 then
      rotations rest t' c' s'
    else .error (t, c, s)

/-- `rotate_cfg(V)`: the final residual, cosine and sine, or the values at an overflow (40_cordic R129). -/
def rotate (cfg : Cfg) (v : Word64) : Except (Int × Int × Int) (Int × Int × Int) :=
  rotations cfg.atan.zipIdx v.toInt cfg.kgain.toInt 0

/-- The count of differing bit positions (00_scope R14, R17). -/
def distance (q x : Bitmap) : Nat := ((List.finRange 49).filter fun j => q.getLsbD j.val != x.getLsbD j.val).length

/-- The distances of a class's training instances (41_knn_update R155). -/
def distances (cfg : Cfg) (q : Bitmap) (c : ClassIdx) : List Nat := (cfg.train.getD c.val []).map (distance q)

/-- The KNN_K smallest of a list in ascending order, padded on the right with 50 (41_knn_update R157). -/
def smallest (k : Nat) (ds : List Nat) : List Nat :=
  (ds.insertionSort fun a b => a ≤ b).take k ++ List.replicate (k - ds.length) 50

/-- A neighbour is its distance and its class; the nearer comes first, then the lower class (42_knn_vote R182). -/
abbrev nearer (a b : Nat × Nat) : Prop := a.1 < b.1 ∨ (a.1 = b.1 ∧ a.2 ≤ b.2)

/-- The KNN_K globally nearest neighbours over ten k-best arrays, the nearest first (00_scope R3, 42_knn_vote R180). -/
def nearest (k : Nat) (kb : ClassIdx → List Nat) : List (Nat × Nat) :=
  (((List.finRange 10).flatMap fun c => (kb c).map fun d => (d, c.val)).insertionSort nearer).take k

/-- How many of the neighbours come from class c (00_scope R17). -/
def countOf (ns : List (Nat × Nat)) (c : ClassIdx) : Nat := ns.countP fun n => n.2 == c.val

/-- The sum of the round weights k, k−1, … that class c won (42_knn_vote R182). -/
def scoreOf (k : Nat) (ns : List (Nat × Nat)) (c : ClassIdx) : Nat :=
  ((ns.zipIdx.filter fun n => n.1.2 == c.val).map fun n => k - n.2).sum

/-- Class c is at least as good as class b: a larger count, or the same count and at least the score (42_knn_vote R184). -/
def asGood (cnt score : ClassIdx → Nat) (c b : ClassIdx) : Bool :=
  decide (cnt b < cnt c ∨ (cnt b = cnt c ∧ score b ≤ score c))

/-- The lowest class index that is as good as every class (42_knn_vote R184). -/
def winner (cnt score : ClassIdx → Nat) : ClassIdx :=
  ((List.finRange 10).find? fun c => (List.finRange 10).all fun b => asGood cnt score c b).getD 0

/-- The k-best array of class c after step 1 (42_knn_vote R186). -/
def kbest (cfg : Cfg) (q : Bitmap) (c : ClassIdx) : List Nat := smallest cfg.knnK (distances cfg q c)

/-- The neighbours that vote on query q (42_knn_vote R186). -/
def neighbours (cfg : Cfg) (q : Bitmap) : List (Nat × Nat) := nearest cfg.knnK (kbest cfg q)

/-- The class of query q (42_knn_vote R186). -/
def classOf (cfg : Cfg) (q : Bitmap) : ClassIdx :=
  winner (countOf (neighbours cfg q)) (scoreOf cfg.knnK (neighbours cfg q))

end Sys2Proof.Functions
end

