-- ==== Sys2Proof/Safety.lean ====
section
/-! DEFINITION. What claims are stated in: no fault, launch states, and the invariant that every step keeps. Runs, their end
and stuck states are in Machine/Runs.lean. -/

namespace Sys2Proof.Machine

/-- x is a 64-bit two's-complement value (00_scope R12, R13). -/
abbrev Signed64 (x : Int) : Prop := -2 ^ 63 ≤ x ∧ x < 2 ^ 63

/-- The tables are the spec's defaults (10_state R40, R41). -/
abbrev DefaultTables (cfg : Cfg) : Prop := cfg.atan = Config.atanDefault ∧ cfg.kgain = Config.kgainDefault

/-- No fault is recorded (60_exceptions R200). -/
abbrev NoFault (s : State) : Prop := s.rot.cause = .none ∧ s.cls.cause = .none

/-- The launch premises (70_reset_and_hazards R233), with a well-formed configuration (00_scope R9). -/
abbrev Launch (s : State) : Prop :=
  s.cfg.wf = true ∧ NoFault s ∧ s.rotIn = [] ∧ s.rotOut = [] ∧ s.clsIn = [] ∧ s.clsOut = [] ∧
    s.rot.phase = .idle ∧ s.cls.phase = .idle

/-- Every FIFO is within its capacity (20_memory R76, R77). -/
abbrev FifoInv (s : State) : Prop :=
  s.rotIn.length ≤ s.cfg.inDepth ∧ s.clsIn.length ≤ s.cfg.inDepth ∧
    s.rotOut.length ≤ s.cfg.outDepth ∧ s.clsOut.length ≤ s.cfg.outDepth

/-- A cause is recorded exactly in FAULT (10_state R52), and each unit records only its own causes (60_exceptions R201). -/
abbrev CauseInv (s : State) : Prop :=
  (s.rot.phase = .fault ↔ s.rot.cause ≠ .none) ∧ (s.cls.phase = .fault ↔ s.cls.cause ≠ .none) ∧
    (s.rot.cause = .none ∨ s.rot.cause = .arithOverflow) ∧ s.cls.cause ≠ .arithOverflow

/-- A k-best array ascends (41_knn_update R157). -/
abbrev Ascending (kb : List Dist) : Prop := kb.Pairwise fun a b => a.toNat ≤ b.toNat

/-- Every k-best array has KNN_K entries of 0..50 (10_state R35), ascending (41_knn_update R157). -/
abbrev KbestInv (s : State) : Prop :=
  ∀ c : ClassIdx, (getAt s.cls.kbest c).length = s.cfg.knnK ∧ Ascending (getAt s.cls.kbest c) ∧
    ∀ d ∈ getAt s.cls.kbest c, d.toNat ≤ 50

/-- The sum of the ten classes' values. -/
def total (v : PerClass Nat) : Nat := v.toList.sum

/-- After r rounds the pointers and the counts are equal and sum to r, and the scores sum to the weights of those rounds
(42_knn_vote R183, R187). -/
abbrev Tallied (cfg : Cfg) (r : Nat) (c : ClsRegs) : Prop :=
  c.ptr = c.cnt ∧ total c.cnt = r ∧ total c.score = ((List.range r).map fun j => cfg.knnK - j).sum

/-- The counters of CLS's phase are in range, and the tallies are those of its rounds (10_state R37, 42_knn_vote R183). -/
def clsPhaseInv (cfg : Cfg) (c : ClsRegs) : Bool :=
  match c.phase with
  | .init => decide (0 < cfg.trainN)
  | .update _ t => decide (t < cfg.trainN)
  | .vote r => decide (r < cfg.knnK ∧ Tallied cfg r c)
  | .decide => decide (Tallied cfg cfg.knnK c)
  | .emit => decide (Tallied cfg cfg.knnK c)
  | _ => true

/-- The invariant of the machine. It holds at power-on, every step keeps it, and a step from it never stops. -/
abbrev Invariant (s : State) : Prop :=
  s.cfg.wf = true ∧ FifoInv s ∧ CauseInv s ∧ KbestInv s ∧ clsPhaseInv s.cfg s.cls = true ∧ s.cls.result.toNat < 10

end Sys2Proof.Machine
end

