-- ==== Sys2Proof/Certificates/Slice0/Obligations.lean ====
section
/-! DEFINITION. The statements for the provers, in the order encoding, fetching, ROT, CLS, faults, ports and the host, the
whole machine. -/

open Sys2Proof Sys2Proof.Machine

/-! ### Encoding -/

/-- R101, R74: the request value of two words, low word first, and the two words of a value. -/
def Obligations.RequestWordOrder : Prop :=
  (∀ w1 w0 : Word32,
    requestValue w1 w0 = (w1.setWidth 64 <<< 32 ||| w0.setWidth 64) ∧
      lowWord (requestValue w1 w0) = w0 ∧ highWord (requestValue w1 w0) = w1) ∧
  ∀ (v : Word64) (j : Nat), j < 32 →
    (lowWord v).getLsbD j = v.getLsbD j ∧ (highWord v).getLsbD j = v.getLsbD (32 + j)

/-- 95_test_vectors 2.1 (V-ENC-1 to V-ENC-6): words written out decode to the requests they stand for. -/
def Obligations.DecodesWordsOfSpec : Prop :=
  decodeWords .rot [0x885A308D, 0x3243F6A8] = .ok (.rotate 0x3243F6A8885A308D, []) ∧
  decodeWords .rot [0x3243F6A8, 0x885A308D] = .ok (.rotate 0x885A308D3243F6A8, []) ∧
  decodeWords .cls [0xFFFFFFFF, 0x0001FFFF] = .ok (.classify 0x0001FFFFFFFFFFFF, []) ∧
  decodeWords .cls [0x00000000, 0x00020000] = .error .reservedBitsSet ∧
  decodeWords .cls [0x00000000, 0x80000000] = .error .reservedBitsSet ∧
  decodeWords .rot [0x00000000, 0x80000000] = .ok (.rotate 0x8000000000000000, []) ∧
  decodeWords .cls [0x000007FF] = .error .incompleteRequest ∧
  decodeWords .cls [0x000007FF, 0x00000000, 0x00000005] = .ok (.classify 0x7FF, [0x00000005])

/-- R107, R102, R103: the port selects the operation, every value is a ROTATE, and a value is a CLASSIFY exactly when its
bits 63 to 49 are 0. -/
def Obligations.PortSelectsOperation : Prop :=
  ∀ v : Word64,
    decode .rot v = .ok (.rotate v) ∧
    ((∀ j, 49 ≤ j → j < 64 → v.getLsbD j = false) → decode .cls v = .ok (.classify v)) ∧
    ((∃ j, 49 ≤ j ∧ j < 64 ∧ v.getLsbD j = true) → decode .cls v = .error .reservedBitsSet)

/-- Decoding the words of a well-formed request, whatever follows them, gives the request back. -/
def Obligations.DecodeEncodeRoundTrip : Prop :=
  ∀ (i : Instr) (rest : List Word32), i.wf = true → decodeWords i.unit (encode i ++ rest) = .ok (i, rest)

/-- What is decoded is well formed, is for the port it came from, and its words are the ones decoded. -/
def Obligations.DecodedRequestReencodes : Prop :=
  ∀ (u : UnitId) (ws rest : List Word32) (i : Instr),
    decodeWords u ws = .ok (i, rest) → i.wf = true ∧ i.unit = u ∧ encode i ++ rest = ws

/-- R109: the pseudo-instructions' host actions. -/
def Obligations.PseudoInstructionsExpand : Prop :=
  (∀ v : Word64,
    (Pseudo.rotate v).expand = (encode (.rotate v)).map (HostAction.push .rot) ∧
    (Pseudo.classify v).expand = (encode (.classify v)).map (HostAction.push .cls) ∧
    getrotValue (highWord v) (lowWord v) = v) ∧
  (∀ a b c d : Nat, (Pseudo.getrot a b c d).expand = [.pop .rot a, .pop .rot b, .pop .rot c, .pop .rot d]) ∧
  (∀ a : Nat, (Pseudo.getcls a).expand = [.pop .cls a]) ∧
  ∀ w : Word32, (getclsValue w).toNat = w.toNat % 16

/-! ### Fetching and refusing -/

/-- A step that takes the second word of a request runs the decoded instruction on the state without that word. -/
def Obligations.StepRunsDecodedRequest : Prop :=
  ∀ (s : State) (w : Word32) (rest : List Word32) (i : Instr),
    s.cfg.wf = true →
    (nextTurn s = .unit .rot .whole → s.rot.phase = .haveLo → s.rotIn = w :: rest →
      decode .rot (requestValue w s.rot.lo) = .ok i →
      step s = exec i { s with rotIn := rest, turns := s.turns.tail, tick := s.tick + 1 }) ∧
    (nextTurn s = .unit .cls .whole → s.cls.phase = .haveLo → s.clsIn = w :: rest →
      decode .cls (requestValue w s.cls.lo) = .ok i →
      step s = exec i { s with clsIn := rest, turns := s.turns.tail, tick := s.tick + 1 })

/-- A table word laid where the next step fetches it is run by that step. The model's choice of place and port (log 12). -/
def Obligations.PlacedWordRunsNext : Prop :=
  ∀ (s : State) (nbits w : Nat) (i : Instr),
    s.cfg.wf = true → decodeTableWord nbits w = some i →
    ∃ s' : State, step (s.withFetchWord nbits w) = exec i s' ∧
      s'.cfg = s.cfg ∧ s'.host = s.host ∧ s'.turns = s.turns ∧ s'.rotOut = s.rotOut ∧ s'.clsOut = s.clsOut ∧
      s'.rotIn = (if i.unit = .rot then s.rotIn.tail else s.rotIn) ∧
      s'.clsIn = (if i.unit = .cls then s.clsIn.tail else s.clsIn)

/-- R9: an ill-formed configuration has no run: its every step is refused. -/
def Obligations.IllFormedConfigurationHasNoRun : Prop :=
  ∀ s : State,
    (s.cfg.knnK = 0 ∨ (s.cfg.train.map List.length).sum ≠ 10 * s.cfg.trainN ∨ s.cfg.atan.length ≠ 20) →
    step s = .refused .illFormedConfiguration

/-! ### ROT -/

/-- R121: IDLE pops the first request word, or holds. -/
def Obligations.RotTakesFirstWord : Prop :=
  ∀ (s : State) (g : Grain), s.rot.phase = .idle →
    (s.rotIn = [] → takeTurn (.unit .rot g) s = .next s) ∧
    ∀ (w : Word32) (ws : List Word32), s.rotIn = w :: ws →
      takeTurn (.unit .rot g) s = .next { s with rotIn := ws, rot := { s.rot with lo := w, phase := .haveLo } }

/-- R122, R123: HAVE_LO pops the second word, loads the angle and the initial vector, or holds. -/
def Obligations.RotLoadsAngle : Prop :=
  ∀ s : State, s.rot.phase = .haveLo →
    (∀ g : Grain, s.rotIn = [] → takeTurn (.unit .rot g) s = .next s) ∧
    ∀ (w : Word32) (ws : List Word32), s.rotIn = w :: ws →
      takeTurn (.unit .rot .phase) s =
        .next { s with
          rotIn := ws
          rot := { s.rot with theta := w ++ s.rot.lo, cos := s.cfg.kgain, sin := 0, i := 0, phase := .iter } }

/-- R124 to R127: pseudo-rotation i, with i in `rot.i`, a the ROM word and t, c, z the residual, cosine and sine before it. -/
def Obligations.PseudoRotationStep : Prop :=
  ∀ (s : State) (i : Fin 20) (g : Grain) (word : Word64) (a t c z t' c' z' : Int),
    s.rot.phase = .iter → s.rot.i = i → s.cfg.atan[i.val]? = some word → a = word.toInt →
    t = s.rot.theta.toInt → c = s.rot.cos.toInt → z = s.rot.sin.toInt →
    t' = (if 0 < t then t - a else t + a) →
    c' = (if 0 < t then c - z / 2 ^ i.val else c + z / 2 ^ i.val) →
    z' = (if 0 < t then z + c / 2 ^ i.val else z - c / 2 ^ i.val) →
    (Signed64 t' ∧ Signed64 c' ∧ Signed64 z' →
      ∃ (j : Fin 20) (p : RotPhase), (i.val < 19 → j.val = i.val + 1 ∧ p = .iter) ∧ (i.val = 19 → p = .emit 0) ∧
        takeTurn (.unit .rot g) s =
          .next { s with
            rot := { s.rot with
              theta := BitVec.ofInt 64 t', cos := BitVec.ofInt 64 c', sin := BitVec.ofInt 64 z', i := j, phase := p } }) ∧
    (¬(Signed64 t' ∧ Signed64 c' ∧ Signed64 z') →
      takeTurn (.unit .rot g) s = .next { s with rot := { s.rot with cause := .arithOverflow, phase := .fault } })

/-- R128, R77: EMIT(k) pushes response word k and advances, or holds while `rot.out` is full. -/
def Obligations.RotEmitsResponse : Prop :=
  ∀ (s : State) (k : Fin 4) (g : Grain), s.rot.phase = .emit k →
    (s.cfg.outDepth ≤ s.rotOut.length → takeTurn (.unit .rot g) s = .next s) ∧
    (s.rotOut.length < s.cfg.outDepth →
      ∃ (w : Word32) (p : RotPhase),
        (k = 0 → w = s.rot.cos.extractLsb' 0 32 ∧ p = .emit 1) ∧
        (k = 1 → w = s.rot.cos.extractLsb' 32 32 ∧ p = .emit 2) ∧
        (k = 2 → w = s.rot.sin.extractLsb' 0 32 ∧ p = .emit 3) ∧
        (k = 3 → w = s.rot.sin.extractLsb' 32 32 ∧ p = .idle) ∧
        takeTurn (.unit .rot g) s = .next { s with rotOut := s.rotOut ++ [w], rot := { s.rot with phase := p } })

/-- R120, R129: where the twenty exact pseudo-rotations stay in range, ROTATE completes with their results and changes nothing
else. That `rot.i` keeps the 19 of the last ITER is the model's reading (log 6). -/
def Obligations.RotateComputesItsFunction : Prop :=
  ∀ (s : State) (v : Word64) (t c z : Int),
    s.cfg.wf = true → Functions.rotate s.cfg v = .ok (t, c, z) →
    exec (.rotate v) s =
      .next { s with
        rot := { s.rot with
          theta := BitVec.ofInt 64 t, cos := BitVec.ofInt 64 c, sin := BitVec.ofInt 64 z, i := 19, phase := .emit 0 } }

/-- R127, R204, R206: where a pseudo-rotation leaves the range, ROTATE takes ArithOverflow and its results before that
pseudo-rotation stay. -/
def Obligations.RotateOverflowFaults : Prop :=
  ∀ (s : State) (v : Word64) (t c z : Int),
    s.cfg.wf = true → Functions.rotate s.cfg v = .error (t, c, z) →
    ∃ i : Fin 20,
      exec (.rotate v) s =
        .next { s with
          rot := { s.rot with
            theta := BitVec.ofInt 64 t, cos := BitVec.ofInt 64 c, sin := BitVec.ofInt 64 z, i := i
            cause := .arithOverflow, phase := .fault } }

/-- R130: with the default tables no ROTATE overflows: every one completes, and changes ROT's datapath, `rot.i` and phase alone.
With another KGAIN an overflow is reachable (R127). -/
def Obligations.DefaultTablesNeverOverflow : Prop :=
  (∀ (s : State) (v : Word64),
    s.cfg.wf = true → DefaultTables s.cfg →
    ∃ (th co si : Word64) (i : Fin 20),
      exec (.rotate v) s =
        .next { s with rot := { s.rot with theta := th, cos := co, sin := si, i := i, phase := .emit 0 } }) ∧
  ∃ (s t : State) (v : Word64),
    s.cfg.wf = true ∧ s.cfg.atan = Config.atanDefault ∧ exec (.rotate v) s = .next t ∧
      t.rot.phase = .fault ∧ t.rot.cause = .arithOverflow

/-- R131: ROTATE of 0 with the default tables. -/
def Obligations.RotateZeroResult : Prop :=
  ∀ s : State, s.cfg.wf = true → DefaultTables s.cfg →
    ∃ i : Fin 20,
      exec (.rotate 0) s =
        .next { s with
          rot := { s.rot with
            theta := 0xFFFFFE33A39E230F, cos := 0x3FFFFFFFFFCEDDBB, sin := 0x000001CC5C61DCF0, i := i
            phase := .emit 0 } }

/-- R133 and 95_test_vectors 2.2: every angle above the sum of the default table's entries gives the words of V-ROT-11. -/
def Obligations.RotateBeyondConvergence : Prop :=
  ∀ (s : State) (v : Word64), s.cfg.wf = true → DefaultTables s.cfg →
    (Config.atanDefault.map fun a => a.toInt).sum < v.toInt →
    ∃ (th : Word64) (i : Fin 20),
      exec (.rotate v) s =
        .next { s with
          rot := { s.rot with
            theta := th, cos := 0xF503F1686C639BE3, sin := 0x3F0CDF91AF338248, i := i, phase := .emit 0 } }

/-- R129: ROTATE depends on V, ATAN_TABLE and KGAIN only. -/
def Obligations.RotateDependsOnTablesOnly : Prop :=
  ∀ (s s' t : State) (v : Word64),
    s.cfg.atan = s'.cfg.atan → s.cfg.kgain = s'.cfg.kgain → exec (.rotate v) s = .next t →
    ∃ t' : State, exec (.rotate v) s' = .next t' ∧ t'.rot.theta = t.rot.theta ∧ t'.rot.cos = t.rot.cos ∧
      t'.rot.sin = t.rot.sin ∧ t'.rot.phase = t.rot.phase

/-- R78, R83, R105, R120: a ROTATE from IDLE with room for its response takes its two words and answers with the four words of
its function's cosine and sine (`rot.i`: log 6). -/
def Obligations.RotateTransaction : Prop :=
  ∀ (s : State) (w0 w1 : Word32) (rest : List Word32) (ts : List Turn) (t c z : Int),
    s.cfg.wf = true → s.rot.phase = .idle → s.rotIn = w0 :: w1 :: rest → s.rotOut.length + 4 ≤ s.cfg.outDepth →
    s.turns = List.replicate 6 (.unit .rot .whole) ++ ts →
    Functions.rotate s.cfg (w1 ++ w0) = .ok (t, c, z) →
    Host.Core.run core 6 s =
      .next { s with
        rot := { s.rot with
          lo := w0, theta := BitVec.ofInt 64 t, cos := BitVec.ofInt 64 c, sin := BitVec.ofInt 64 z, i := 19
          phase := .idle }
        rotIn := rest
        rotOut := s.rotOut ++
          [(BitVec.ofInt 64 c).extractLsb' 0 32, (BitVec.ofInt 64 c).extractLsb' 32 32,
            (BitVec.ofInt 64 z).extractLsb' 0 32, (BitVec.ofInt 64 z).extractLsb' 32 32]
        turns := ts
        tick := s.tick + 6 }

/-- R78, R36: twenty-one phases of ROT leave what the whole step leaves. -/
def Obligations.RotPhasesEqualWhole : Prop :=
  ∀ (s : State) (ts : List Turn), s.cfg.wf = true → s.rot.phase = .haveLo →
    Host.Core.run core 21 { s with turns := List.replicate 21 (.unit .rot .phase) ++ ts } =
      Host.Core.run core 1 { s with turns := .unit .rot .whole :: ts, tick := s.tick + 20 }

/-! ### CLS -/

/-- R151: IDLE pops the first request word, or holds. -/
def Obligations.ClsTakesFirstWord : Prop :=
  ∀ (s : State) (g : Grain), s.cls.phase = .idle →
    (s.clsIn = [] → takeTurn (.unit .cls g) s = .next s) ∧
    ∀ (w : Word32) (ws : List Word32), s.clsIn = w :: ws →
      takeTurn (.unit .cls g) s = .next { s with clsIn := ws, cls := { s.cls with lo := w, phase := .haveLo } }

/-- R152, R207: HAVE_LO pops the second word or holds, and CHECK applies the checks in order. -/
def Obligations.ClsChecksRequest : Prop :=
  (∀ s : State, s.cls.phase = .haveLo →
    (∀ g : Grain, s.clsIn = [] → takeTurn (.unit .cls g) s = .next s) ∧
    ∀ (w : Word32) (ws : List Word32), s.clsIn = w :: ws →
      takeTurn (.unit .cls .phase) s =
        .next { s with clsIn := ws, cls := { s.cls with phase := .check (w ++ s.cls.lo) } }) ∧
  ∀ (s : State) (v : Word64) (g : Grain), s.cls.phase = .check v →
    (s.cfg.trainN = 0 →
      takeTurn (.unit .cls g) s = .next { s with cls := { s.cls with cause := .degenerateModel, phase := .fault } }) ∧
    (s.cfg.trainN ≠ 0 → v.extractLsb' 49 15 ≠ 0 →
      takeTurn (.unit .cls g) s = .next { s with cls := { s.cls with cause := .invalidInput, phase := .fault } }) ∧
    (s.cfg.trainN ≠ 0 → v.extractLsb' 49 15 = 0 →
      takeTurn (.unit .cls g) s = .next { s with cls := { s.cls with query := v.extractLsb' 0 49, phase := .init } })

/-- R153: INIT sets every k-best entry to 50. -/
def Obligations.ClsInitialisesKbest : Prop :=
  ∀ (s : State) (g : Grain), s.cls.phase = .init →
    takeTurn (.unit .cls g) s =
      .next { s with
        cls := { s.cls with kbest := Vector.ofFn fun _ => List.replicate s.cfg.knnK 50, phase := .update 0 0 } }

/-- R155: the distance counts the differing bit positions; its laws. -/
def Obligations.HammingDistanceLaws : Prop :=
  ∀ a b : Bitmap,
    (hamming a b).toNat = Functions.distance a b ∧ hamming a b = hamming b a ∧ hamming a a = 0 ∧
      (hamming a b).toNat ≤ 49

/-- R156: on an ascending array, insertion inserts in order and drops the largest. -/
def Obligations.InsertionDropsLargest : Prop :=
  ∀ (kb : List Dist) (d : Dist), Ascending kb →
    (insertDist kb d).map (·.toNat) =
      ((kb.map (·.toNat)).orderedInsert (fun a b => a ≤ b) d.toNat).take kb.length

/-- R157: from K sentinels the array holds the K smallest of the distances inserted, ascending, padded with 50; the order of
insertion does not matter. -/
def Obligations.KbestHoldsKSmallest : Prop :=
  ∀ (k : Nat) (ds : List Dist), (∀ d ∈ ds, d.toNat ≤ 49) →
    Ascending (ds.foldl insertDist (List.replicate k 50)) ∧
    (ds.foldl insertDist (List.replicate k 50)).map (·.toNat) = Functions.smallest k (ds.map (·.toNat)) ∧
    ∀ ds' : List Dist, ds.Perm ds' →
      ds'.foldl insertDist (List.replicate k 50) = ds.foldl insertDist (List.replicate k 50)

/-- R158, R181: UPDATE(c, t) inserts the distance of instance t into class c's array alone; the last one enters VOTE(0) with
the pointers, counts and scores cleared. -/
def Obligations.ClsUpdatesOneClass : Prop :=
  ∀ (s : State) (g : Grain) (c : ClassIdx) (t : Nat) (row : List Bitmap) (x : Bitmap) (kb : PerClass (List Dist)),
    s.cls.phase = .update c t → s.cfg.train[c.val]? = some row → row[t]? = some x →
    getAt kb c = insertDist (getAt s.cls.kbest c) (hamming s.cls.query x) →
    (∀ b : ClassIdx, b ≠ c → getAt kb b = getAt s.cls.kbest b) →
    (t + 1 < s.cfg.trainN →
      takeTurn (.unit .cls g) s = .next { s with cls := { s.cls with kbest := kb, phase := .update c (t + 1) } }) ∧
    (t + 1 = s.cfg.trainN → c.val < 9 →
      takeTurn (.unit .cls g) s =
        .next { s with cls := { s.cls with kbest := kb, phase := .update (Fin.ofNat 10 (c.val + 1)) 0 } }) ∧
    (t + 1 = s.cfg.trainN → c.val = 9 →
      takeTurn (.unit .cls g) s =
        .next { s with
          cls := { s.cls with
            kbest := kb, ptr := Vector.ofFn fun _ => 0, cnt := Vector.ofFn fun _ => 0
            score := Vector.ofFn fun _ => 0, phase := .vote 0 } })

/-- R182: a vote round picks the class with the smallest entry at its pointer, the lowest class on ties, and advances its
pointer and count and adds the weight KNN_K − r to its score. -/
def Obligations.VoteRoundPicksSmallest : Prop :=
  ∀ (s : State) (g : Grain) (r : Nat) (head : ClassIdx → Dist),
    s.cls.phase = .vote r → r < s.cfg.knnK →
    (∀ c : ClassIdx, (getAt s.cls.kbest c)[getAt s.cls.ptr c]? = some (head c)) →
    ∃ (b : ClassIdx) (p : ClsPhase) (ptr cnt score : PerClass Nat),
      (∀ c : ClassIdx, (head b).toNat ≤ (head c).toNat) ∧ (∀ c : ClassIdx, c < b → (head b).toNat < (head c).toNat) ∧
      (r + 1 < s.cfg.knnK → p = .vote (r + 1)) ∧ (r + 1 = s.cfg.knnK → p = .decide) ∧
      (∀ c : ClassIdx, getAt ptr c = if c = b then getAt s.cls.ptr c + 1 else getAt s.cls.ptr c) ∧
      (∀ c : ClassIdx, getAt cnt c = if c = b then getAt s.cls.cnt c + 1 else getAt s.cls.cnt c) ∧
      (∀ c : ClassIdx,
        getAt score c = if c = b then getAt s.cls.score c + (s.cfg.knnK - r) else getAt s.cls.score c) ∧
      takeTurn (.unit .cls g) s =
        .next { s with cls := { s.cls with ptr := ptr, cnt := cnt, score := score, phase := p } }

/-- R184: the decision is the largest count, then the largest score, then the lowest class index. -/
def Obligations.DecisionOrder : Prop :=
  ∀ (s : State) (g : Grain), s.cls.phase = .decide →
    ∃ b : ClassIdx,
      (∀ c : ClassIdx, getAt s.cls.cnt c < getAt s.cls.cnt b ∨
        (getAt s.cls.cnt c = getAt s.cls.cnt b ∧ getAt s.cls.score c ≤ getAt s.cls.score b)) ∧
      (∀ c : ClassIdx, c < b → getAt s.cls.cnt c < getAt s.cls.cnt b ∨
        (getAt s.cls.cnt c = getAt s.cls.cnt b ∧ getAt s.cls.score c < getAt s.cls.score b)) ∧
      takeTurn (.unit .cls g) s =
        .next { s with cls := { s.cls with result := BitVec.ofNat 4 b.val, phase := .emit } }

/-- R185: EMIT pushes the class and returns to IDLE, or holds while `cls.out` is full. -/
def Obligations.ClsEmitsResponse : Prop :=
  ∀ (s : State) (g : Grain), s.cls.phase = .emit →
    (s.cfg.outDepth ≤ s.clsOut.length → takeTurn (.unit .cls g) s = .next s) ∧
    (s.clsOut.length < s.cfg.outDepth →
      takeTurn (.unit .cls g) s =
        .next { s with
          clsOut := s.clsOut ++ [BitVec.ofNat 32 s.cls.result.toNat], cls := { s.cls with phase := .idle } })

/-- R3, R180, R182, R183: over ascending arrays the KNN_K rounds give each class the number of its neighbours among the KNN_K
globally nearest, and the sum of their weights; no round reads past an array. -/
def Obligations.VoteCountsNearestNeighbours : Prop :=
  ∀ (s : State) (kb : ClassIdx → List Nat),
    1 ≤ s.cfg.knnK →
    (∀ c : ClassIdx, (getAt s.cls.kbest c).length = s.cfg.knnK ∧ Ascending (getAt s.cls.kbest c)) →
    (∀ c : ClassIdx, kb c = (getAt s.cls.kbest c).map (·.toNat)) →
    (∀ c : ClassIdx, getAt s.cls.ptr c = 0 ∧ getAt s.cls.cnt c = 0 ∧ getAt s.cls.score c = 0) →
    forEach clsVote (List.range s.cfg.knnK) s =
      .next { s with
        cls := { s.cls with
          ptr := Vector.ofFn (Functions.countOf (Functions.nearest s.cfg.knnK kb))
          cnt := Vector.ofFn (Functions.countOf (Functions.nearest s.cfg.knnK kb))
          score := Vector.ofFn (Functions.scoreOf s.cfg.knnK (Functions.nearest s.cfg.knnK kb))
          phase := .decide } }

/-- R150, R186: a well-formed CLASSIFY against a non-empty training set completes with its function's class, and its k-best
arrays and tallies are those of the KNN_K globally nearest instances; it changes nothing else. -/
def Obligations.ClassifyComputesItsFunction : Prop :=
  ∀ (s : State) (v : Word64) (q : Bitmap),
    s.cfg.wf = true → s.cfg.trainN ≠ 0 → v.extractLsb' 49 15 = 0 → q = v.extractLsb' 0 49 →
    exec (.classify v) s =
      .next { s with
        cls := { s.cls with
          query := q
          kbest := Vector.ofFn fun c => (Functions.kbest s.cfg q c).map (BitVec.ofNat 6)
          ptr := Vector.ofFn (Functions.countOf (Functions.neighbours s.cfg q))
          cnt := Vector.ofFn (Functions.countOf (Functions.neighbours s.cfg q))
          score := Vector.ofFn (Functions.scoreOf s.cfg.knnK (Functions.neighbours s.cfg q))
          result := BitVec.ofNat 4 (Functions.classOf s.cfg q).val
          phase := .emit } }

/-- R150: a well-formed CLASSIFY against a non-empty training set completes with a class 0..9 to emit, and changes CLS's
registers alone, its first word and its cause not among them. -/
def Obligations.ClassifyCompletes : Prop :=
  ∀ (s : State) (v : Word64),
    s.cfg.wf = true → s.cfg.trainN ≠ 0 → v.extractLsb' 49 15 = 0 →
    ∃ (kbest : PerClass (List Dist)) (ptr cnt score : PerClass Nat) (result : BitVec 4),
      result.toNat < 10 ∧
      exec (.classify v) s =
        .next { s with
          cls := { s.cls with
            query := v.extractLsb' 0 49, kbest := kbest, ptr := ptr, cnt := cnt, score := score, result := result
            phase := .emit } }

/-- R202, R203, R206, R207: CLASSIFY takes DegenerateModel on an empty training set, else InvalidInput on a malformed request;
either writes the cause and the phase and nothing else. -/
def Obligations.ClassifyFaults : Prop :=
  ∀ (s : State) (v : Word64),
    (s.cfg.trainN = 0 →
      exec (.classify v) s = .next { s with cls := { s.cls with cause := .degenerateModel, phase := .fault } }) ∧
    (s.cfg.trainN ≠ 0 → v.extractLsb' 49 15 ≠ 0 →
      exec (.classify v) s = .next { s with cls := { s.cls with cause := .invalidInput, phase := .fault } })

/-- R104, R107, R202, R203, R206, R78: a malformed request that is fetched whole from `cls.in` faults as CHECK does. That one
turn takes the word and runs CHECK is the model's choice of grain (log 4). -/
def Obligations.MalformedRequestFaultsWhenFetched : Prop :=
  ∀ (s : State) (w : Word32) (ws : List Word32),
    s.cls.phase = .haveLo → s.clsIn = w :: ws → (w ++ s.cls.lo).extractLsb' 49 15 ≠ (0 : BitVec 15) →
    (s.cfg.trainN ≠ 0 →
      takeTurn (.unit .cls .whole) s =
        .next { s with clsIn := ws, cls := { s.cls with cause := .invalidInput, phase := .fault } }) ∧
    (s.cfg.trainN = 0 →
      takeTurn (.unit .cls .whole) s =
        .next { s with clsIn := ws, cls := { s.cls with cause := .degenerateModel, phase := .fault } })

/-- R187: after a classification the counts sum to KNN_K, the scores to KNN_K·(KNN_K+1)/2, and the result is a class that won
a round. -/
def Obligations.VoteBounds : Prop :=
  ∀ (s t : State) (v : Word64),
    s.cfg.wf = true → exec (.classify v) s = .next t → t.cls.phase = .emit →
    total t.cls.cnt = s.cfg.knnK ∧ total t.cls.score = s.cfg.knnK * (s.cfg.knnK + 1) / 2 ∧
    (∀ c : ClassIdx,
      getAt t.cls.cnt c ≤ s.cfg.knnK ∧ getAt t.cls.score c ≤ s.cfg.knnK * (s.cfg.knnK + 1) / 2) ∧
    ∃ b : ClassIdx, t.cls.result = BitVec.ofNat 4 b.val ∧ 1 ≤ getAt t.cls.cnt b

/-- R188: with KNN_K = 1 the result is the class owning the globally smallest distance, the lowest class on ties. -/
def Obligations.OneNearestNeighbour : Prop :=
  ∀ (s : State) (v : Word64),
    s.cfg.wf = true → s.cfg.knnK = 1 → s.cfg.trainN ≠ 0 → v.extractLsb' 49 15 = 0 →
    ∃ (t : State) (b : ClassIdx) (d : Nat),
      exec (.classify v) s = .next t ∧ t.cls.phase = .emit ∧ t.cls.result = BitVec.ofNat 4 b.val ∧
      d ∈ Functions.distances s.cfg (v.extractLsb' 0 49) b ∧
      ∀ (c : ClassIdx) (e : Nat), e ∈ Functions.distances s.cfg (v.extractLsb' 0 49) c →
        d ≤ e ∧ (c < b → d < e)

/-- R78, R83, R106, R150: a CLASSIFY from IDLE with room for its response takes its two words and answers with one word, its
function's class. -/
def Obligations.ClassifyTransaction : Prop :=
  ∀ (s : State) (w0 w1 : Word32) (rest : List Word32) (ts : List Turn),
    s.cfg.wf = true → s.cfg.trainN ≠ 0 → (w1 ++ w0).extractLsb' 49 15 = (0 : BitVec 15) →
    s.cls.phase = .idle → s.clsIn = w0 :: w1 :: rest → s.clsOut.length + 1 ≤ s.cfg.outDepth →
    s.turns = List.replicate 3 (.unit .cls .whole) ++ ts →
    ∃ cls : ClsRegs, cls.phase = .idle ∧ cls.cause = s.cls.cause ∧ cls.lo = w0 ∧
      Host.Core.run core 3 s =
        .next { s with
          cls := cls
          clsIn := rest
          clsOut := s.clsOut ++
            [BitVec.ofNat 32 (Functions.classOf s.cfg ((w1 ++ w0).extractLsb' 0 49)).val]
          turns := ts
          tick := s.tick + 3 }

/-- R78, R36: the phases of CLS from HAVE_LO to DECIDE leave what the whole step leaves. -/
def Obligations.ClsPhasesEqualWhole : Prop :=
  ∀ (s : State) (ts : List Turn), s.cfg.wf = true → s.cls.phase = .haveLo →
    Host.Core.run core (4 + 10 * s.cfg.trainN + s.cfg.knnK)
        { s with turns := List.replicate (4 + 10 * s.cfg.trainN + s.cfg.knnK) (.unit .cls .phase) ++ ts } =
      Host.Core.run core 1
        { s with turns := .unit .cls .whole :: ts, tick := s.tick + 3 + 10 * s.cfg.trainN + s.cfg.knnK }

/-! ### Frames and faults -/

/-- What an instruction leaves unchanged: ROTATE writes theta, cos, sin, i, cause and phase of ROT; CLASSIFY writes registers of CLS
other than its first word; all else is as before. -/
def Obligations.InstructionFrames : Prop :=
  ∀ (s t : State) (v : Word64),
    (exec (.rotate v) s = .next t →
      t = { s with
        rot := { s.rot with
          theta := t.rot.theta, cos := t.rot.cos, sin := t.rot.sin, i := t.rot.i, cause := t.rot.cause
          phase := t.rot.phase } } ∧
      ((t.rot.phase = .emit 0 ∧ t.rot.cause = s.rot.cause) ∨
        (t.rot.phase = .fault ∧ t.rot.cause = .arithOverflow))) ∧
    (exec (.classify v) s = .next t →
      t = { s with cls := { t.cls with lo := s.cls.lo } } ∧
      ((t.cls.phase = .emit ∧ t.cls.cause = s.cls.cause) ∨
        (t.cls.phase = .fault ∧ (t.cls.cause = .invalidInput ∨ t.cls.cause = .degenerateModel))))

/-- R208: a unit in FAULT takes no word, pushes none and keeps its cause; only a reset that names it leaves FAULT. -/
def Obligations.FaultIsStickyUntilReset : Prop :=
  ∀ (s t : State) (u : UnitId) (turn : Turn),
    s.faulted u = true →
    (∀ g : Grain, takeTurn (.unit u g) s = .next s) ∧
    (takeTurn turn s = .next t →
      (t.faulted u = true ∧ t.cause u = s.cause u) ∨
      ∃ (target : ResetTarget) (rest : List HostAction),
        turn = .host ∧ s.host.todo = .reset target :: rest ∧ (target = .unit u ∨ target = .all))

/-- R208: while a unit is in FAULT the host still pushes to it, pops from it and reads its STATUS. -/
def Obligations.HostServesFaultedUnit : Prop :=
  ∀ (s : State) (u : UnitId) (rest : List HostAction),
    s.faulted u = true →
    (∀ w : Word32, s.host.todo = .push u w :: rest → (s.inFifo u).length < s.cfg.inDepth →
      ∃ t : State, takeTurn .host s = .next t ∧ t.inFifo u = s.inFifo u ++ [w] ∧ t.host.todo = rest) ∧
    (∀ (dst : Nat) (w : Word32) (ws : List Word32), s.host.todo = .pop u dst :: rest → s.outFifo u = w :: ws →
      ∃ t : State, takeTurn .host s = .next t ∧ t.outFifo u = ws ∧
        t.host.seen = s.host.seen ++ [.popped u dst w]) ∧
    (∀ dst : Nat, s.host.todo = .status u dst :: rest →
      ∃ t : State, takeTurn .host s = .next t ∧
        t.host.seen = s.host.seen ++ [.status u dst (BitVec.ofNat 32 (causeCode (s.cause u)).toNat)])

/-- R209, R214, R18: a unit's turn leaves the other unit, its ports, the configuration and the host as they were. -/
def Obligations.UnitsShareNoState : Prop :=
  ∀ (s t : State) (g : Grain),
    (takeTurn (.unit .rot g) s = .next t →
      t = { s with rot := t.rot, rotIn := t.rotIn, rotOut := t.rotOut }) ∧
    (takeTurn (.unit .cls g) s = .next t →
      t = { s with cls := t.cls, clsIn := t.clsIn, clsOut := t.clsOut })

/-- R83, R209: turns of the two units commute. -/
def Obligations.UnitTurnsCommute : Prop :=
  ∀ (s s₁ s₂ : State) (g g' : Grain),
    takeTurn (.unit .rot g) s = .next s₁ → takeTurn (.unit .cls g') s₁ = .next s₂ →
    ∃ s₃ : State, takeTurn (.unit .cls g') s = .next s₃ ∧ takeTurn (.unit .rot g) s₃ = .next s₂

/-! ### Ports, STATUS, reset and the host -/

/-- R76: a push appends when `u.in` has room and holds when it is full. -/
def Obligations.HostPushes : Prop :=
  ∀ (s : State) (u : UnitId) (w : Word32) (rest : List HostAction), s.host.todo = .push u w :: rest →
    (s.cfg.inDepth ≤ (s.inFifo u).length → takeTurn .host s = .next s) ∧
    ((s.inFifo u).length < s.cfg.inDepth →
      takeTurn .host s =
        .next { s with
          rotIn := if u = .rot then s.rotIn ++ [w] else s.rotIn
          clsIn := if u = .cls then s.clsIn ++ [w] else s.clsIn
          host := { todo := rest, seen := s.host.seen } })

/-- R77: a pop removes the oldest word of `u.out` and holds when it is empty. -/
def Obligations.HostPops : Prop :=
  ∀ (s : State) (u : UnitId) (dst : Nat) (rest : List HostAction), s.host.todo = .pop u dst :: rest →
    (s.outFifo u = [] → takeTurn .host s = .next s) ∧
    ∀ (w : Word32) (ws : List Word32), s.outFifo u = w :: ws →
      takeTurn .host s =
        .next { s with
          rotOut := if u = .rot then ws else s.rotOut
          clsOut := if u = .cls then ws else s.clsOut
          host := { todo := rest, seen := s.host.seen ++ [.popped u dst w] } }

/-- R52, R201: STATUS[1:0] is the cause's code, STATUS[31:2] is 0, and the read has no side effect; under the invariant it is
non-zero exactly in FAULT. -/
def Obligations.StatusWordShowsCause : Prop :=
  ∀ (s : State) (u : UnitId),
    (statusWord u s).extractLsb' 2 30 = (0 : BitVec 30) ∧
    ((statusWord u s).toNat = 0 ↔ s.cause u = .none) ∧
    ((statusWord u s).toNat = 1 ↔ s.cause u = .invalidInput) ∧
    ((statusWord u s).toNat = 2 ↔ s.cause u = .degenerateModel) ∧
    ((statusWord u s).toNat = 3 ↔ s.cause u = .arithOverflow) ∧
    (Invariant s → (statusWord u s ≠ 0 ↔ s.faulted u = true)) ∧
    ∀ (dst : Nat) (rest : List HostAction), s.host.todo = .status u dst :: rest →
      takeTurn .host s =
        .next { s with host := { todo := rest, seen := s.host.seen ++ [.status u dst (statusWord u s)] } }

/-- R230 to R232: a reset, in any phase, sends the units it names to IDLE with cause 0 and empty FIFOs, and leaves the
configuration and a unit it does not name as they were. What the registers hold after it is not stated (log 2). -/
def Obligations.ResetActsOnNamedUnits : Prop :=
  ∀ (s : State) (target : ResetTarget) (rest : List HostAction), s.host.todo = .reset target :: rest →
    ∃ t : State, takeTurn .host s = .next t ∧ t.cfg = s.cfg ∧ t.host = { todo := rest, seen := s.host.seen } ∧
      (target = .unit .rot ∨ target = .all →
        t.rot.phase = .idle ∧ t.rot.cause = .none ∧ t.rotIn = [] ∧ t.rotOut = []) ∧
      (target = .unit .cls ∨ target = .all →
        t.cls.phase = .idle ∧ t.cls.cause = .none ∧ t.clsIn = [] ∧ t.clsOut = []) ∧
      (target = .unit .cls → t.rot = s.rot ∧ t.rotIn = s.rotIn ∧ t.rotOut = s.rotOut) ∧
      (target = .unit .rot → t.cls = s.cls ∧ t.clsIn = s.clsIn ∧ t.clsOut = s.clsOut)

/-- R233: power-on, with any well-formed configuration, meets the launch premises, and so does any state after RESET all. -/
def Obligations.PowerOnIsLaunchState : Prop :=
  ∀ s : State, s.cfg.wf = true → Launch (State.powerOn s.cfg) ∧ Launch (resetTarget .all s)

/-- R36: what the host sees of its turn depends only on its own actions, the words waiting in the output FIFOs,
the fill of the input FIFOs and the causes. -/
def Obligations.HostSeesPortsAndStatusOnly : Prop :=
  ∀ s s' t : State,
    s.host = s'.host → s.cfg = s'.cfg → s.rotOut = s'.rotOut → s.clsOut = s'.clsOut →
    s.rotIn.length = s'.rotIn.length → s.clsIn.length = s'.clsIn.length →
    s.rot.cause = s'.rot.cause → s.cls.cause = s'.cls.cause →
    takeTurn .host s = .next t →
    ∃ t' : State, takeTurn .host s' = .next t' ∧ t'.host = t.host ∧ t'.rotOut = t.rotOut ∧ t'.clsOut = t.clsOut ∧
      t'.rotIn.length = t.rotIn.length ∧ t'.clsIn.length = t.clsIn.length ∧
      t'.rot.cause = t.rot.cause ∧ t'.cls.cause = t.cls.cause

/-- R247: a host that pushes to a full port of a unit holding on its full response port is stuck with it. R241, R246: with no host
action left, a unit that holds in HAVE_LO or in EMIT is stuck, whatever the other unit does. A stuck state ends no run. -/
def Obligations.BackPressureDeadlock : Prop :=
  (∀ (s : State) (u : UnitId) (w : Word32) (rest : List HostAction),
    (u = .rot → ∃ k : Fin 4, s.rot.phase = .emit k) → (u = .cls → s.cls.phase = .emit) →
    s.cfg.outDepth ≤ (s.outFifo u).length → s.cfg.inDepth ≤ (s.inFifo u).length →
    s.host.todo = .push u w :: rest →
    Stuck s ∧ ∀ turn : Turn, turn = .host ∨ (∃ g : Grain, turn = .unit u g) → takeTurn turn s = .next s) ∧
  (∀ (s : State) (u : UnitId), s.host.todo = [] → s.heldInTransaction u = true →
    Stuck s ∧ ∀ turn : Turn, turn = .host ∨ (∃ g : Grain, turn = .unit u g) → takeTurn turn s = .next s) ∧
  ∀ (σ : Nat → State) (n : Nat), Stuck (σ n) → ¬EndOfRun σ n

/-- R83, R79: a turn takes at most one word from the front of each FIFO or appends at most one at its end, or a reset empties
it. -/
def Obligations.FifosKeepOrder : Prop :=
  ∀ (s t : State) (turn : Turn) (u : UnitId), takeTurn turn s = .next t →
    (t.inFifo u = s.inFifo u ∨ (∃ w, t.inFifo u = s.inFifo u ++ [w]) ∨ (∃ w, s.inFifo u = w :: t.inFifo u) ∨
      ∃ target rest, turn = .host ∧ s.host.todo = .reset target :: rest ∧ t.inFifo u = []) ∧
    (t.outFifo u = s.outFifo u ∨ (∃ w, t.outFifo u = s.outFifo u ++ [w]) ∨ (∃ w, s.outFifo u = w :: t.outFifo u) ∨
      ∃ target rest, turn = .host ∧ s.host.todo = .reset target :: rest ∧ t.outFifo u = [])

/-! ### The whole machine -/

/-- R72, R30, R240: no step writes a ROM or any other part of the configuration (log 14). -/
def Obligations.ConfigurationNeverChanges : Prop :=
  ∀ s t : State, step s = .next t → t.cfg = s.cfg

/-- The edges of R33, over the phase and `rot.i`. Only the sequencer of ITER writes `rot.i`. -/
inductive RotPhaseEdge : RotPhase × Fin 20 → RotPhase × Fin 20 → Prop
  | firstWord (i : Fin 20) : RotPhaseEdge (.idle, i) (.haveLo, i)
  | secondWord (i : Fin 20) : RotPhaseEdge (.haveLo, i) (.iter, 0)
  | nextIter (i j : Fin 20) : j.val = i.val + 1 → RotPhaseEdge (.iter, i) (.iter, j)
  | lastIter (i : Fin 20) : i.val = 19 → RotPhaseEdge (.iter, i) (.emit 0, i)
  | nextEmit (i : Fin 20) (k l : Fin 4) : l.val = k.val + 1 → RotPhaseEdge (.emit k, i) (.emit l, i)
  | lastEmit (i : Fin 20) (k : Fin 4) : k.val = 3 → RotPhaseEdge (.emit k, i) (.idle, i)
  | fault (i : Fin 20) (p : RotPhase) : RotPhaseEdge (p, i) (.fault, i)

/-- R33: ROT's phase and `rot.i` advance only along R33's edges, one at a time, and the phase goes to IDLE on a reset that names
ROT. That `rot.i` stays on the edges that R33 does not give it a value on is log 6. -/
def Obligations.RotPhaseAdvances : Prop :=
  ∀ s t : State,
    (takeTurn (.unit .rot .phase) s = .next t →
      (t.rot.phase, t.rot.i) = (s.rot.phase, s.rot.i) ∨
        RotPhaseEdge (s.rot.phase, s.rot.i) (t.rot.phase, t.rot.i)) ∧
    (∀ g : Grain, takeTurn (.unit .cls g) s = .next t → (t.rot.phase, t.rot.i) = (s.rot.phase, s.rot.i)) ∧
    (takeTurn .host s = .next t →
      (t.rot.phase, t.rot.i) = (s.rot.phase, s.rot.i) ∨
        (t.rot.phase = .idle ∧
          ∃ target rest, s.host.todo = .reset target :: rest ∧ (target = .unit .rot ∨ target = .all)))

/-- The edges of R37, for the parameters n = TRAIN_N and k = KNN_K. -/
inductive ClsPhaseEdge (n k : Nat) : ClsPhase → ClsPhase → Prop
  | firstWord : ClsPhaseEdge n k .idle .haveLo
  | secondWord (v : Word64) : ClsPhaseEdge n k .haveLo (.check v)
  | accept (v : Word64) : ClsPhaseEdge n k (.check v) .init
  | reject (v : Word64) : ClsPhaseEdge n k (.check v) .fault
  | start : ClsPhaseEdge n k .init (.update 0 0)
  | nextInstance (c : ClassIdx) (t : Nat) : t + 1 < n → ClsPhaseEdge n k (.update c t) (.update c (t + 1))
  | nextClass (c d : ClassIdx) (t : Nat) : t + 1 = n → d.val = c.val + 1 → ClsPhaseEdge n k (.update c t) (.update d 0)
  | lastClass (c : ClassIdx) (t : Nat) : t + 1 = n → c.val = 9 → ClsPhaseEdge n k (.update c t) (.vote 0)
  | nextRound (r : Nat) : r + 1 < k → ClsPhaseEdge n k (.vote r) (.vote (r + 1))
  | lastRound (r : Nat) : r + 1 = k → ClsPhaseEdge n k (.vote r) .decide
  | decided : ClsPhaseEdge n k .decide .emit
  | emitted : ClsPhaseEdge n k .emit .idle

/-- R37: CLS's phase advances only along R37's edges, one at a time, and goes to IDLE on a reset that names CLS. The invariant
rules out counters out of range. -/
def Obligations.ClsPhaseAdvances : Prop :=
  ∀ s t : State, Invariant s →
    (takeTurn (.unit .cls .phase) s = .next t →
      t.cls.phase = s.cls.phase ∨ ClsPhaseEdge s.cfg.trainN s.cfg.knnK s.cls.phase t.cls.phase) ∧
    (∀ g : Grain, takeTurn (.unit .rot g) s = .next t → t.cls.phase = s.cls.phase) ∧
    (takeTurn .host s = .next t → t.cls.phase = s.cls.phase ∨
      (t.cls.phase = .idle ∧
        ∃ target rest, s.host.todo = .reset target :: rest ∧ (target = .unit .cls ∨ target = .all)))

/-- How many of ROT's phases are left in a transaction. -/
def rotPhasesLeft (r : RotRegs) : Nat :=
  match r.phase with
  | .idle => 0
  | .haveLo => 25
  | .iter => 24 - r.i.val
  | .emit k => 4 - k.val
  | .fault => 0

/-- How many of CLS's phases are left in a transaction, at most. -/
def clsPhasesLeft (cfg : Cfg) : ClsPhase → Nat
  | .idle => 0
  | .haveLo => 10 * cfg.trainN + cfg.knnK + 5
  | .check _ => 10 * cfg.trainN + cfg.knnK + 4
  | .init => 10 * cfg.trainN + cfg.knnK + 3
  | .update c t => (10 - c.val) * cfg.trainN - t + cfg.knnK + 2
  | .vote r => cfg.knnK - r + 2
  | .decide => 2
  | .emit => 1
  | .fault => 0

/-- R251: from the invariant, a unit in a transaction whose port does not make it hold goes on to IDLE or FAULT within a bounded
number of its turns: each turn leaves fewer phases to do. In a run that is weakly fair to the unit, a transaction whose ports
do not hold ends in IDLE or FAULT. Fairness is a premise (log 3). -/
def Obligations.TransactionsFinish : Prop :=
  (∀ (s : State) (g : Grain), Invariant s →
    (s.rot.phase ≠ .idle → s.rot.phase ≠ .fault → (s.rot.phase = .haveLo → s.rotIn ≠ []) →
      ((∃ k : Fin 4, s.rot.phase = .emit k) → s.rotOut.length < s.cfg.outDepth) →
      ∃ t : State, takeTurn (.unit .rot g) s = .next t ∧ rotPhasesLeft t.rot < rotPhasesLeft s.rot ∧
        (rotPhasesLeft t.rot = 0 → t.rot.phase = .idle ∨ t.rot.phase = .fault)) ∧
    (s.cls.phase ≠ .idle → s.cls.phase ≠ .fault → (s.cls.phase = .haveLo → s.clsIn ≠ []) →
      (s.cls.phase = .emit → s.clsOut.length < s.cfg.outDepth) →
      ∃ t : State, takeTurn (.unit .cls g) s = .next t ∧
        clsPhasesLeft s.cfg t.cls.phase < clsPhasesLeft s.cfg s.cls.phase ∧
        (clsPhasesLeft s.cfg t.cls.phase = 0 → t.cls.phase = .idle ∨ t.cls.phase = .fault))) ∧
  ∀ (σ : Nat → State) (u : UnitId), IsRun σ → WeaklyFair u σ → Invariant (σ 0) →
    ∀ n : Nat, (∀ m : Nat, n ≤ m → (σ m).inTransaction u = true → (σ m).enabled u = true) →
      ∃ m : Nat, n ≤ m ∧ ((σ m).idle u = true ∨ (σ m).faulted u = true)

/-- The invariant holds at power-on with every well-formed configuration, and at the model's reset state. The model's choice: what
the unspecified registers hold (log 2) and the OPEN parameters of the reset state (log 1). -/
def Obligations.ResetMeetsInvariant : Prop :=
  Invariant State.reset ∧ ∀ cfg : Cfg, cfg.wf = true → Invariant (State.powerOn cfg)

/-- Every step from a state that meets the invariant leads to one that meets it. -/
def Obligations.StepKeepsInvariant : Prop :=
  ∀ s t : State, Invariant s → step s = .next t → Invariant t

/-- R71, R183, R205: from a state that meets the invariant a step always answers a next state: no ROM index and no vote pointer
is out of range, and nothing is refused. -/
def Obligations.InvariantStatesNeverStop : Prop :=
  ∀ s : State, Invariant s → ∃ t : State, step s = .next t
end

