-- ==== Sys2Proof/Laws/State.lean ====
section
/-! SUPPORT. What each update of the state does to each field, so that no later proof unfolds an update. -/

namespace Sys2Proof.Machine

/-! `setIn` writes one input FIFO. -/
@[simp] theorem State.setIn_cfg (s : State) (u : UnitId) (ws : List Word32) : (s.setIn u ws).cfg = s.cfg := by cases u <;> rfl
@[simp] theorem State.setIn_rot (s : State) (u : UnitId) (ws : List Word32) : (s.setIn u ws).rot = s.rot := by cases u <;> rfl
@[simp] theorem State.setIn_cls (s : State) (u : UnitId) (ws : List Word32) : (s.setIn u ws).cls = s.cls := by cases u <;> rfl
@[simp] theorem State.setIn_rotOut (s : State) (u : UnitId) (ws : List Word32) : (s.setIn u ws).rotOut = s.rotOut := by cases u <;> rfl
@[simp] theorem State.setIn_clsOut (s : State) (u : UnitId) (ws : List Word32) : (s.setIn u ws).clsOut = s.clsOut := by cases u <;> rfl
@[simp] theorem State.setIn_host (s : State) (u : UnitId) (ws : List Word32) : (s.setIn u ws).host = s.host := by cases u <;> rfl
@[simp] theorem State.setIn_turns (s : State) (u : UnitId) (ws : List Word32) : (s.setIn u ws).turns = s.turns := by cases u <;> rfl
@[simp] theorem State.setIn_tick (s : State) (u : UnitId) (ws : List Word32) : (s.setIn u ws).tick = s.tick := by cases u <;> rfl
@[simp] theorem State.setIn_inFifo (s : State) (u : UnitId) (ws : List Word32) : (s.setIn u ws).inFifo u = ws := by cases u <;> rfl
@[simp] theorem State.setIn_outFifo (s : State) (u v : UnitId) (ws : List Word32) : (s.setIn u ws).outFifo v = s.outFifo v := by cases u <;> cases v <;> rfl
@[simp] theorem State.setIn_rot_eq (s : State) (ws : List Word32) : s.setIn .rot ws = { s with rotIn := ws } := rfl
@[simp] theorem State.setIn_cls_eq (s : State) (ws : List Word32) : s.setIn .cls ws = { s with clsIn := ws } := rfl

/-! `setOut` writes one output FIFO. -/
@[simp] theorem State.setOut_cfg (s : State) (u : UnitId) (ws : List Word32) : (s.setOut u ws).cfg = s.cfg := by cases u <;> rfl
@[simp] theorem State.setOut_rot (s : State) (u : UnitId) (ws : List Word32) : (s.setOut u ws).rot = s.rot := by cases u <;> rfl
@[simp] theorem State.setOut_cls (s : State) (u : UnitId) (ws : List Word32) : (s.setOut u ws).cls = s.cls := by cases u <;> rfl
@[simp] theorem State.setOut_rotIn (s : State) (u : UnitId) (ws : List Word32) : (s.setOut u ws).rotIn = s.rotIn := by cases u <;> rfl
@[simp] theorem State.setOut_clsIn (s : State) (u : UnitId) (ws : List Word32) : (s.setOut u ws).clsIn = s.clsIn := by cases u <;> rfl
@[simp] theorem State.setOut_host (s : State) (u : UnitId) (ws : List Word32) : (s.setOut u ws).host = s.host := by cases u <;> rfl
@[simp] theorem State.setOut_turns (s : State) (u : UnitId) (ws : List Word32) : (s.setOut u ws).turns = s.turns := by cases u <;> rfl
@[simp] theorem State.setOut_tick (s : State) (u : UnitId) (ws : List Word32) : (s.setOut u ws).tick = s.tick := by cases u <;> rfl
@[simp] theorem State.setOut_outFifo (s : State) (u : UnitId) (ws : List Word32) : (s.setOut u ws).outFifo u = ws := by cases u <;> rfl
@[simp] theorem State.setOut_inFifo (s : State) (u v : UnitId) (ws : List Word32) : (s.setOut u ws).inFifo v = s.inFifo v := by cases u <;> cases v <;> rfl

/-! Taking a fault writes a cause and a phase (60_exceptions R206). -/
@[simp] theorem raiseFault_cfg (u : UnitId) (c : Cause) (s : State) : (raiseFault u c s).cfg = s.cfg := by cases u <;> rfl
@[simp] theorem raiseFault_rotIn (u : UnitId) (c : Cause) (s : State) : (raiseFault u c s).rotIn = s.rotIn := by cases u <;> rfl
@[simp] theorem raiseFault_rotOut (u : UnitId) (c : Cause) (s : State) : (raiseFault u c s).rotOut = s.rotOut := by cases u <;> rfl
@[simp] theorem raiseFault_clsIn (u : UnitId) (c : Cause) (s : State) : (raiseFault u c s).clsIn = s.clsIn := by cases u <;> rfl
@[simp] theorem raiseFault_clsOut (u : UnitId) (c : Cause) (s : State) : (raiseFault u c s).clsOut = s.clsOut := by cases u <;> rfl
@[simp] theorem raiseFault_host (u : UnitId) (c : Cause) (s : State) : (raiseFault u c s).host = s.host := by cases u <;> rfl
@[simp] theorem raiseFault_turns (u : UnitId) (c : Cause) (s : State) : (raiseFault u c s).turns = s.turns := by cases u <;> rfl
@[simp] theorem raiseFault_tick (u : UnitId) (c : Cause) (s : State) : (raiseFault u c s).tick = s.tick := by cases u <;> rfl
@[simp] theorem raiseFault_cause (u : UnitId) (c : Cause) (s : State) : (raiseFault u c s).cause u = c := by cases u <;> rfl
@[simp] theorem raiseFault_faulted (u : UnitId) (c : Cause) (s : State) : (raiseFault u c s).faulted u = true := by cases u <;> rfl
@[simp] theorem raiseFault_rot_cls (c : Cause) (s : State) : (raiseFault .rot c s).cls = s.cls := rfl
@[simp] theorem raiseFault_cls_rot (c : Cause) (s : State) : (raiseFault .cls c s).rot = s.rot := rfl
@[simp] theorem raiseFault_rot_rot (c : Cause) (s : State) : (raiseFault .rot c s).rot = { s.rot with cause := c, phase := .fault } := rfl
@[simp] theorem raiseFault_cls_cls (c : Cause) (s : State) : (raiseFault .cls c s).cls = { s.cls with cause := c, phase := .fault } := rfl

/-! Reset of a unit (70_reset_and_hazards R231). -/
@[simp] theorem resetUnit_cfg (u : UnitId) (s : State) : (resetUnit u s).cfg = s.cfg := by cases u <;> rfl
@[simp] theorem resetUnit_host (u : UnitId) (s : State) : (resetUnit u s).host = s.host := by cases u <;> rfl
@[simp] theorem resetUnit_turns (u : UnitId) (s : State) : (resetUnit u s).turns = s.turns := by cases u <;> rfl
@[simp] theorem resetUnit_tick (u : UnitId) (s : State) : (resetUnit u s).tick = s.tick := by cases u <;> rfl
@[simp] theorem resetUnit_inFifo (u : UnitId) (s : State) : (resetUnit u s).inFifo u = [] := by cases u <;> rfl
@[simp] theorem resetUnit_outFifo (u : UnitId) (s : State) : (resetUnit u s).outFifo u = [] := by cases u <;> rfl
@[simp] theorem resetUnit_cause (u : UnitId) (s : State) : (resetUnit u s).cause u = .none := by cases u <;> rfl
@[simp] theorem resetUnit_faulted (u : UnitId) (s : State) : (resetUnit u s).faulted u = false := by cases u <;> rfl
@[simp] theorem resetUnit_rot_cls (s : State) : (resetUnit .rot s).cls = s.cls := rfl
@[simp] theorem resetUnit_cls_rot (s : State) : (resetUnit .cls s).rot = s.rot := rfl
@[simp] theorem resetTarget_cfg (t : ResetTarget) (s : State) : (resetTarget t s).cfg = s.cfg := by cases t <;> simp [resetTarget]
@[simp] theorem resetTarget_host (t : ResetTarget) (s : State) : (resetTarget t s).host = s.host := by cases t <;> simp [resetTarget]

/-! The angle load writes ROT's registers (40_cordic R122, R123). -/
@[simp] theorem rotLoad_cfg (v : Word64) (s : State) : (rotLoad v s).cfg = s.cfg := rfl
@[simp] theorem rotLoad_cls (v : Word64) (s : State) : (rotLoad v s).cls = s.cls := rfl
@[simp] theorem rotLoad_rotIn (v : Word64) (s : State) : (rotLoad v s).rotIn = s.rotIn := rfl
@[simp] theorem rotLoad_rotOut (v : Word64) (s : State) : (rotLoad v s).rotOut = s.rotOut := rfl
@[simp] theorem rotLoad_clsIn (v : Word64) (s : State) : (rotLoad v s).clsIn = s.clsIn := rfl
@[simp] theorem rotLoad_clsOut (v : Word64) (s : State) : (rotLoad v s).clsOut = s.clsOut := rfl
@[simp] theorem rotLoad_host (v : Word64) (s : State) : (rotLoad v s).host = s.host := rfl
@[simp] theorem rotLoad_turns (v : Word64) (s : State) : (rotLoad v s).turns = s.turns := rfl
@[simp] theorem rotLoad_tick (v : Word64) (s : State) : (rotLoad v s).tick = s.tick := rfl
@[simp] theorem rotLoad_rot (v : Word64) (s : State) : (rotLoad v s).rot = { s.rot with theta := v, cos := s.cfg.kgain, sin := 0, i := 0, phase := .iter } := rfl

/-! INIT writes CLS's registers (41_knn_update R153). -/
@[simp] theorem clsInit_cfg (s : State) : (clsInit s).cfg = s.cfg := rfl
@[simp] theorem clsInit_rot (s : State) : (clsInit s).rot = s.rot := rfl
@[simp] theorem clsInit_rotIn (s : State) : (clsInit s).rotIn = s.rotIn := rfl
@[simp] theorem clsInit_rotOut (s : State) : (clsInit s).rotOut = s.rotOut := rfl
@[simp] theorem clsInit_clsIn (s : State) : (clsInit s).clsIn = s.clsIn := rfl
@[simp] theorem clsInit_clsOut (s : State) : (clsInit s).clsOut = s.clsOut := rfl
@[simp] theorem clsInit_host (s : State) : (clsInit s).host = s.host := rfl
@[simp] theorem clsInit_turns (s : State) : (clsInit s).turns = s.turns := rfl
@[simp] theorem clsInit_tick (s : State) : (clsInit s).tick = s.tick := rfl
@[simp] theorem clsInit_cls (s : State) : (clsInit s).cls = { s.cls with kbest := allClasses (List.replicate s.cfg.knnK Config.sentinel), phase := .update 0 0 } := rfl

/-! DECIDE writes CLS's registers (42_knn_vote R184). -/
@[simp] theorem clsDecide_cfg (s : State) : (clsDecide s).cfg = s.cfg := rfl
@[simp] theorem clsDecide_rot (s : State) : (clsDecide s).rot = s.rot := rfl
@[simp] theorem clsDecide_rotIn (s : State) : (clsDecide s).rotIn = s.rotIn := rfl
@[simp] theorem clsDecide_rotOut (s : State) : (clsDecide s).rotOut = s.rotOut := rfl
@[simp] theorem clsDecide_clsIn (s : State) : (clsDecide s).clsIn = s.clsIn := rfl
@[simp] theorem clsDecide_clsOut (s : State) : (clsDecide s).clsOut = s.clsOut := rfl
@[simp] theorem clsDecide_host (s : State) : (clsDecide s).host = s.host := rfl
@[simp] theorem clsDecide_turns (s : State) : (clsDecide s).turns = s.turns := rfl
@[simp] theorem clsDecide_tick (s : State) : (clsDecide s).tick = s.tick := rfl
@[simp] theorem clsDecide_cls (s : State) : (clsDecide s).cls = { s.cls with result := BitVec.ofNat 4 (decision s.cls.cnt s.cls.score).val, phase := .emit } := rfl

/-! CHECK writes CLS's registers (60_exceptions R207). -/
@[simp] theorem clsCheck_cfg (v : Word64) (s : State) : (clsCheck v s).cfg = s.cfg := by
  unfold clsCheck
  split
  · simp
  · split <;> simp
@[simp] theorem clsCheck_rot (v : Word64) (s : State) : (clsCheck v s).rot = s.rot := by
  unfold clsCheck
  split
  · simp
  · split <;> simp
@[simp] theorem clsCheck_rotIn (v : Word64) (s : State) : (clsCheck v s).rotIn = s.rotIn := by
  unfold clsCheck
  split
  · simp
  · split <;> simp
@[simp] theorem clsCheck_rotOut (v : Word64) (s : State) : (clsCheck v s).rotOut = s.rotOut := by
  unfold clsCheck
  split
  · simp
  · split <;> simp
@[simp] theorem clsCheck_clsIn (v : Word64) (s : State) : (clsCheck v s).clsIn = s.clsIn := by
  unfold clsCheck
  split
  · simp
  · split <;> simp
@[simp] theorem clsCheck_clsOut (v : Word64) (s : State) : (clsCheck v s).clsOut = s.clsOut := by
  unfold clsCheck
  split
  · simp
  · split <;> simp
@[simp] theorem clsCheck_host (v : Word64) (s : State) : (clsCheck v s).host = s.host := by
  unfold clsCheck
  split
  · simp
  · split <;> simp
@[simp] theorem clsCheck_turns (v : Word64) (s : State) : (clsCheck v s).turns = s.turns := by
  unfold clsCheck
  split
  · simp
  · split <;> simp
@[simp] theorem clsCheck_tick (v : Word64) (s : State) : (clsCheck v s).tick = s.tick := by
  unfold clsCheck
  split
  · simp
  · split <;> simp

/-! The host's bookkeeping writes the host agent. -/
@[simp] theorem hostDone_cfg (os : List Observation) (s : State) : (hostDone os s).cfg = s.cfg := rfl
@[simp] theorem hostDone_rot (os : List Observation) (s : State) : (hostDone os s).rot = s.rot := rfl
@[simp] theorem hostDone_cls (os : List Observation) (s : State) : (hostDone os s).cls = s.cls := rfl
@[simp] theorem hostDone_rotIn (os : List Observation) (s : State) : (hostDone os s).rotIn = s.rotIn := rfl
@[simp] theorem hostDone_rotOut (os : List Observation) (s : State) : (hostDone os s).rotOut = s.rotOut := rfl
@[simp] theorem hostDone_clsIn (os : List Observation) (s : State) : (hostDone os s).clsIn = s.clsIn := rfl
@[simp] theorem hostDone_clsOut (os : List Observation) (s : State) : (hostDone os s).clsOut = s.clsOut := rfl
@[simp] theorem hostDone_turns (os : List Observation) (s : State) : (hostDone os s).turns = s.turns := rfl
@[simp] theorem hostDone_tick (os : List Observation) (s : State) : (hostDone os s).tick = s.tick := rfl
@[simp] theorem hostDone_host (os : List Observation) (s : State) : (hostDone os s).host = { todo := s.host.todo.tail, seen := s.host.seen ++ os } := rfl

/-! The scheduler's bookkeeping writes `turns` and `tick`. -/
@[simp] theorem nextTick_cfg (s : State) : (nextTick s).cfg = s.cfg := rfl
@[simp] theorem nextTick_rot (s : State) : (nextTick s).rot = s.rot := rfl
@[simp] theorem nextTick_cls (s : State) : (nextTick s).cls = s.cls := rfl
@[simp] theorem nextTick_rotIn (s : State) : (nextTick s).rotIn = s.rotIn := rfl
@[simp] theorem nextTick_rotOut (s : State) : (nextTick s).rotOut = s.rotOut := rfl
@[simp] theorem nextTick_clsIn (s : State) : (nextTick s).clsIn = s.clsIn := rfl
@[simp] theorem nextTick_clsOut (s : State) : (nextTick s).clsOut = s.clsOut := rfl
@[simp] theorem nextTick_host (s : State) : (nextTick s).host = s.host := rfl
@[simp] theorem nextTick_turns (s : State) : (nextTick s).turns = s.turns.tail := rfl
@[simp] theorem nextTick_tick (s : State) : (nextTick s).tick = s.tick + 1 := rfl

end Sys2Proof.Machine
end

