-- ==== Sys2Proof/Laws/Ops.lean ====
section
/-! SUPPORT. What each shared operation can do, said once. -/

namespace Sys2Proof.Machine

/-! Sequencing -/

@[simp] theorem andThen_next (s : State) (f : State → Result) : andThen (.next s) f = f s := rfl

theorem andThen_eq_next {o : Result} {f : State → Result} {t : State} :
    andThen o f = .next t ↔ ∃ s, o = .next s ∧ f s = .next t := by
  cases o <;> simp [andThen]

theorem withRead_eq_next {α : Type} {o : Except Fault α} {f : α → Result} {t : State} :
    withRead o f = .next t ↔ ∃ a, o = .ok a ∧ f a = .next t := by
  cases o <;> simp [withRead]

@[simp] theorem withRead_ok {α : Type} (a : α) (f : α → Result) : withRead (.ok a) f = f a := rfl

@[simp] theorem forEach_nil {α : Type} (f : α → State → Result) (s : State) : forEach f [] s = .next s := rfl

theorem forEach_cons {α : Type} (f : α → State → Result) (a : α) (as : List α) (s : State) :
    forEach f (a :: as) s = andThen (f a s) (forEach f as) := rfl

theorem forEach_append {α : Type} (f : α → State → Result) (as bs : List α) (s : State) :
    forEach f (as ++ bs) s = andThen (forEach f as s) (forEach f bs) := by
  induction as generalizing s with
  | nil => rfl
  | cons a as ih =>
    simp only [List.cons_append, forEach_cons]
    cases f a s <;> simp [andThen, ih]

/-- The induction over a loop, once: what every turn keeps, the loop keeps. -/
theorem forEach_keeps {α : Type} {f : α → State → Result} {P : State → Prop} {as : List α} {s t : State}
    (turn : ∀ a ∈ as, ∀ s t, P s → f a s = .next t → P t) (start : P s) (h : forEach f as s = .next t) : P t := by
  induction as generalizing s with
  | nil =>
    cases h
    exact start
  | cons a as ih =>
    obtain ⟨u, hu, ht⟩ := andThen_eq_next.1 h
    exact ih (fun b hb => turn b (by simp [hb])) (turn a (by simp) s u start hu) ht

/-- A loop whose every turn answers a next state from `P` and keeps `P` answers a next state. -/
theorem forEach_completes {α : Type} {f : α → State → Result} {P : State → Prop} {as : List α} {s : State}
    (turn : ∀ a ∈ as, ∀ s, P s → ∃ t, f a s = .next t ∧ P t) (start : P s) :
    ∃ t, forEach f as s = .next t ∧ P t := by
  induction as generalizing s with
  | nil => exact ⟨s, rfl, start⟩
  | cons a as ih =>
    obtain ⟨u, hu, pu⟩ := turn a (by simp) s start
    obtain ⟨t, ht, pt⟩ := ih (fun b hb => turn b (by simp [hb])) pu
    exact ⟨t, by rw [forEach_cons, hu]; exact ht, pt⟩

/-! FIFOs -/

theorem inPop_eq_some {u : UnitId} {s t : State} {w : Word32} :
    inPop u s = some (w, t) ↔ ∃ ws, s.inFifo u = w :: ws ∧ t = s.setIn u ws := by
  unfold inPop
  split <;> rename_i h <;> simp [h]
  exact fun _ => eq_comm

theorem inPop_eq_none {u : UnitId} {s : State} : inPop u s = none ↔ s.inFifo u = [] := by
  unfold inPop
  split <;> rename_i h <;> simp [h]

theorem outPop_eq_some {u : UnitId} {s t : State} {w : Word32} :
    outPop u s = some (w, t) ↔ ∃ ws, s.outFifo u = w :: ws ∧ t = s.setOut u ws := by
  unfold outPop
  split <;> rename_i h <;> simp [h]
  exact fun _ => eq_comm

theorem outPop_eq_none {u : UnitId} {s : State} : outPop u s = none ↔ s.outFifo u = [] := by
  unfold outPop
  split <;> rename_i h <;> simp [h]

theorem outPush_eq_some {u : UnitId} {w : Word32} {s t : State} :
    outPush u w s = some t ↔ (s.outFifo u).length < s.cfg.outDepth ∧ t = s.setOut u (s.outFifo u ++ [w]) := by
  unfold outPush
  split <;> simp_all [eq_comm]

theorem outPush_eq_none {u : UnitId} {w : Word32} {s : State} :
    outPush u w s = none ↔ s.cfg.outDepth ≤ (s.outFifo u).length := by
  unfold outPush
  split <;> simp_all

theorem inPush_eq_some {u : UnitId} {w : Word32} {s t : State} :
    inPush u w s = some t ↔ (s.inFifo u).length < s.cfg.inDepth ∧ t = s.setIn u (s.inFifo u ++ [w]) := by
  unfold inPush
  split <;> simp_all [eq_comm]

theorem inPush_eq_none {u : UnitId} {w : Word32} {s : State} :
    inPush u w s = none ↔ s.cfg.inDepth ≤ (s.inFifo u).length := by
  unfold inPush
  split <;> simp_all

/-! One value for each class -/

theorem getAt_setAt {α : Type} (v : PerClass α) (c b : ClassIdx) (a : α) :
    getAt (setAt v c a) b = if b = c then a else getAt v b := by
  simp only [getAt, setAt, Vector.get_eq_getElem, Vector.getElem_set]
  by_cases h : b = c
  · simp [h]
  · have : c.val ≠ b.val := fun e => h (Fin.ext e.symm)
    simp [h, this]

@[simp] theorem getAt_setAt_self {α : Type} (v : PerClass α) (c : ClassIdx) (a : α) : getAt (setAt v c a) c = a := by
  simp [getAt_setAt]

@[simp] theorem getAt_allClasses {α : Type} (a : α) (c : ClassIdx) : getAt (allClasses a) c = a := by
  simp [getAt, allClasses, Vector.get_eq_getElem]

theorem perClass_ext {α : Type} {v w : PerClass α} (h : ∀ c, getAt v c = getAt w c) : v = w := by
  apply Vector.ext
  intro i hi
  have := h ⟨i, hi⟩
  simpa [getAt, Vector.get_eq_getElem] using this

/-- The scan keeps the best so far: the smallest key, the earliest of them. -/
theorem scan_smallest {α : Type} [LinearOrder α] (key : ClassIdx → α) (l : List ClassIdx) (b : ClassIdx)
    (sorted : (b :: l).Pairwise (· < ·)) :
    let r := l.foldl (fun best c => if decide (key c < key best) then c else best) b
    ∀ c ∈ b :: l, key r ≤ key c ∧ (c < r → key r < key c) := by
  induction l generalizing b with
  | nil => simp
  | cons d l ih =>
    simp only [List.foldl_cons]
    simp only [List.pairwise_cons, List.mem_cons, forall_eq_or_imp] at sorted ih ⊢
    obtain ⟨⟨hbd, hbl⟩, hdl, hl⟩ := sorted
    by_cases h : key d < key b
    · simp only [h, decide_true, if_true]
      have := ih d ⟨hdl, hl⟩
      exact ⟨⟨this.1.1.trans h.le, fun _ => this.1.1.trans_lt h⟩, this⟩
    · simp only [h, decide_false, Bool.false_eq_true, if_false]
      have := ih b ⟨hbl, hl⟩
      refine ⟨this.1, ⟨this.1.1.trans (not_lt.1 h), fun hd => ?_⟩, this.2⟩
      refine lt_of_lt_of_le (this.1.2 (hbd.trans hd)) (not_lt.1 h)

/-- A strict comparison of keys makes `firstBest` the lowest class among those with the smallest key (42_knn_vote R182). -/
theorem firstBest_smallest {α : Type} [LinearOrder α] (key : ClassIdx → α) (c : ClassIdx) :
    key (firstBest fun c b => decide (key c < key b)) ≤ key c ∧
      (c < (firstBest fun c b => decide (key c < key b)) →
        key (firstBest fun c b => decide (key c < key b)) < key c) :=
  scan_smallest key [1, 2, 3, 4, 5, 6, 7, 8, 9] 0 (by decide) c (by revert c; decide)

/-! ROM reads in a well-formed configuration -/

theorem cfg_wf_iff (c : Cfg) :
    c.wf = true ↔ (1 ≤ c.ibits ∧ c.ibits + c.fbits = 64) ∧ 1 ≤ c.knnK ∧
      (c.train.length = 10 ∧ ∀ row ∈ c.train, row.length = c.trainN) ∧ c.atan.length = 20 ∧
      1 ≤ c.inDepth ∧ 1 ≤ c.outDepth := by
  simp [Cfg.wf, Cfg.splitWf, Cfg.knnWf, Cfg.trainWf, Cfg.atanWf, Cfg.depthWf, and_assoc]

theorem atanRead_of_wf {c : Cfg} (h : c.wf = true) (i : Fin 20) : ∃ a, c.atan[i.val]? = some a ∧ atanRead c i = .ok a := by
  have len := ((cfg_wf_iff c).1 h).2.2.2.1
  have hi : i.val < c.atan.length := by omega
  exact ⟨c.atan[i.val], by simp [hi], by simp [atanRead, hi]⟩

theorem trainRead_of_wf {c : Cfg} (h : c.wf = true) (k : ClassIdx) {t : Nat} (ht : t < c.trainN) :
    ∃ row x, c.train[k.val]? = some row ∧ row[t]? = some x ∧ trainRead c k t = .ok x := by
  obtain ⟨len, rows⟩ := ((cfg_wf_iff c).1 h).2.2.1
  have hk : k.val < c.train.length := by omega
  have hr : t < (c.train[k.val]).length := by rw [rows _ (List.getElem_mem hk)]; exact ht
  exact ⟨c.train[k.val], (c.train[k.val])[t], by simp [hk], by simp [hr], by simp [trainRead, hk, hr]⟩

end Sys2Proof.Machine
end

