-- ==== Sys2Proof/Laws/Classify.lean ====
section
/-! SUPPORT. What CLS's operations can do (41_knn_update R151 to R158, 42_knn_vote R181 to R185). -/

namespace Sys2Proof.Machine

/-! Insertion -/

theorem bubble_perm (p : Nat) (kb : List Dist) : (bubble p kb).Perm kb := by
  induction p generalizing kb with
  | zero => rfl
  | succ p ih =>
    unfold bubble
    split
    · rename_i x y hx hy
      split
      · refine (ih _).trans ?_
        obtain ⟨h1, rfl⟩ := List.getElem?_eq_some_iff.1 hx
        obtain ⟨h0, rfl⟩ := List.getElem?_eq_some_iff.1 hy
        exact List.set_set_perm h0 h1
      · rfl
    · rfl

@[simp] theorem bubble_length (p : Nat) (kb : List Dist) : (bubble p kb).length = kb.length := (bubble_perm p kb).length_eq

@[simp] theorem insertDist_length (kb : List Dist) (d : Dist) : (insertDist kb d).length = kb.length := by
  unfold insertDist
  split
  · split <;> simp
  · rfl

/-- An inserted array holds entries of the old one and the distance. -/
theorem mem_insertDist {kb : List Dist} {d e : Dist} (h : e ∈ insertDist kb d) : e = d ∨ e ∈ kb := by
  unfold insertDist at h
  split at h
  · split at h
    · exact (List.mem_or_eq_of_mem_set ((bubble_perm _ _).mem_iff.1 h)).symm
    · exact .inr h
  · exact .inr h

/-- `≤` on k-best entries, as unsigned integers (00_scope R14). -/
abbrev DistLe (a b : Dist) : Prop := a.toNat ≤ b.toNat

theorem ascending_eq_of_perm {l₁ l₂ : List Dist} (p : l₁.Perm l₂) (h₁ : Ascending l₁) (h₂ : Ascending l₂) : l₁ = l₂ :=
  p.eq_of_pairwise (fun _ _ _ _ hab hba => BitVec.eq_of_toNat_eq (Nat.le_antisymm hab hba)) h₁ h₂

theorem orderedInsert_ascending (d : Dist) {l : List Dist} (h : Ascending l) : Ascending (l.orderedInsert DistLe d) := by
  induction l with
  | nil => simp
  | cons a l ih =>
    rw [List.orderedInsert_cons]
    obtain ⟨ha, hl⟩ := List.pairwise_cons.1 h
    split
    · rename_i hda
      refine List.pairwise_cons.2 ⟨fun b hb => ?_, h⟩
      rcases List.mem_cons.1 hb with rfl | hb
      · exact hda
      · exact le_trans hda (ha b hb)
    · rename_i hda
      refine List.pairwise_cons.2 ⟨fun b hb => ?_, ih hl⟩
      rcases List.mem_orderedInsert _ |>.1 hb with rfl | hb
      · exact (not_le.1 hda).le
      · exact ha b hb

theorem orderedInsert_append (x y : Dist) (h : DistLe x y) (l : List Dist) :
    (l ++ [y]).orderedInsert DistLe x = l.orderedInsert DistLe x ++ [y] := by
  induction l with
  | nil => simp [h]
  | cons a l ih =>
    simp only [List.cons_append, List.orderedInsert_cons]
    split <;> simp [ih]

theorem orderedInsert_ge (x : Dist) {l : List Dist} (h : Ascending (l ++ [x])) : l.orderedInsert DistLe x = l ++ [x] :=
  ascending_eq_of_perm ((List.perm_orderedInsert _ _ _).trans (List.perm_append_singleton _ _).symm)
    (orderedInsert_ascending x (List.pairwise_append.1 h).1) h

/-- Bubbling an entry that stands behind an ascending list inserts it in order. -/
theorem bubble_insert (x : Dist) (rest : List Dist) (l : List Dist) (h : Ascending l) :
    bubble l.length (l ++ x :: rest) = l.orderedInsert DistLe x ++ rest := by
  induction l using List.reverseRecOn generalizing rest with
  | nil => rfl
  | append_singleton l y ih =>
    have hx : (l ++ [y] ++ x :: rest)[l.length + 1]? = some x := by simp
    have hy : (l ++ [y] ++ x :: rest)[l.length]? = some y := by simp
    rw [List.length_append, List.length_singleton, bubble, hx, hy]
    by_cases hxy : x.toNat < y.toNat
    · have swap : ((l ++ [y] ++ x :: rest).set l.length x).set (l.length + 1) y = l ++ x :: y :: rest := by simp
      simp only [distLt, hxy, decide_true, if_true, swap]
      rw [ih (y :: rest) (List.pairwise_append.1 h).1, orderedInsert_append x y hxy.le]
      simp
    · have asc : Ascending (l ++ [y] ++ [x]) := by
        refine List.pairwise_append.2 ⟨h, by simp, fun a ha b hb => ?_⟩
        obtain rfl := List.mem_singleton.1 hb
        rcases List.mem_append.1 ha with ha | ha
        · exact le_trans ((List.pairwise_append.1 h).2.2 a ha y (by simp)) (not_lt.1 hxy)
        · obtain rfl := List.mem_singleton.1 ha
          exact not_lt.1 hxy
      simp only [distLt, hxy, decide_false, Bool.false_eq_true, if_false]
      rw [orderedInsert_ge x asc]
      simp

/-- Insertion into an ascending array leaves it ascending (41_knn_update R157). -/
theorem insertDist_ascending {kb : List Dist} (d : Dist) (h : Ascending kb) : Ascending (insertDist kb d) := by
  induction kb using List.reverseRecOn with
  | nil => exact h
  | append_singleton l w _ =>
    have hl := (List.pairwise_append.1 h).1
    have hw : (l ++ [w])[(l ++ [w]).length - 1]? = some w := by simp
    have hs : (l ++ [w]).set ((l ++ [w]).length - 1) d = l ++ [d] := by simp
    rw [insertDist, hw]
    dsimp only
    split
    · rw [hs, show (l ++ [w]).length - 1 = l.length by simp, bubble_insert d [] l hl, List.append_nil]
      exact orderedInsert_ascending d hl
    · exact h

/-! Distances -/

theorem popcount_le (b : Bitmap) : popcount b ≤ 49 := by
  have := List.countP_le_length (p := fun j => b.getLsbD j) (l := List.range Config.pix)
  simpa [popcount] using this

theorem hamming_toNat (q x : Bitmap) : (hamming q x).toNat = popcount (q ^^^ x) := by
  have := popcount_le (q ^^^ x)
  simp only [hamming, BitVec.toNat_ofNat]
  omega

/-! Sums over the classes -/

theorem sum_set_add (l : List Nat) (i k : Nat) (h : i < l.length) : (l.set i (l[i] + k)).sum = l.sum + k := by
  induction l generalizing i with
  | nil => simp at h
  | cons a l ih =>
    cases i with
    | zero => simp; omega
    | succ i =>
      have := ih i (by simpa using h)
      simp only [List.set_cons_succ, List.getElem_cons_succ, List.sum_cons, this]
      omega

theorem total_setAt_add (v : PerClass Nat) (c : ClassIdx) (k : Nat) :
    total (setAt v c (getAt v c + k)) = total v + k := by
  have h : c.val < v.toList.length := by simp
  have := sum_set_add v.toList c.val k h
  simp only [total, setAt, getAt, Vector.get_eq_getElem, Vector.toList_set]
  exact this

theorem getAt_le_total (v : PerClass Nat) (c : ClassIdx) : getAt v c ≤ total v := by
  apply List.le_sum_of_mem
  simp [getAt, Vector.get_eq_getElem]

@[simp] theorem total_allClasses_zero : total (allClasses 0) = 0 := by decide

/-! A vote round -/

/-- A round reads all ten entries, or faults. -/
theorem voteHeads_eq_ok {r : ClsRegs} {heads : PerClass Dist} :
    voteHeads r = .ok heads ↔ ∀ c, voteHead r c = .ok (getAt heads c) := by
  constructor
  · intro h
    simp only [voteHeads, bind, Except.bind] at h
    repeat' split at h
    all_goals cases h
    intro c
    fin_cases c <;> assumption
  · intro h
    simp only [voteHeads, bind, Except.bind, h]
    congr 1
    apply perClass_ext
    intro c
    fin_cases c <;> rfl

theorem voteHead_eq_ok {r : ClsRegs} {c : ClassIdx} {d : Dist} :
    voteHead r c = .ok d ↔ (getAt r.kbest c)[getAt r.ptr c]? = some d := by
  unfold voteHead
  split <;> simp_all

/-- With every pointer inside its array, a round reads its entries. -/
theorem voteHeads_of_lt {r : ClsRegs} (h : ∀ c, getAt r.ptr c < (getAt r.kbest c).length) :
    ∃ heads, voteHeads r = .ok heads := by
  have (c : ClassIdx) : ∃ d, voteHead r c = .ok d :=
    ⟨(getAt r.kbest c)[getAt r.ptr c]'(h c), voteHead_eq_ok.2 (List.getElem?_eq_getElem (h c))⟩
  choose d hd using this
  refine ⟨Vector.ofFn d, voteHeads_eq_ok.2 fun c => ?_⟩
  simpa [getAt, Vector.get_eq_getElem] using hd c

/-- The class a round picks has the smallest entry, and every lower class a larger one (42_knn_vote R182). -/
theorem votePick_smallest (heads : PerClass Dist) (c : ClassIdx) :
    (getAt heads (votePick heads)).toNat ≤ (getAt heads c).toNat ∧
      (c < votePick heads → (getAt heads (votePick heads)).toNat < (getAt heads c).toNat) :=
  firstBest_smallest (fun c => (getAt heads c).toNat) c

/-- Everything a vote round can do. -/
theorem clsVote_eq_next {r : Nat} {s t : State} (h : clsVote r s = .next t) :
    ∃ heads, voteHeads s.cls = .ok heads ∧
      t = { s with
        cls := { s.cls with
          ptr := setAt s.cls.ptr (votePick heads) (getAt s.cls.ptr (votePick heads) + 1)
          cnt := setAt s.cls.cnt (votePick heads) (getAt s.cls.cnt (votePick heads) + 1)
          score := setAt s.cls.score (votePick heads) (getAt s.cls.score (votePick heads) + (s.cfg.knnK - r))
          phase := clsPhaseAfterVote s.cfg r } } := by
  obtain ⟨heads, hh, ht⟩ := withRead_eq_next.1 h
  cases ht
  exact ⟨heads, hh, rfl⟩

/-- A round keeps the tallies' sums (42_knn_vote R183, R187). -/
theorem clsVote_tallied {r : Nat} {s t : State} (h : clsVote r s = .next t) (ht : Tallied s.cfg r s.cls) :
    Tallied t.cfg (r + 1) t.cls := by
  obtain ⟨heads, -, rfl⟩ := clsVote_eq_next h
  obtain ⟨e, hc, hs⟩ := ht
  refine ⟨by simp [e], by simp [total_setAt_add, hc], ?_⟩
  simp [total_setAt_add, hs, List.range_succ]

/-- With arrays of KNN_K entries and the tallies of r < KNN_K rounds, a round reads inside every array (42_knn_vote R183). -/
theorem clsVote_completes {r : Nat} {s : State} (hk : KbestInv s) (hr : r < s.cfg.knnK) (ht : Tallied s.cfg r s.cls) :
    ∃ t, clsVote r s = .next t := by
  obtain ⟨heads, hh⟩ := voteHeads_of_lt (r := s.cls) fun c => by
    have := getAt_le_total s.cls.ptr c
    rw [ht.1, ht.2.1] at this
    rw [ht.1, (hk c).1]
    omega
  simp only [clsVote, hh, withRead_ok]
  exact ⟨_, rfl⟩

/-! Updates -/

@[simp] theorem clsEnter_kbest (p : ClsPhase) (r : ClsRegs) : (clsEnter p r).kbest = r.kbest := by
  unfold clsEnter; split <;> rfl

@[simp] theorem clsEnter_phase (p : ClsPhase) (r : ClsRegs) : (clsEnter p r).phase = p := by
  unfold clsEnter; split <;> rfl

@[simp] theorem clsEnter_lo (p : ClsPhase) (r : ClsRegs) : (clsEnter p r).lo = r.lo := by
  unfold clsEnter; split <;> rfl

@[simp] theorem clsEnter_query (p : ClsPhase) (r : ClsRegs) : (clsEnter p r).query = r.query := by
  unfold clsEnter; split <;> rfl

@[simp] theorem clsEnter_result (p : ClsPhase) (r : ClsRegs) : (clsEnter p r).result = r.result := by
  unfold clsEnter; split <;> rfl

@[simp] theorem clsEnter_cause (p : ClsPhase) (r : ClsRegs) : (clsEnter p r).cause = r.cause := by
  unfold clsEnter; split <;> rfl

/-- Everything an update can do. -/
theorem clsUpdate_eq_next {c : ClassIdx} {n : Nat} {s t : State} (h : clsUpdate c n s = .next t) :
    ∃ x, trainRead s.cfg c n = .ok x ∧
      t = { s with
        cls := clsEnter (clsPhaseAfterUpdate s.cfg c n)
          { s.cls with kbest := setAt s.cls.kbest c (insertDist (getAt s.cls.kbest c) (hamming s.cls.query x)) } } := by
  obtain ⟨x, hx, ht⟩ := withRead_eq_next.1 h
  cases ht
  exact ⟨x, hx, rfl⟩

theorem clsUpdate_completes {c : ClassIdx} {n : Nat} {s : State} (h : s.cfg.wf = true) (hn : n < s.cfg.trainN) :
    ∃ t, clsUpdate c n s = .next t := by
  obtain ⟨_, x, -, -, hx⟩ := trainRead_of_wf h c hn
  simp only [clsUpdate, hx, withRead_ok]
  exact ⟨_, rfl⟩

/-- An insertion keeps the k-best arrays' form (10_state R35, 41_knn_update R157). -/
theorem clsUpdate_kbestInv {c : ClassIdx} {n : Nat} {s t : State} (h : clsUpdate c n s = .next t) (hk : KbestInv s) :
    KbestInv t := by
  obtain ⟨x, -, rfl⟩ := clsUpdate_eq_next h
  intro b
  simp only [clsEnter_kbest, getAt_setAt]
  split
  · rename_i hbc
    obtain ⟨hl, ha, hd⟩ := hk c
    refine ⟨by simp [hl], insertDist_ascending _ ha, fun d hd' => ?_⟩
    rcases mem_insertDist hd' with rfl | hm
    · rw [hamming_toNat]
      have := popcount_le (s.cls.query ^^^ x)
      omega
    · exact hd d hm
  · exact hk b

theorem clsInit_kbestInv (s : State) : KbestInv (clsInit s) := by
  intro c
  simp only [clsInit_cls, clsInit_cfg, getAt_allClasses, List.length_replicate, true_and]
  refine ⟨List.pairwise_replicate.2 (.inr (le_refl _)), fun d hd => ?_⟩
  rw [List.eq_of_mem_replicate hd]
  decide

/-- The phases an update can lead to (10_state R37). -/
theorem clsPhaseAfterUpdate_cases (cfg : Cfg) (c : ClassIdx) (t : Nat) :
    (t + 1 < cfg.trainN ∧ clsPhaseAfterUpdate cfg c t = .update c (t + 1)) ∨
      (cfg.trainN ≤ t + 1 ∧ ∃ d : ClassIdx, d.val = c.val + 1 ∧ clsPhaseAfterUpdate cfg c t = .update d 0) ∨
      (cfg.trainN ≤ t + 1 ∧ c.val = 9 ∧ clsPhaseAfterUpdate cfg c t = .vote 0) := by
  unfold clsPhaseAfterUpdate
  by_cases h : t + 1 < cfg.trainN
  · exact .inl ⟨h, if_pos h⟩
  · by_cases hc : c.val + 1 < 10
    · exact .inr (.inl ⟨by omega, ⟨c.val + 1, hc⟩, rfl, by rw [if_neg h, dif_pos hc]⟩)
    · exact .inr (.inr ⟨by omega, by omega, by rw [if_neg h, dif_neg hc]⟩)

/-- The phases a vote round can lead to (10_state R37). -/
theorem clsPhaseAfterVote_cases (cfg : Cfg) (r : Nat) :
    (r + 1 < cfg.knnK ∧ clsPhaseAfterVote cfg r = .vote (r + 1)) ∨
      (cfg.knnK ≤ r + 1 ∧ clsPhaseAfterVote cfg r = .decide) := by
  unfold clsPhaseAfterVote
  by_cases h : r + 1 < cfg.knnK
  · exact .inl ⟨h, if_pos h⟩
  · exact .inr ⟨by omega, if_neg h⟩

/-! CHECK -/

/-- Everything CHECK can do, in the order of 60_exceptions R207. -/
theorem clsCheck_cases (v : Word64) (s : State) :
    (s.cfg.trainN = 0 ∧ clsCheck v s = raiseFault .cls .degenerateModel s) ∨
      (s.cfg.trainN ≠ 0 ∧ reservedField v ≠ 0 ∧ clsCheck v s = raiseFault .cls .invalidInput s) ∨
      (s.cfg.trainN ≠ 0 ∧ reservedField v = 0 ∧
        clsCheck v s = { s with cls := { s.cls with query := queryField v, phase := .init } }) := by
  unfold clsCheck
  by_cases hn : s.cfg.trainN = 0
  · exact .inl ⟨hn, if_pos hn⟩
  · by_cases hr : reservedField v = 0
    · exact .inr (.inr ⟨hn, hr, by rw [if_neg hn, if_neg (not_not.2 hr)]⟩)
    · exact .inr (.inl ⟨hn, hr, by rw [if_neg hn, if_pos hr]⟩)

/-! The loops of CLASSIFY -/

/-- t differs from s in CLS's arrays, tallies, result and phase alone. -/
def ClassifyFrame (s t : State) : Prop :=
  t = { s with cls := { t.cls with lo := s.cls.lo, query := s.cls.query, cause := s.cls.cause } }

theorem ClassifyFrame.refl (s : State) : ClassifyFrame s s := rfl

theorem ClassifyFrame.trans {s t u : State} (h : ClassifyFrame s t) (k : ClassifyFrame t u) : ClassifyFrame s u := by
  unfold ClassifyFrame at *
  rw [h] at k
  exact k

theorem ClassifyFrame.cfg {s t : State} (h : ClassifyFrame s t) : t.cfg = s.cfg := by
  rw [h]

theorem clsUpdate_frame {c : ClassIdx} {n : Nat} {s t : State} (h : clsUpdate c n s = .next t) : ClassifyFrame s t := by
  obtain ⟨x, -, rfl⟩ := clsUpdate_eq_next h
  simp only [ClassifyFrame]
  congr 1
  unfold clsEnter
  split <;> rfl

theorem clsVote_frame {r : Nat} {s t : State} (h : clsVote r s = .next t) : ClassifyFrame s t := by
  obtain ⟨x, -, rfl⟩ := clsVote_eq_next h
  rfl

theorem forEach_frame {α : Type} {f : α → State → Result} (turn : ∀ a s t, f a s = .next t → ClassifyFrame s t)
    {as : List α} {s t : State} (h : forEach f as s = .next t) : ClassifyFrame s t :=
  forEach_keeps (P := fun t => ClassifyFrame s t) (fun a _ u v hu hv => hu.trans (turn a u v hv)) (.refl s) h

theorem updateKnn_frame {c : ClassIdx} {s t : State} (h : updateKnn c s = .next t) : ClassifyFrame s t :=
  forEach_frame (fun _ _ _ h => clsUpdate_frame h) h

/-- The update loop keeps the k-best arrays' form. -/
theorem updateLoop_kbestInv {cs : List ClassIdx} {s t : State} (h : forEach updateKnn cs s = .next t)
    (hk : KbestInv s) : KbestInv t :=
  forEach_keeps (P := KbestInv) (fun _ _ _ _ hu hv =>
    forEach_keeps (P := KbestInv) (fun _ _ _ _ hu hv => clsUpdate_kbestInv hv hu) hu hv) hk h

/-- The update loop completes in a well-formed configuration. -/
theorem updateLoop_completes {s : State} (h : s.cfg.wf = true) (cs : List ClassIdx) :
    ∃ t, forEach updateKnn cs s = .next t := by
  obtain ⟨t, ht, -⟩ := forEach_completes (f := updateKnn) (P := fun u => u.cfg = s.cfg) (as := cs) (s := s)
    (fun c _ u hu => by
      obtain ⟨w, hw, hc⟩ := forEach_completes (f := clsUpdate c) (P := fun u => u.cfg = s.cfg)
        (as := List.range u.cfg.trainN) (s := u) (fun n hn x hx => by
          obtain ⟨y, hy⟩ := clsUpdate_completes (c := c) (n := n) (s := x) (by rw [hx]; exact h)
            (by rw [hx, ← hu]; exact List.mem_range.1 hn)
          exact ⟨y, hy, (clsUpdate_frame hy).cfg.trans hx⟩) hu
      exact ⟨w, hw, hc⟩) rfl
  exact ⟨t, ht⟩

/-- The last update enters VOTE(0) with the tallies of no round (42_knn_vote R181). -/
theorem clsUpdate_last {n : Nat} {s t : State} (h : clsUpdate 9 n s = .next t) (hn : n + 1 = s.cfg.trainN) :
    t.cls.phase = .vote 0 ∧ t.cls.ptr = allClasses 0 ∧ t.cls.cnt = allClasses 0 ∧ t.cls.score = allClasses 0 := by
  obtain ⟨x, -, rfl⟩ := clsUpdate_eq_next h
  have : clsPhaseAfterUpdate s.cfg 9 n = .vote 0 := by
    rw [clsPhaseAfterUpdate, if_neg (by omega), dif_neg (by decide)]
  rw [this]
  exact ⟨rfl, rfl, rfl, rfl⟩

/-- The update loop over all classes enters VOTE(0) with the tallies of no round. -/
theorem updateLoop_last {s t : State} (h : forEach updateKnn (List.finRange 10) s = .next t) (hn : 0 < s.cfg.trainN) :
    t.cls.phase = .vote 0 ∧ t.cls.ptr = allClasses 0 ∧ t.cls.cnt = allClasses 0 ∧ t.cls.score = allClasses 0 := by
  have split10 : List.finRange 10 = [0, 1, 2, 3, 4, 5, 6, 7, 8] ++ [9] := by decide
  rw [split10, forEach_append] at h
  obtain ⟨u, hu, h⟩ := andThen_eq_next.1 h
  have cu : u.cfg = s.cfg := (forEach_frame (fun _ _ _ h => updateKnn_frame h) hu).cfg
  rw [forEach_cons] at h
  obtain ⟨t', h, ht'⟩ := andThen_eq_next.1 h
  cases ht'
  have splitN : List.range u.cfg.trainN = List.range (u.cfg.trainN - 1) ++ [u.cfg.trainN - 1] := by
    rw [← List.range_succ]
    congr 1
    rw [cu]
    omega
  rw [updateKnn, splitN, forEach_append] at h
  obtain ⟨w, hw, h⟩ := andThen_eq_next.1 h
  have cw : w.cfg = u.cfg := (forEach_frame (fun _ _ _ h => clsUpdate_frame h) hw).cfg
  rw [forEach_cons] at h
  obtain ⟨t', h, ht'⟩ := andThen_eq_next.1 h
  cases ht'
  exact clsUpdate_last h (by rw [cw, cu]; omega)

theorem clsVote_kbest {r : Nat} {s t : State} (h : clsVote r s = .next t) : t.cls.kbest = s.cls.kbest := by
  obtain ⟨x, -, rfl⟩ := clsVote_eq_next h
  rfl

/-- From arrays of KNN_K ascending entries and the tallies of no round, the first n ≤ KNN_K rounds complete with the tallies
of n rounds. -/
theorem voteLoop_completes {s : State} (hk : KbestInv s) (ht : Tallied s.cfg 0 s.cls) :
    ∀ n, n ≤ s.cfg.knnK →
      ∃ t, forEach clsVote (List.range n) s = .next t ∧ Tallied s.cfg n t.cls ∧ ClassifyFrame s t ∧
        t.cls.kbest = s.cls.kbest := by
  intro n
  induction n with
  | zero => exact fun _ => ⟨s, rfl, ht, .refl s, rfl⟩
  | succ n ih =>
    intro hn
    obtain ⟨u, hu, tu, fu, ku⟩ := ih (by omega)
    have kinv : KbestInv u := by
      intro c
      rw [ku, fu.cfg]
      exact hk c
    have tu' : Tallied u.cfg n u.cls := by rw [fu.cfg]; exact tu
    obtain ⟨w, hw⟩ := clsVote_completes (r := n) kinv (by rw [fu.cfg]; omega) tu'
    refine ⟨w, ?_, ?_, fu.trans (clsVote_frame hw), (clsVote_kbest hw).trans ku⟩
    · rw [List.range_succ, forEach_append, hu]
      simp [forEach_cons, hw]
    · have := clsVote_tallied hw tu'
      rwa [(clsVote_frame hw).cfg, fu.cfg] at this

theorem decision_lt (cnt score : PerClass Nat) : (BitVec.ofNat 4 (decision cnt score).val).toNat < 10 := by
  simp only [BitVec.toNat_ofNat]
  omega

/-- The classification of an accepted query completes in EMIT with a class 0..9, KNN_K rounds' tallies and arrays in form, and
writes CLS's arrays, tallies, result and phase alone. -/
theorem classifyQuery_completes {s : State} (h : s.cfg.wf = true) (hn : 0 < s.cfg.trainN) :
    ∃ t, classifyQuery s = .next t ∧ ClassifyFrame s t ∧ t.cls.phase = .emit ∧ t.cls.result.toNat < 10 ∧
      Tallied s.cfg s.cfg.knnK t.cls ∧ KbestInv t := by
  obtain ⟨u, hu⟩ := updateLoop_completes (s := clsInit s) h (List.finRange 10)
  have fi : ClassifyFrame s (clsInit s) := rfl
  have fu := fi.trans (forEach_frame (fun _ _ _ h => updateKnn_frame h) hu)
  have ku := updateLoop_kbestInv hu (clsInit_kbestInv s)
  obtain ⟨-, hp, hc, hs⟩ := updateLoop_last hu hn
  have tu : Tallied u.cfg 0 u.cls := by simp [Tallied, hp, hc, hs]
  obtain ⟨w, hw, tw, fw, kw⟩ := voteLoop_completes ku tu u.cfg.knnK le_rfl
  refine ⟨clsDecide w, by simp only [classifyQuery, hu, hw, andThen_next], (fu.trans fw).trans rfl, rfl, decision_lt _ _, ?_, ?_⟩
  · rw [fu.cfg] at tw
    exact tw
  · intro c
    have := ku c
    rw [← kw, ← fw.cfg] at this
    exact this

/-! EMIT -/

/-- EMIT pushes the class and returns to IDLE, or holds. -/
theorem clsEmit_eq (s : State) :
    clsEmit s = .next (if s.clsOut.length < s.cfg.outDepth then
      { s with clsOut := s.clsOut ++ [clsResponse s.cls], cls := { s.cls with phase := .idle } } else s) := by
  unfold clsEmit outPush
  by_cases h : s.clsOut.length < s.cfg.outDepth
  · simp [State.outFifo, State.setOut, h]
  · simp [State.outFifo, h, hold]

end Sys2Proof.Machine
end

