-- ==== Sys2Proof/Laws/PerInstr.lean ====
section
/-! SUPPORT. Statements about every instruction as syntax, one lemma a constructor. -/

namespace Sys2Proof.Laws.RequestShape

/-- A request is two words that assemble to its value, the low word first (30_encoding R100, R101). -/
def Statement (i : Instr) : Prop := ∃ w0 w1 : Word32, encode i = [w0, w1] ∧ requestValue w1 w0 = i.value

theorem halves (v : Word64) : requestValue (highWord v) (lowWord v) = v := by
  apply BitVec.eq_of_getLsbD_eq
  intro j hj
  simp only [requestValue, highWord, lowWord, BitVec.getLsbD_append, BitVec.getLsbD_extractLsb']
  by_cases h : j < 32
  · simp [h]
  · simp only [h, decide_false, if_false]
    have : 32 + (j - 32) = j := by omega
    simp [this, show j - 32 < 32 by omega]

theorem rotate (v : Word64) : Statement (.rotate v) := ⟨lowWord v, highWord v, rfl, halves v⟩

theorem classify (v : Word64) : Statement (.classify v) := ⟨lowWord v, highWord v, rfl, halves v⟩

end Sys2Proof.Laws.RequestShape
end

