-- ==== Sys2Proof/Laws/Rotate.lean ====
section
/-! SUPPORT. What ROT's operations can do (40_cordic R121 to R128). -/

namespace Sys2Proof.Machine

/-! `rotAfterIter` writes `rot.i` and the phase. -/
@[simp] theorem rotAfterIter_lo (r : RotRegs) : (rotAfterIter r).lo = r.lo := by unfold rotAfterIter; split <;> rfl
@[simp] theorem rotAfterIter_theta (r : RotRegs) : (rotAfterIter r).theta = r.theta := by unfold rotAfterIter; split <;> rfl
@[simp] theorem rotAfterIter_cos (r : RotRegs) : (rotAfterIter r).cos = r.cos := by unfold rotAfterIter; split <;> rfl
@[simp] theorem rotAfterIter_sin (r : RotRegs) : (rotAfterIter r).sin = r.sin := by unfold rotAfterIter; split <;> rfl
@[simp] theorem rotAfterIter_cause (r : RotRegs) : (rotAfterIter r).cause = r.cause := by unfold rotAfterIter; split <;> rfl

@[simp] theorem rotAfterIter_phase_fault (r : RotRegs) : ((rotAfterIter r).phase = .fault) = False := by
  unfold rotAfterIter
  split <;> simp

/-- Where an iteration can lead (10_state R33). -/
theorem rotAfterIter_cases (r : RotRegs) :
    (r.i.val < 19 ∧ (rotAfterIter r).phase = .iter ∧ (rotAfterIter r).i.val = r.i.val + 1) ∨
      (r.i.val = 19 ∧ (rotAfterIter r).phase = .emit 0 ∧ (rotAfterIter r).i = r.i) := by
  unfold rotAfterIter
  by_cases h : r.i.val + 1 < 20
  · rw [dif_pos h]
    exact .inl ⟨by omega, rfl, rfl⟩
  · rw [dif_neg h]
    exact .inr ⟨by omega, rfl, rfl⟩

theorem rotAfterIter_eq (r : RotRegs) :
    rotAfterIter r = { r with i := (rotAfterIter r).i, phase := (rotAfterIter r).phase } := by
  unfold rotAfterIter
  split <;> rfl

/-- A pseudo-rotation that answers a next state either writes its three results and advances, or takes ArithOverflow. -/
theorem pseudoRotation_eq_next {s t : State} (h : pseudoRotation s = .next t) :
    ∃ a, atanRead s.cfg s.rot.i = .ok a ∧
      ((∃ th co si : Word64, t = { s with rot := rotAfterIter { s.rot with theta := th, cos := co, sin := si } }) ∨
        t = raiseFault .rot .arithOverflow s) := by
  obtain ⟨a, ha, ht⟩ := withRead_eq_next.1 h
  refine ⟨a, ha, ?_⟩
  dsimp only at ht
  split at ht
  · cases ht
    exact .inl ⟨_, _, _, rfl⟩
  · cases ht
    exact .inr rfl

/-- The phases a response word can lead to (10_state R33). -/
theorem rotPhaseAfterEmit_cases (k : Fin 4) :
    (∃ l : Fin 4, l.val = k.val + 1 ∧ rotPhaseAfterEmit k = .emit l) ∨
      (k.val = 3 ∧ rotPhaseAfterEmit k = .idle) := by
  unfold rotPhaseAfterEmit
  by_cases h : k.val + 1 < 4
  · exact .inl ⟨⟨k.val + 1, h⟩, rfl, dif_pos h⟩
  · exact .inr ⟨by omega, dif_neg h⟩

/-- ROT's registers after n of the twenty pseudo-rotations: those of r, in ITER(n), or in EMIT(0) after the last. -/
def rotAt (n : Nat) (r : RotRegs) : RotRegs :=
  if h : n < 20 then { r with i := ⟨n, h⟩, phase := .iter } else { r with i := 19, phase := .emit 0 }

theorem rotAfterIter_rotAt {n : Nat} (h : n < 20) (r : RotRegs) : rotAfterIter (rotAt n r) = rotAt (n + 1) r := by
  by_cases h' : n + 1 < 20
  · simp [rotAt, rotAfterIter, h, h']
  · obtain rfl : n = 19 := by omega
    rfl

/-- The state of the loop of ROTATE after n pseudo-rotations: only ROT's datapath, `rot.i`, cause and phase differ from those
of s, and the last two are those of a run or of an ArithOverflow. -/
def RotRunning (s : State) (n : Nat) (t : State) : Prop :=
  ∃ th co si : Word64,
    t = { s with rot := rotAt n { s.rot with theta := th, cos := co, sin := si } } ∨
      ∃ i : Fin 20,
        t = { s with
          rot := { s.rot with theta := th, cos := co, sin := si, i := i, cause := .arithOverflow, phase := .fault } }

theorem rotationUnlessFaulted_running {s t u : State} {n : Nat} (hn : n < 20) (h : RotRunning s n t)
    (hu : rotationUnlessFaulted t = .next u) : RotRunning s (n + 1) u := by
  obtain ⟨th, co, si, rfl | ⟨i, rfl⟩⟩ := h
  · have hp : (rotAt n { s.rot with theta := th, cos := co, sin := si }).phase = .iter := by simp [rotAt, hn]
    simp only [rotationUnlessFaulted, State.faulted, hp, reduceCtorEq, decide_false, Bool.false_eq_true, if_false] at hu
    obtain ⟨a, -, ⟨th', co', si', rfl⟩ | rfl⟩ := pseudoRotation_eq_next hu
    · refine ⟨th', co', si', .inl ?_⟩
      rw [← rotAfterIter_rotAt hn]
      simp [rotAt, hn]
    · exact ⟨th, co, si, .inr ⟨⟨n, hn⟩, by simp [raiseFault, rotAt, hn]⟩⟩
  · simp only [rotationUnlessFaulted, State.faulted, decide_true, if_true, hold] at hu
    cases hu
    exact ⟨th, co, si, .inr ⟨i, rfl⟩⟩

theorem restOfLoop_running {s : State} : ∀ (l : List Nat) (n : Nat) (t u : State), n + l.length = 20 → RotRunning s n t →
    forEach (fun _ => rotationUnlessFaulted) l t = .next u → RotRunning s 20 u
  | [], n, t, u, hn, h, hu => by
    obtain rfl : n = 20 := by simpa using hn
    cases hu
    exact h
  | _ :: l, n, t, u, hn, h, hu => by
    rw [List.length_cons] at hn
    rw [forEach_cons] at hu
    obtain ⟨v, hv, hu⟩ := andThen_eq_next.1 hu
    exact restOfLoop_running l (n + 1) v u (by omega) (rotationUnlessFaulted_running (by omega) h hv) hu

/-- Everything ROTATE can do: it ends in EMIT(0) or in an ArithOverflow, and writes ROT's datapath, `rot.i`, cause and phase
alone. -/
theorem execRotate_cases {v : Word64} {s t : State} (h : execRotate v s = .next t) :
    ∃ th co si : Word64,
      t = { s with rot := { s.rot with theta := th, cos := co, sin := si, i := 19, phase := .emit 0 } } ∨
        ∃ i : Fin 20,
          t = { s with
            rot := { s.rot with theta := th, cos := co, sin := si, i := i, cause := .arithOverflow, phase := .fault } } :=
  restOfLoop_running (List.range 20) 0 (rotLoad v s) t rfl ⟨v, s.cfg.kgain, 0, .inl rfl⟩ h

/-- In a well-formed configuration a pseudo-rotation always answers a next state. -/
theorem pseudoRotation_completes {s : State} (h : s.cfg.wf = true) : ∃ t, pseudoRotation s = .next t := by
  obtain ⟨a, -, ha⟩ := atanRead_of_wf h s.rot.i
  simp only [pseudoRotation, ha, withRead_ok]
  split <;> exact ⟨_, rfl⟩

theorem pseudoRotation_cfg {s t : State} (h : pseudoRotation s = .next t) : t.cfg = s.cfg := by
  obtain ⟨a, -, ⟨_, _, _, rfl⟩ | rfl⟩ := pseudoRotation_eq_next h <;> rfl

/-- In a well-formed configuration ROTATE always answers a next state. -/
theorem execRotate_completes {s : State} (v : Word64) (h : s.cfg.wf = true) : ∃ t, execRotate v s = .next t := by
  obtain ⟨t, ht, -⟩ := forEach_completes (f := fun _ => rotationUnlessFaulted) (P := fun u => u.cfg = s.cfg)
    (as := List.range 20) (s := rotLoad v s) (fun _ _ u hu => by
      unfold rotationUnlessFaulted
      split
      · exact ⟨u, rfl, hu⟩
      · obtain ⟨t, ht⟩ := pseudoRotation_completes (s := u) (by rw [hu]; exact h)
        exact ⟨t, ht, (pseudoRotation_cfg ht).trans hu⟩) rfl
  exact ⟨t, ht⟩

/-- EMIT(k) pushes its word and advances, or holds. -/
theorem rotEmit_eq (k : Fin 4) (s : State) :
    rotEmit k s = .next (if s.rotOut.length < s.cfg.outDepth then
      { s with rotOut := s.rotOut ++ [rotResponse s.rot k], rot := { s.rot with phase := rotPhaseAfterEmit k } } else s) := by
  unfold rotEmit outPush
  by_cases h : s.rotOut.length < s.cfg.outDepth
  · simp [State.outFifo, State.setOut, h]
  · simp [State.outFifo, h, hold]

end Sys2Proof.Machine
end

