-- ==== Sys2Proof/Laws/Runs.lean ====
section
/-! SUPPORT. What the predicates on runs say (70_reset_and_hazards R241, R251). -/

namespace Sys2Proof.Machine

theorem State.enabled_iff (s : State) (u : UnitId) : s.enabled u = true ↔ s.faulted u = false ∧ s.holds u = false := by
  simp [State.enabled]

theorem State.inTransaction_iff (s : State) (u : UnitId) :
    s.inTransaction u = true ↔ s.idle u = false ∧ s.faulted u = false := by
  simp [State.inTransaction]

theorem State.heldInTransaction_iff (s : State) (u : UnitId) :
    s.heldInTransaction u = true ↔ s.inTransaction u = true ∧ s.holds u = true := by
  simp [State.heldInTransaction]

theorem State.holds_of_input {s : State} {u : UnitId} (h : s.phasePort u = .input) : s.holds u = true ↔ s.inFifo u = [] := by
  simp [State.holds, h]

theorem State.holds_of_output {s : State} {u : UnitId} (h : s.phasePort u = .output) :
    s.holds u = true ↔ s.cfg.outDepth ≤ (s.outFifo u).length := by
  simp [State.holds, h]

theorem State.holds_of_none {s : State} {u : UnitId} (h : s.phasePort u = .none) : s.holds u = false := by
  simp [State.holds, h]

/-- A unit that holds is in no compute phase. -/
theorem State.phasePort_of_holds {s : State} {u : UnitId} (h : s.holds u = true) :
    (s.phasePort u = .input ∧ s.inFifo u = []) ∨
      (s.phasePort u = .output ∧ s.cfg.outDepth ≤ (s.outFifo u).length) := by
  cases hp : s.phasePort u with
  | input => exact .inl ⟨rfl, (State.holds_of_input hp).1 h⟩
  | output => exact .inr ⟨rfl, (State.holds_of_output hp).1 h⟩
  | none => rw [State.holds_of_none hp] at h; cases h

/-- A unit in FAULT is in no transaction and has no enabled step. -/
theorem State.enabled_of_faulted {s : State} {u : UnitId} (h : s.faulted u = true) : s.enabled u = false := by
  simp [State.enabled, h]

/-- What a step of a run is: the turn that is next, taken in a well-formed configuration. -/
theorem step_eq_next {s t : State} : step s = .next t ↔ s.cfg.wf = true ∧ takeTurn (nextTurn s) (nextTick s) = .next t := by
  unfold step
  split <;> simp_all

/-- Every prefix of a run is a run. -/
theorem IsRun.upTo {σ : Nat → State} (h : IsRun σ) (n : Nat) : IsRunUpTo σ n := fun m _ => h m

@[simp] theorem ledger_zero (u : UnitId) (σ : Nat → State) :
    ledger u σ 0 = { accepted := 0, answered := 0, abandoned := 0 } := rfl

@[simp] theorem ledger_succ (u : UnitId) (σ : Nat → State) (n : Nat) :
    ledger u σ (n + 1) = ledgerStep u (σ n) (σ (n + 1)) (ledger u σ n) := rfl

theorem ledgerStep_of_reset {u : UnitId} {s : State} (t : State) (l : Ledger) (h : resetsUnit u s = true) :
    ledgerStep u s t l = { accepted := 0, answered := 0, abandoned := unanswered u l } := by
  simp [ledgerStep, h]

@[simp] theorem runObservation_popped (s : State) : (runObservation s).popped = s.host.seen.filterMap poppedWord := rfl
@[simp] theorem runObservation_rotStatus (s : State) : (runObservation s).rotStatus = statusWord .rot s := rfl
@[simp] theorem runObservation_clsStatus (s : State) : (runObservation s).clsStatus = statusWord .cls s := rfl

end Sys2Proof.Machine
end

