-- ==== Sys2Proof/Tests/Slice0.lean ====
section
/-! SUPPORT. The model's own tests. Expected results are the vectors of spec/95_test_vectors.md, named where they are used.
The theorems `test_hyps_<Statement>` show that the hypotheses of each statement are met, clause by clause. -/

namespace Sys2Proof.Tests

open Sys2Proof.Machine

/-! ### Ill-formed terms (00_scope R9; 30_encoding R103) -/

theorem test_wf_reset_configuration : Config.resetCfg.wf = true := by decide

theorem test_wf_refuses_no_sign_bit : ({ Config.resetCfg with ibits := 0, fbits := 64 } : Cfg).wf = false := by decide

theorem test_wf_refuses_short_split : ({ Config.resetCfg with fbits := 61 } : Cfg).wf = false := by decide

theorem test_wf_refuses_no_neighbour : ({ Config.resetCfg with knnK := 0 } : Cfg).wf = false := by decide

theorem test_wf_refuses_nine_classes : ({ Config.resetCfg with train := List.replicate 9 [0] } : Cfg).wf = false := by decide

theorem test_wf_refuses_long_class :
    ({ Config.resetCfg with train := List.replicate 9 [0] ++ [[0, 0]] } : Cfg).wf = false := by decide

theorem test_wf_refuses_short_atan_table :
    ({ Config.resetCfg with atan := Config.atanDefault.tail } : Cfg).wf = false := by decide

theorem test_wf_refuses_no_input_depth : ({ Config.resetCfg with inDepth := 0 } : Cfg).wf = false := by decide

theorem test_wf_refuses_no_output_depth : ({ Config.resetCfg with outDepth := 0 } : Cfg).wf = false := by decide

theorem test_wf_refuses_reserved_bit : (Instr.classify 0x0002000000000000).wf = false := by decide

/-! ### Decoding: words written out (95_test_vectors 2.1) -/

/-- V-ENC-1. -/
theorem test_decode_rotate : decodeWords .rot [0x885A308D, 0x3243F6A8] = .ok (.rotate 0x3243F6A8885A308D, []) := by decide

/-- V-ENC-3: word 0 all ones, word 1 with bits 16 to 0 set. -/
theorem test_decode_classify : decodeWords .cls [0xFFFFFFFF, 0x0001FFFF] = .ok (.classify 0x0001FFFFFFFFFFFF, []) := by decide

/-- V-ENC-4: bit 17 of word 1 is bit 49 of V. -/
theorem test_decode_refuses_bit_49 : decodeWords .cls [0x00000000, 0x00020000] = .error .reservedBitsSet := by decide

theorem test_table_word_rotate : decodeTableWord 64 0x885A308D3243F6A8 = some (.rotate 0x885A308D3243F6A8) := by decide

theorem test_table_word_classify : decodeTableWord 64 0x7FF = some (.classify 0x7FF) := by decide

/-! ### Helpers -/

/-- The result is a next state that passes the check. -/
def nextIs (o : Result) (p : State → Bool) : Bool :=
  match o with
  | .next s => p s
  | _ => false

theorem exists_next {o : Result} (h : nextIs o (fun _ => true) = true) : ∃ t, o = .next t := by
  cases o with
  | next t => exact ⟨t, rfl⟩
  | fault _ => cases h
  | refused _ => cases h

theorem exists_next_with {o : Result} {p : State → Bool} (h : nextIs o p = true) : ∃ t, o = .next t ∧ p t = true := by
  cases o with
  | next t => exact ⟨t, rfl, h⟩
  | fault _ => cases h
  | refused _ => cases h

/-- The training set T_E of 95_test_vectors 2.8. -/
def trainE : List (List Bitmap) :=
  List.replicate 3 [0xFFFFF, 0xFFFFF] ++ [[0x3FF, 0x7FF]] ++ [[0xFFFFF, 0xFFFFF]] ++ [[0, 0xFFFFFFFFFF]] ++
    List.replicate 4 [0xFFFFF, 0xFFFFF]

/-- The configuration of program P2 with room for P4's responses (95_test_vectors, part 3). -/
def cfgE : Cfg := { Config.resetCfg with knnK := 3, trainN := 2, train := trainE }

def base : State := State.powerOn cfgE

def withRot (p : RotPhase) : State := { base with rot := { base.rot with phase := p } }

def withCls (p : ClsPhase) : State := { base with cls := { base.cls with phase := p } }

def withHost (a : HostAction) : State := { base with host := { todo := [a], seen := [] } }

def emptyTraining : State := State.powerOn { cfgE with trainN := 0, train := List.replicate 10 [] }

/-- KGAIN = 1.3 (V-OVF-1). -/
def bigGain : State := State.powerOn { cfgE with kgain := 0x5333333333333333 }

/-! ### Instructions -/

/-- V-ROT-5. -/
theorem test_rotate_quarter_pi :
    nextIs (exec (.rotate 0x3243F6A8885A308D) base) (fun s =>
      s.rot.cos == 0x2D4137F19E58B02D && s.rot.sin == 0x2D4141A85DD4B9A1 && s.rot.theta == 0xFFFFF9219A87DEB4) = true := by
  decide

/-- V-OVF-1: the values of iteration 1 stay, and STATUS is 3. -/
theorem test_rotate_overflow :
    nextIs (exec (.rotate 0) bigGain) (fun s =>
      s.rot.cos == 0x7CCCCCCCCCCCCCCD && s.rot.sin == 0xD666666666666666 && s.rot.theta == 0x14978FA3269EE125 &&
        statusWord .rot s == 3 && s.faulted .rot) = true := by
  decide

/-- V-CLS-E3: class 3 wins on count although class 5 holds the nearest instance. -/
theorem test_classify_counterexample :
    nextIs (exec (.classify 0) base) (fun s =>
      s.cls.result == 3 && getAt s.cls.kbest 5 == [0, 40, 50] && getAt s.cls.score 3 == 3) = true := by
  decide

/-- V-FLT-5: DegenerateModel is checked before InvalidInput. -/
theorem test_classify_check_order :
    nextIs (exec (.classify 0x0002000000000000) emptyTraining) (fun s => statusWord .cls s == 2) = true := by
  decide

/-- V-ROT-T1 row 1: the sine is computed from the cosine before the iteration (V-ROT-T3). -/
theorem test_iteration_reads_old_values :
    nextIs (takeTurn (.unit .rot .phase)
      { base with
        rot := { base.rot with
          theta := 0x3243F6A8885A308D, cos := 0x26DD3B6A10D796AB, sin := 0xD922C495EF286955, i := 1, phase := .iter } })
      (fun s => s.rot.cos == 0x3A4BD91F19436201 && s.rot.sin == 0xEC91624AF79434AA) = true := by
  decide

/-- V-VOTE-4: a full tie goes to the lowest class. -/
theorem test_decide_full_tie :
    nextIs (takeTurn (.unit .cls .phase)
      { base with
        cls := { base.cls with
          cnt := #v[0, 0, 2, 0, 0, 0, 2, 0, 0, 0], score := #v[0, 0, 5, 0, 0, 0, 5, 0, 0, 0], phase := .decide } })
      (fun s => s.cls.result == 2) = true := by
  decide

/-- V-RST-3. -/
theorem test_reset_of_one_unit :
    nextIs (takeTurn .host { withHost (.reset (.unit .cls)) with rotOut := [5] })
      (fun s => s.rotOut == [5] && s.host.todo == []) = true := by
  decide

/-- The first step after reset runs a placed ROTATE. -/
theorem test_first_step_rotate :
    nextIs (step (State.reset.withFetchWord 64 0xFFFFFFFFFFFFFFFF)) (fun s =>
      s.rot.cos == 0x3FFFFFFFFFCEDDBB && s.rot.sin == 0x000001CC5C61DCF0) = true := by
  decide

/-- The first step after reset runs a placed CLASSIFY. -/
theorem test_first_step_classify :
    nextIs (step (State.reset.withFetchWord 64 0)) (fun s => decide (s.cls.phase = .emit) && s.cls.query == 0) = true := by
  decide

/-! ### The hypotheses of the statements can be met -/

theorem test_hyps_RequestWordOrder : (31 : Nat) < 32 := by decide

theorem test_hyps_PortSelectsOperation :
    (∀ j, 49 ≤ j → j < 64 → (0x0001FFFFFFFFFFFF : Word64).getLsbD j = false) ∧
      ∃ j, 49 ≤ j ∧ j < 64 ∧ (0x0002000000000000 : Word64).getLsbD j = true := by
  refine ⟨fun j h1 h2 => ?_, 49, by decide⟩
  have : ∀ k < 15, (0x0001FFFFFFFFFFFF : Word64).getLsbD (49 + k) = false := by decide
  have := this (j - 49) (by omega)
  rwa [show 49 + (j - 49) = j by omega] at this

theorem test_hyps_DecodeEncodeRoundTrip : (Instr.classify 0x0001FFFFFFFFFFFF).wf = true := by decide

theorem test_hyps_DecodedRequestReencodes : decodeWords .cls [0x7FF, 0, 5] = .ok (.classify 0x7FF, [5]) := by decide

theorem test_hyps_StepRunsDecodedRequest :
    (let s : State := { withRot .haveLo with rotIn := [1, 2], turns := [.unit .rot .whole] };
      s.cfg.wf = true ∧ nextTurn s = .unit .rot .whole ∧ s.rot.phase = .haveLo ∧ s.rotIn = [1, 2] ∧
        decode .rot (requestValue 1 s.rot.lo) = .ok (.rotate 0x0000000100000000)) ∧
    (let s : State := { withCls .haveLo with clsIn := [1, 2], turns := [.unit .cls .whole] };
      s.cfg.wf = true ∧ nextTurn s = .unit .cls .whole ∧ s.cls.phase = .haveLo ∧ s.clsIn = [1, 2] ∧
        decode .cls (requestValue 1 s.cls.lo) = .ok (.classify 0x0000000100000000)) := by
  decide

theorem test_hyps_PlacedWordRunsNext : base.cfg.wf = true ∧ decodeTableWord 64 5 = some (.classify 5) := by decide

theorem test_hyps_IllFormedConfigurationHasNoRun :
    ({ cfgE with knnK := 0 } : Cfg).knnK = 0 ∧
      ((({ cfgE with trainN := 1 } : Cfg).train.map List.length).sum ≠ 10 * 1) ∧
      ({ cfgE with atan := Config.atanDefault.tail } : Cfg).atan.length ≠ 20 := by
  decide

theorem test_hyps_RotTakesFirstWord :
    (base.rot.phase = .idle ∧ base.rotIn = []) ∧ (let s : State := { base with rotIn := [1] };
      s.rot.phase = .idle ∧ s.rotIn = 1 :: []) := by
  decide

theorem test_hyps_RotLoadsAngle :
    ((withRot .haveLo).rot.phase = .haveLo ∧ (withRot .haveLo).rotIn = []) ∧
      (let s : State := { withRot .haveLo with rotIn := [1] };
        s.rot.phase = .haveLo ∧ s.rotIn = 1 :: []) := by
  decide

def withIter (i : Fin 20) : State := { base with rot := { base.rot with i := i, phase := .iter } }

/-- In range at i = 19 and at i = 18 from zeros; out of range at i = 0 from a cosine and a sine of 2^63 − 1. -/
theorem test_hyps_PseudoRotationStep :
    ((withIter 19).rot.phase = .iter ∧ (withIter 19).rot.i = 19 ∧ (withIter 19).cfg.atan[19]? = some 0x000007FFFFFFFFF5) ∧
      (Signed64 (0 + 0x000007FFFFFFFFF5) ∧ Signed64 (0 + 0 / 2 ^ 19) ∧ Signed64 (0 - 0 / 2 ^ 19)) ∧
      ((withIter 18).rot.phase = .iter ∧ (withIter 18).rot.i = 18 ∧ (withIter 18).cfg.atan[18]? = some 0x00000FFFFFFFFFAA) ∧
      ((withIter 0).rot.phase = .iter ∧ (withIter 0).rot.i = 0 ∧ (withIter 0).cfg.atan[0]? = some 0x3243F6A8885A308D) ∧
      ¬(Signed64 (0 + 0x3243F6A8885A308D) ∧ Signed64 ((2 ^ 63 - 1) + (2 ^ 63 - 1) / 2 ^ 0) ∧
        Signed64 ((2 ^ 63 - 1) - (2 ^ 63 - 1) / 2 ^ 0)) := by
  decide

theorem test_hyps_RotEmitsResponse :
    (let s : State := { withRot (.emit 3) with rotOut := [1, 2, 3, 4] };
      s.rot.phase = .emit 3 ∧ s.cfg.outDepth ≤ s.rotOut.length) ∧
    (let s : State := { withRot (.emit 3) with rotOut := [1, 2, 3] };
      s.rot.phase = .emit 3 ∧ s.rotOut.length < s.cfg.outDepth) ∧
    (withRot (.emit 0)).rot.phase = .emit 0 ∧ (withRot (.emit 1)).rot.phase = .emit 1 ∧
      (withRot (.emit 2)).rot.phase = .emit 2 := by
  decide

def isOk (e : Except (Int × Int × Int) (Int × Int × Int)) : Bool :=
  match e with
  | .ok _ => true
  | .error _ => false

theorem exists_ok {e : Except (Int × Int × Int) (Int × Int × Int)} (h : isOk e = true) : ∃ t c z, e = .ok (t, c, z) := by
  cases e with
  | ok x => exact ⟨x.1, x.2.1, x.2.2, rfl⟩
  | error _ => cases h

theorem exists_error {e : Except (Int × Int × Int) (Int × Int × Int)} (h : isOk e = false) :
    ∃ t c z, e = .error (t, c, z) := by
  cases e with
  | ok _ => cases h
  | error x => exact ⟨x.1, x.2.1, x.2.2, rfl⟩

theorem test_hyps_RotateComputesItsFunction :
    base.cfg.wf = true ∧ ∃ t c z, Functions.rotate base.cfg 0x8000000000000000 = .ok (t, c, z) :=
  ⟨by decide, exists_ok (by decide)⟩

theorem test_hyps_RotateOverflowFaults :
    bigGain.cfg.wf = true ∧ ∃ t c z, Functions.rotate bigGain.cfg 0 = .error (t, c, z) :=
  ⟨by decide, exists_error (by decide)⟩

theorem test_hyps_DefaultTablesNeverOverflow : base.cfg.wf = true ∧ DefaultTables base.cfg := by decide

theorem test_hyps_RotateZeroResult : base.cfg.wf = true ∧ DefaultTables base.cfg := by decide

/-- The least angle above the sum, and the greatest. -/
theorem test_hyps_RotateBeyondConvergence :
    base.cfg.wf = true ∧ DefaultTables base.cfg ∧
      (Config.atanDefault.map fun a : Word64 => a.toInt).sum < (0x6F921E20E7C325BC : Word64).toInt ∧
      (Config.atanDefault.map fun a : Word64 => a.toInt).sum < (0x7FFFFFFFFFFFFFFF : Word64).toInt := by
  decide

theorem test_hyps_RotateDependsOnTablesOnly :
    base.cfg.atan = State.reset.cfg.atan ∧ base.cfg.kgain = State.reset.cfg.kgain ∧
      ∃ t, exec (.rotate 0) base = .next t :=
  ⟨by decide, by decide, exists_next (by decide)⟩

theorem test_hyps_RotateTransaction :
    (let s : State := { base with rotIn := [0, 0], turns := List.replicate 6 (.unit .rot .whole) ++ [] };
      s.cfg.wf = true ∧ s.rot.phase = .idle ∧ s.rotIn = 0 :: 0 :: [] ∧ s.rotOut.length + 4 ≤ s.cfg.outDepth ∧
        s.turns = List.replicate 6 (.unit .rot .whole) ++ []) ∧
    ∃ t c z, Functions.rotate base.cfg ((0 : Word32) ++ (0 : Word32)) = .ok (t, c, z) :=
  ⟨by decide, exists_ok (by decide)⟩

theorem test_hyps_RotPhasesEqualWhole :
    (withRot .haveLo).cfg.wf = true ∧ (withRot .haveLo).rot.phase = .haveLo := by
  decide

theorem test_hyps_ClsTakesFirstWord :
    (base.cls.phase = .idle ∧ base.clsIn = []) ∧ (let s : State := { base with clsIn := [1] };
      s.cls.phase = .idle ∧ s.clsIn = 1 :: []) := by
  decide

theorem test_hyps_ClsChecksRequest :
    ((withCls .haveLo).cls.phase = .haveLo ∧ (withCls .haveLo).clsIn = []) ∧
      (let s : State := { withCls .haveLo with clsIn := [1] };
        s.cls.phase = .haveLo ∧ s.clsIn = 1 :: []) ∧
      (let s : State := { emptyTraining with cls := { emptyTraining.cls with phase := .check 0 } };
        s.cls.phase = .check 0 ∧ s.cfg.trainN = 0) ∧
      ((withCls (.check 0x0002000000000000)).cls.phase = .check 0x0002000000000000 ∧
        (withCls (.check 0x0002000000000000)).cfg.trainN ≠ 0 ∧
        (0x0002000000000000 : Word64).extractLsb' 49 15 ≠ (0 : BitVec 15)) ∧
      ((withCls (.check 0x0001FFFFFFFFFFFF)).cls.phase = .check 0x0001FFFFFFFFFFFF ∧
        (withCls (.check 0x0001FFFFFFFFFFFF)).cfg.trainN ≠ 0 ∧
        (0x0001FFFFFFFFFFFF : Word64).extractLsb' 49 15 = (0 : BitVec 15)) := by
  decide

theorem test_hyps_ClsInitialisesKbest : (withCls .init).cls.phase = .init := by decide

theorem test_hyps_InsertionDropsLargest : Ascending [3, 5, 7] := by decide

theorem test_hyps_KbestHoldsKSmallest :
    (∀ d ∈ ([7, 3, 49, 3, 1] : List Sys2Proof.Dist), d.toNat ≤ 49) ∧
      List.Perm ([7, 3, 49, 3, 1] : List Sys2Proof.Dist) [3, 7, 49, 3, 1] := by
  decide

/-- The three cases at their boundaries: t = 0 of 2; t = 1 of class 8; t = 1 of class 9. -/
theorem test_hyps_ClsUpdatesOneClass :
    ((withCls (.update 9 0)).cls.phase = .update 9 0 ∧ base.cfg.train[9]? = some [0xFFFFF, 0xFFFFF] ∧
      ([0xFFFFF, 0xFFFFF] : List Bitmap)[0]? = some 0xFFFFF ∧ 0 + 1 < base.cfg.trainN) ∧
    ((withCls (.update 8 1)).cls.phase = .update 8 1 ∧ base.cfg.train[8]? = some [0xFFFFF, 0xFFFFF] ∧
      ([0xFFFFF, 0xFFFFF] : List Bitmap)[1]? = some 0xFFFFF ∧ 1 + 1 = base.cfg.trainN ∧ (8 : ClassIdx).val < 9) ∧
    ((withCls (.update 9 1)).cls.phase = .update 9 1 ∧ 1 + 1 = base.cfg.trainN ∧ (9 : ClassIdx).val = 9) ∧
    (let kb := setAt base.cls.kbest 9 (insertDist (getAt base.cls.kbest 9) (hamming base.cls.query 0xFFFFF));
      getAt kb 9 = insertDist (getAt base.cls.kbest 9) (hamming base.cls.query 0xFFFFF) ∧
        ∀ b : ClassIdx, b ≠ 9 → getAt kb b = getAt base.cls.kbest b) := by
  decide

/-- A first round, and a last one. -/
theorem test_hyps_VoteRoundPicksSmallest :
    ((withCls (.vote 0)).cls.phase = .vote 0 ∧ 0 < base.cfg.knnK ∧ 0 + 1 < base.cfg.knnK) ∧
    ((withCls (.vote 2)).cls.phase = .vote 2 ∧ 2 < base.cfg.knnK ∧ 2 + 1 = base.cfg.knnK) ∧
    ∀ c : ClassIdx, (getAt base.cls.kbest c)[getAt base.cls.ptr c]? = some ((fun _ => 0 : ClassIdx → Sys2Proof.Dist) c) := by
  decide

theorem test_hyps_DecisionOrder : (withCls .decide).cls.phase = .decide := by decide

theorem test_hyps_ClsEmitsResponse :
    (let s : State := { withCls .emit with clsOut := [1, 2, 3, 4] };
      s.cls.phase = .emit ∧ s.cfg.outDepth ≤ s.clsOut.length) ∧
    (let s : State := { withCls .emit with clsOut := [1, 2, 3] };
      s.cls.phase = .emit ∧ s.clsOut.length < s.cfg.outDepth) := by
  decide

theorem test_hyps_VoteCountsNearestNeighbours :
    1 ≤ base.cfg.knnK ∧
      (∀ c : ClassIdx, (getAt base.cls.kbest c).length = base.cfg.knnK ∧ Ascending (getAt base.cls.kbest c)) ∧
      (∀ c : ClassIdx, (fun _ => [0, 0, 0] : ClassIdx → List Nat) c = (getAt base.cls.kbest c).map (·.toNat)) ∧
      ∀ c : ClassIdx, getAt base.cls.ptr c = 0 ∧ getAt base.cls.cnt c = 0 ∧ getAt base.cls.score c = 0 := by
  decide

theorem test_hyps_ClassifyComputesItsFunction :
    base.cfg.wf = true ∧ base.cfg.trainN ≠ 0 ∧ (0x7FF : Word64).extractLsb' 49 15 = (0 : BitVec 15) ∧
      (0x7FF : Bitmap) = (0x7FF : Word64).extractLsb' 0 49 := by
  decide

theorem test_hyps_ClassifyCompletes :
    base.cfg.wf = true ∧ base.cfg.trainN ≠ 0 ∧
      (0x0001FFFFFFFFFFFF : Word64).extractLsb' 49 15 = (0 : BitVec 15) := by
  decide

theorem test_hyps_ClassifyFaults :
    emptyTraining.cfg.trainN = 0 ∧ base.cfg.trainN ≠ 0 ∧
      (0x0002000000000000 : Word64).extractLsb' 49 15 ≠ (0 : BitVec 15) := by
  decide

theorem test_hyps_MalformedRequestFaultsWhenFetched :
    (let s : State := { withCls .haveLo with clsIn := [0x00020000] };
      s.cls.phase = .haveLo ∧ s.clsIn = 0x00020000 :: [] ∧
        ((0x00020000 : Word32) ++ s.cls.lo).extractLsb' 49 15 ≠ (0 : BitVec 15) ∧ s.cfg.trainN ≠ 0) ∧
    (let s : State :=
        { emptyTraining with clsIn := [0x00020000], cls := { emptyTraining.cls with phase := .haveLo } };
      s.cls.phase = .haveLo ∧ s.clsIn = 0x00020000 :: [] ∧ s.cfg.trainN = 0) := by
  decide

theorem test_hyps_VoteBounds :
    base.cfg.wf = true ∧ ∃ t, exec (.classify 0) base = .next t ∧ decide (t.cls.phase = .emit) = true :=
  ⟨by decide, exists_next_with (by decide)⟩

theorem test_hyps_OneNearestNeighbour :
    State.reset.cfg.wf = true ∧ State.reset.cfg.knnK = 1 ∧ State.reset.cfg.trainN ≠ 0 ∧
      (5 : Word64).extractLsb' 49 15 = (0 : BitVec 15) := by
  decide

theorem test_hyps_ClassifyTransaction :
    (let s : State := { base with clsIn := [0x7FF, 0], turns := List.replicate 3 (.unit .cls .whole) ++ [] };
      s.cfg.wf = true ∧ s.cfg.trainN ≠ 0 ∧ ((0 : Word32) ++ (0x7FF : Word32)).extractLsb' 49 15 = (0 : BitVec 15) ∧
        s.cls.phase = .idle ∧ s.clsIn = 0x7FF :: 0 :: [] ∧ s.clsOut.length + 1 ≤ s.cfg.outDepth ∧
        s.turns = List.replicate 3 (.unit .cls .whole) ++ []) := by
  decide

theorem test_hyps_ClsPhasesEqualWhole :
    (withCls .haveLo).cfg.wf = true ∧ (withCls .haveLo).cls.phase = .haveLo := by
  decide

theorem test_hyps_InstructionFrames :
    (∃ t, exec (.rotate 0) base = .next t) ∧ ∃ t, exec (.classify 0) base = .next t :=
  ⟨exists_next (by decide), exists_next (by decide)⟩

def faulted : State :=
  { base with
    rot := { base.rot with phase := .fault, cause := .arithOverflow }
    cls := { base.cls with phase := .fault, cause := .invalidInput } }

theorem test_hyps_FaultIsStickyUntilReset :
    faulted.faulted .rot = true ∧ faulted.faulted .cls = true ∧
      ∃ t, takeTurn .host { faulted with host := { todo := [.reset (.unit .cls)], seen := [] } } = .next t :=
  ⟨by decide, by decide, exists_next (by decide)⟩

theorem test_hyps_HostServesFaultedUnit :
    faulted.faulted .cls = true ∧
      (let s : State := { faulted with clsIn := [1], clsOut := [3] };
        (s.inFifo .cls).length < s.cfg.inDepth ∧ s.outFifo .cls = 3 :: []) ∧
      ({ faulted with host := { todo := [.push .cls 7], seen := [] } } : State).host.todo = .push .cls 7 :: [] ∧
      ({ faulted with host := { todo := [.pop .cls 0], seen := [] } } : State).host.todo = .pop .cls 0 :: [] ∧
      ({ faulted with host := { todo := [.status .cls 0], seen := [] } } : State).host.todo = .status .cls 0 :: [] := by
  decide

theorem test_hyps_UnitsShareNoState :
    (∃ t, takeTurn (.unit .rot .phase) { base with rotIn := [1] } = .next t) ∧
      ∃ t, takeTurn (.unit .cls .whole) { withCls .haveLo with clsIn := [0] } = .next t :=
  ⟨exists_next (by decide), exists_next (by decide)⟩

theorem test_hyps_UnitTurnsCommute :
    ∃ s₁ s₂, takeTurn (.unit .rot .phase) { base with rotIn := [1], clsIn := [2] } = .next s₁ ∧
      takeTurn (.unit .cls .phase) s₁ = .next s₂ := by
  exact ⟨{ base with clsIn := [2], rot := { base.rot with lo := 1, phase := .haveLo } },
    { base with
      rot := { base.rot with lo := 1, phase := .haveLo }
      cls := { base.cls with lo := 2, phase := .haveLo } }, rfl, rfl⟩

/-- One word short of full, and full. -/
theorem test_hyps_HostPushes :
    (withHost (.push .rot 7)).host.todo = .push .rot 7 :: [] ∧
      (let s : State := { withHost (.push .rot 7) with rotIn := [1] };
        (s.inFifo .rot).length < s.cfg.inDepth) ∧
      (let s : State := { withHost (.push .rot 7) with rotIn := [1, 2] };
        s.cfg.inDepth ≤ (s.inFifo .rot).length) := by
  decide

theorem test_hyps_HostPops :
    (withHost (.pop .cls 4)).host.todo = .pop .cls 4 :: [] ∧ (withHost (.pop .cls 4)).outFifo .cls = [] ∧
      ({ withHost (.pop .cls 4) with clsOut := [9] } : State).outFifo .cls = 9 :: [] := by
  decide

theorem test_hyps_StatusWordShowsCause :
    Invariant faulted ∧ (withHost (.status .rot 1)).host.todo = .status .rot 1 :: [] := by
  decide

theorem test_hyps_ResetActsOnNamedUnits :
    (withHost (.reset .all)).host.todo = .reset .all :: [] ∧
      (withHost (.reset (.unit .rot))).host.todo = .reset (.unit .rot) :: [] ∧
      (withHost (.reset (.unit .cls))).host.todo = .reset (.unit .cls) :: [] := by
  decide

theorem test_hyps_PowerOnIsLaunchState : faulted.cfg.wf = true := by decide

theorem test_hyps_HostSeesPortsAndStatusOnly :
    (let s : State := { withHost (.push .rot 7) with rotIn := [1] };
      let s' : State := { withHost (.push .rot 7) with rotIn := [2], rot := { base.rot with theta := 5 } };
      s.host = s'.host ∧ s.cfg = s'.cfg ∧ s.rotOut = s'.rotOut ∧ s.clsOut = s'.clsOut ∧
        s.rotIn.length = s'.rotIn.length ∧ s.clsIn.length = s'.clsIn.length ∧ s.rot.cause = s'.rot.cause ∧
        s.cls.cause = s'.cls.cause) ∧
    ∃ t, takeTurn .host { withHost (.push .rot 7) with rotIn := [1] } = .next t :=
  ⟨by decide, exists_next (by decide)⟩

theorem test_hyps_BackPressureDeadlock :
    (let s : State := { withRot (.emit 0) with
        rotIn := [1, 2], rotOut := [1, 2, 3, 4], host := { todo := [.push .rot 7], seen := [] } };
      s.rot.phase = .emit 0 ∧ s.cfg.outDepth ≤ (s.outFifo .rot).length ∧ s.cfg.inDepth ≤ (s.inFifo .rot).length ∧
        s.host.todo = .push .rot 7 :: []) ∧
    (let s : State := { withCls .emit with
        clsIn := [1, 2], clsOut := [1, 2, 3, 4], host := { todo := [.push .cls 7], seen := [] } };
      s.cls.phase = .emit ∧ s.cfg.outDepth ≤ (s.outFifo .cls).length ∧ s.cfg.inDepth ≤ (s.inFifo .cls).length ∧
        s.host.todo = .push .cls 7 :: []) := by
  decide

/-- V-FIFO-1: half a request, and no host action left, is stuck, although CLS still has a step. The same in EMIT. -/
theorem test_hyps_BackPressureDeadlock_stuck :
    (let s : State := { withRot .haveLo with clsIn := [1] };
      s.host.todo = [] ∧ s.heldInTransaction .rot = true ∧ s.enabled .cls = true) ∧
    (let s : State := { withCls .emit with clsOut := [1, 2, 3, 4] };
      s.host.todo = [] ∧ s.heldInTransaction .cls = true) := by
  decide

theorem test_hyps_FifosKeepOrder : ∃ t, takeTurn .host { withHost (.push .rot 7) with rotIn := [1] } = .next t :=
  exists_next (by decide)

theorem test_hyps_ConfigurationNeverChanges :
    ∃ t, step { base with rotIn := [1], turns := [.unit .rot .phase] } = .next t :=
  exists_next (by decide)

theorem test_hyps_RotPhaseAdvances :
    (∃ t, takeTurn (.unit .rot .phase) (withIter 19) = .next t) ∧
      (∃ t, takeTurn (.unit .cls .whole) base = .next t) ∧
      ∃ t, takeTurn .host (withHost (.reset .all)) = .next t :=
  ⟨exists_next (by decide), exists_next (by decide), exists_next (by decide)⟩

theorem test_hyps_ClsPhaseAdvances :
    Invariant (withCls (.update 9 1)) ∧ (∃ t, takeTurn (.unit .cls .phase) (withCls (.update 9 1)) = .next t) ∧
      (∃ t, takeTurn (.unit .rot .whole) (withCls (.update 9 1)) = .next t) ∧
      Invariant (withHost (.reset .all)) ∧ ∃ t, takeTurn .host (withHost (.reset .all)) = .next t :=
  ⟨by decide, exists_next (by decide), exists_next (by decide), by decide, exists_next (by decide)⟩

theorem test_hyps_TransactionsFinish :
    (let s := withRot (.emit 3);
      Invariant s ∧ s.rot.phase ≠ .idle ∧ s.rot.phase ≠ .fault ∧ s.rot.phase ≠ .haveLo ∧
        s.rotOut.length < s.cfg.outDepth) ∧
    (let s : State := { withRot .haveLo with rotIn := [1] };
      Invariant s ∧ s.rot.phase ≠ .idle ∧ s.rot.phase ≠ .fault ∧ s.rotIn ≠ []) ∧
    (let s := withCls (.update 9 1);
      Invariant s ∧ s.cls.phase ≠ .idle ∧ s.cls.phase ≠ .fault ∧ s.cls.phase ≠ .haveLo ∧ s.cls.phase ≠ .emit) ∧
    (let s : State := { withCls .haveLo with clsIn := [1] };
      Invariant s ∧ s.cls.phase ≠ .idle ∧ s.cls.phase ≠ .fault ∧ s.clsIn ≠ []) := by
  refine ⟨⟨?_, ?_⟩, ⟨?_, ?_⟩, ⟨?_, ?_⟩, ?_, ?_⟩ <;> decide

/-- A run in which ROT pushes its last response word, and then no unit has an enabled step. -/
def finishingRun : Nat → State
  | 0 => { withRot (.emit 3) with turns := [.unit .rot .phase] }
  | n + 1 => { base with rotOut := [0], tick := n + 1 }

theorem test_hyps_TransactionsFinish_run :
    IsRun finishingRun ∧ WeaklyFair .rot finishingRun ∧ Invariant (finishingRun 0) ∧
      (finishingRun 0).inTransaction .rot = true ∧
      ∀ m : Nat, 0 ≤ m → (finishingRun m).inTransaction .rot = true → (finishingRun m).enabled .rot = true := by
  refine ⟨fun n => ?_, fun n h => ?_, by decide, by decide, fun m _ h => ?_⟩
  · cases n with
    | zero => rfl
    | succ n =>
      have hw : (finishingRun (n + 1)).cfg.wf = true := by
        show cfgE.wf = true
        decide
      have hn : nextTurn (finishingRun (n + 1)) = Config.freeTurn (n + 1) := rfl
      rw [step, hw, hn, if_pos rfl]
      cases Config.freeTurn (n + 1) with
      | host => rfl
      | unit u g => cases u <;> rfl
  · have h1 := h (n + 1) (by omega)
    have h0 : (finishingRun (n + 1)).enabled .rot = false := rfl
    rw [h0] at h1
    cases h1
  · cases m with
    | zero => rfl
    | succ m => cases h

/-- R241: a reset leaves the request it abandons unanswered (V-RST-1); the words popped and the STATUS words are observed. -/
theorem test_reset_abandons_request :
    (let s : State := { withHost (.reset .all) with turns := [.host] };
      unanswered .rot (ledgerStep .rot s s { accepted := 2, answered := 0, abandoned := 0 }) = 1 ∧
        unanswered .rot (ledgerStep .rot s s { accepted := 2, answered := 4, abandoned := 0 }) = 0) ∧
    runObservation { faulted with host := { todo := [], seen := [.popped .rot 0 7, .status .cls 1 1] } } =
      { popped := [(.rot, 7)], rotStatus := 3, clsStatus := 1 } := by
  decide

/-- A run of one state with nothing pushed ends at once; it is settled. -/
theorem test_end_of_empty_run : EndOfRun (fun _ => base) 0 ∧ Settled base := by decide

theorem test_hyps_ResetMeetsInvariant : cfgE.wf = true := by decide

theorem test_hyps_StepKeepsInvariant :
    Invariant { withCls (.update 9 1) with turns := [.unit .cls .phase] } ∧
      ∃ t, step { withCls (.update 9 1) with turns := [.unit .cls .phase] } = .next t :=
  ⟨by decide, exists_next (by decide)⟩

theorem test_hyps_InvariantStatesNeverStop : Invariant faulted := by decide

end Sys2Proof.Tests
end

/-! The ranking of all neighbours, nearest first, and how it restricts to one class (42_knn_vote R180, R182). -/

namespace Sys2Proof.Functions

/-- Every entry of the ten k-best arrays with its class, the nearest first: what `nearest` takes its neighbours from. -/
def ranked (kb : ClassIdx → List Nat) : List (Nat × Nat) :=
  ((List.finRange 10).flatMap fun c => (kb c).map fun d => (d, c.val)).insertionSort nearer

theorem nearest_eq_take_ranked (k : Nat) (kb : ClassIdx → List Nat) : nearest k kb = (ranked kb).take k := rfl

theorem nearer_antisymm {a b : Nat × Nat} (hab : nearer a b) (hba : nearer b a) : a = b := by
  unfold nearer at hab hba
  exact Prod.ext (by omega) (by omega)

theorem ranked_perm (kb : ClassIdx → List Nat) :
    (ranked kb).Perm ((List.finRange 10).flatMap fun c => (kb c).map fun d => (d, c.val)) :=
  List.perm_insertionSort _ _

theorem ranked_pairwise (kb : ClassIdx → List Nat) : (ranked kb).Pairwise nearer := by
  have total : Std.Total nearer := ⟨fun a b => by unfold nearer; omega⟩
  have trans : IsTrans (Nat × Nat) nearer := ⟨fun a b c => by unfold nearer; omega⟩
  exact List.pairwise_insertionSort nearer _

/-- A ranked neighbour names a class. -/
theorem class_of_mem_ranked {kb : ClassIdx → List Nat} {n : Nat × Nat} (h : n ∈ ranked kb) :
    ∃ b : ClassIdx, n.2 = b.val := by
  obtain ⟨b, -, hb⟩ := List.mem_flatMap.1 ((ranked_perm kb).mem_iff.1 h)
  obtain ⟨d, -, rfl⟩ := List.mem_map.1 hb
  exact ⟨b, rfl⟩

/-- Of the entries listed class by class, those of class c are its array. -/
theorem filter_class_flatMap (kb : ClassIdx → List Nat) (c : ClassIdx) :
    ((List.finRange 10).flatMap fun b => (kb b).map fun d => (d, b.val)).filter (fun n => n.2 == c.val) =
      (kb c).map fun d => (d, c.val) := by
  have other (b : ClassIdx) (hb : b ≠ c) :
      ((kb b).map fun d => (d, b.val)).filter (fun n => n.2 == c.val) = [] := by
    simpa using fun _ _ => Fin.val_ne_of_ne hb
  have own : ((kb c).map fun d => (d, c.val)).filter (fun n => n.2 == c.val) = (kb c).map fun d => (d, c.val) := by
    simp
  obtain ⟨before, after, split⟩ := List.append_of_mem (List.mem_finRange c)
  have nodup := List.nodup_finRange 10
  rw [split, List.nodup_middle, List.nodup_cons, List.mem_append, not_or] at nodup
  obtain ⟨⟨hbefore, hafter⟩, -⟩ := nodup
  have none (l : List ClassIdx) (hl : c ∉ l) :
      (l.flatMap fun b => ((kb b).map fun d => (d, b.val)).filter (fun n => n.2 == c.val)) = [] :=
    List.flatMap_eq_nil_iff.2 fun b hb => other b (ne_of_mem_of_not_mem hb hl)
  rw [List.filter_flatMap, split, List.flatMap_append, List.flatMap_cons, none _ hbefore, none _ hafter, own]
  simp

/-- The ranking holds each ascending array, in its order. -/
theorem filter_class_ranked {kb : ClassIdx → List Nat} {c : ClassIdx} (asc : (kb c).Pairwise (· ≤ ·)) :
    (ranked kb).filter (fun n => n.2 == c.val) = (kb c).map fun d => (d, c.val) := by
  have perm := (ranked_perm kb).filter fun n => n.2 == c.val
  rw [filter_class_flatMap] at perm
  refine perm.eq_of_pairwise (fun _ _ _ _ => nearer_antisymm) ((ranked_pairwise kb).filter _) ?_
  exact List.pairwise_map.2 (asc.imp fun hde => (Nat.lt_or_eq_of_le hde).imp_right fun e => ⟨e, le_rfl⟩)

theorem length_le_length_ranked {kb : ClassIdx → List Nat} {c : ClassIdx} (asc : (kb c).Pairwise (· ≤ ·)) :
    (kb c).length ≤ (ranked kb).length := by
  simpa [filter_class_ranked asc] using List.length_filter_le (fun n => n.2 == c.val) (ranked kb)

/-- Past the neighbours `pre`, the entry of class c at the number of its neighbours in `pre` is the first one of class c in
the rest of the ranking. -/
theorem getElem?_countOf_eq_find? {kb : ClassIdx → List Nat} {pre rest : List (Nat × Nat)} (c : ClassIdx)
    (asc : (kb c).Pairwise (· ≤ ·)) (split : ranked kb = pre ++ rest) :
    ((kb c)[countOf pre c]?).map (fun d => (d, c.val)) = rest.find? fun n => n.2 == c.val := by
  rw [← List.getElem?_map, ← filter_class_ranked asc, split, List.filter_append, countOf, List.countP_eq_length_filter,
    List.getElem?_append_right le_rfl, Nat.sub_self, ← List.head?_eq_getElem?, List.head?_filter]

/-- The next neighbour in the ranking is the next entry of its class's array. -/
theorem getElem?_countOf_of_ranked_next {kb : ClassIdx → List Nat} {pre post : List (Nat × Nat)} {d : Nat} {b : ClassIdx}
    (asc : (kb b).Pairwise (· ≤ ·)) (split : ranked kb = pre ++ (d, b.val) :: post) :
    (kb b)[countOf pre b]? = some d := by
  have h := getElem?_countOf_eq_find? b asc split
  simpa using h

/-- The next neighbour in the ranking is nearer than the next entry of every class's array. -/
theorem nearer_of_ranked_next {kb : ClassIdx → List Nat} {pre post : List (Nat × Nat)} {n : Nat × Nat} {c : ClassIdx}
    {e : Nat} (asc : (kb c).Pairwise (· ≤ ·)) (split : ranked kb = pre ++ n :: post)
    (entry : (kb c)[countOf pre c]? = some e) : nearer n (e, c.val) := by
  have h := getElem?_countOf_eq_find? c asc split
  rw [entry] at h
  have sorted := ranked_pairwise kb
  rw [split] at sorted
  obtain ⟨-, sorted, -⟩ := List.pairwise_append.1 sorted
  obtain ⟨first, -⟩ := List.pairwise_cons.1 sorted
  rcases List.mem_cons.1 (List.mem_of_find?_eq_some h.symm) with same | later
  · rw [← same]
    exact .inr ⟨rfl, le_rfl⟩
  · exact first _ later

/-! Counts and scores grow by one neighbour -/

@[simp] theorem countOf_nil (c : ClassIdx) : countOf [] c = 0 := rfl

@[simp] theorem scoreOf_nil (k : Nat) (c : ClassIdx) : scoreOf k [] c = 0 := rfl

theorem countOf_le_length (ns : List (Nat × Nat)) (c : ClassIdx) : countOf ns c ≤ ns.length := List.countP_le_length

theorem countOf_append_singleton (ns : List (Nat × Nat)) (d : Nat) (b c : ClassIdx) :
    countOf (ns ++ [(d, b.val)]) c = if c = b then countOf ns b + 1 else countOf ns c := by
  by_cases h : c = b
  · simp [countOf, h]
  · simp [countOf, h, Fin.val_ne_of_ne (Ne.symm h)]

theorem scoreOf_append_singleton (k : Nat) (ns : List (Nat × Nat)) (d : Nat) (b c : ClassIdx) :
    scoreOf k (ns ++ [(d, b.val)]) c = if c = b then scoreOf k ns b + (k - ns.length) else scoreOf k ns c := by
  by_cases h : c = b
  · simp [scoreOf, List.zipIdx_append, h]
  · simp [scoreOf, List.zipIdx_append, h, Fin.val_ne_of_ne (Ne.symm h)]

end Sys2Proof.Functions

/-! The vote rounds walk the ranking of all neighbours (42_knn_vote R180 to R183). -/

namespace Sys2Proof.Machine

open Functions

@[simp] theorem getAt_ofFn {α : Type} (f : ClassIdx → α) (c : ClassIdx) : getAt (Vector.ofFn f) c = f c := by
  simp [getAt, Vector.get_eq_getElem]

/-- The phase once r vote rounds are done. -/
def phaseAfterRounds (s : State) : Nat → ClsPhase
  | 0 => s.cls.phase
  | r + 1 => clsPhaseAfterVote s.cfg r

/-- s with the tallies and the phase of the vote rounds that the neighbours `ns` won, in this order. -/
def votedFor (s : State) (ns : List (Nat × Nat)) : State :=
  { s with
    cls := { s.cls with
      ptr := Vector.ofFn (countOf ns)
      cnt := Vector.ofFn (countOf ns)
      score := Vector.ofFn (scoreOf s.cfg.knnK ns)
      phase := phaseAfterRounds s ns.length } }

theorem votedFor_nil {s : State} (zero : ∀ c, getAt s.cls.ptr c = 0 ∧ getAt s.cls.cnt c = 0 ∧ getAt s.cls.score c = 0) :
    votedFor s [] = s := by
  have writeBack {ptr cnt score : PerClass Nat} (hptr : ptr = s.cls.ptr) (hcnt : cnt = s.cls.cnt)
      (hscore : score = s.cls.score) : { s with cls := { s.cls with ptr := ptr, cnt := cnt, score := score } } = s := by
    rw [hptr, hcnt, hscore]
  exact writeBack (perClass_ext fun c => by simp [(zero c).1]) (perClass_ext fun c => by simp [(zero c).2.1])
    (perClass_ext fun c => by simp [(zero c).2.2])

/-- A class whose entry is the nearest of all heads, the lowest class on ties, is the one a round picks. -/
theorem votePick_eq_of_nearer {heads : PerClass Dist} {b : ClassIdx}
    (h : ∀ c, nearer ((getAt heads b).toNat, b.val) ((getAt heads c).toNat, c.val)) : votePick heads = b := by
  obtain ⟨le, lt⟩ := votePick_smallest heads b
  have picked : nearer ((getAt heads (votePick heads)).toNat, (votePick heads).val) ((getAt heads b).toNat, b.val) := by
    by_cases hb : b < votePick heads
    · exact .inl (lt hb)
    · exact (Nat.lt_or_eq_of_le le).imp_right fun e => ⟨e, not_lt.1 hb⟩
  exact Fin.ext (congrArg Prod.snd (nearer_antisymm picked (h _)))

section Rounds

variable {s : State} {kb : ClassIdx → List Nat}
  (arrays : ∀ c, (getAt s.cls.kbest c).length = s.cfg.knnK ∧ Ascending (getAt s.cls.kbest c))
  (entries : ∀ c, kb c = (getAt s.cls.kbest c).map (·.toNat))

include arrays entries

theorem kb_pairwise (c : ClassIdx) : (kb c).Pairwise (· ≤ ·) := by
  rw [entries c]
  exact List.pairwise_map.2 (arrays c).2

/-- The round after those of `pre` is won by the next neighbour of the ranking. -/
theorem clsVote_votedFor {pre post : List (Nat × Nat)} {d : Nat} {b : ClassIdx}
    (split : ranked kb = pre ++ (d, b.val) :: post) (hlt : pre.length < s.cfg.knnK) :
    clsVote pre.length (votedFor s pre) = .next (votedFor s (pre ++ [(d, b.val)])) := by
  obtain ⟨heads, hheads⟩ := voteHeads_of_lt (r := (votedFor s pre).cls) fun c => by
    have := countOf_le_length pre c
    simp only [votedFor, getAt_ofFn, (arrays c).1]
    omega
  have head (c : ClassIdx) : (kb c)[countOf pre c]? = some (getAt heads c).toNat := by
    have := voteHead_eq_ok.1 (voteHeads_eq_ok.1 hheads c)
    simp only [votedFor, getAt_ofFn] at this
    rw [entries c, List.getElem?_map, this]
    rfl
  have asc := kb_pairwise arrays entries
  have pick : votePick heads = b := votePick_eq_of_nearer fun c => by
    have hd := getElem?_countOf_of_ranked_next (asc b) split
    rw [head b, Option.some_inj] at hd
    rw [hd]
    exact nearer_of_ranked_next (asc c) split (head c)
  have hcnt : setAt (Vector.ofFn (countOf pre)) b (countOf pre b + 1) = Vector.ofFn (countOf (pre ++ [(d, b.val)])) :=
    perClass_ext fun c => by simp [getAt_setAt, countOf_append_singleton]
  have hscore : setAt (Vector.ofFn (scoreOf s.cfg.knnK pre)) b (scoreOf s.cfg.knnK pre b + (s.cfg.knnK - pre.length)) =
      Vector.ofFn (scoreOf s.cfg.knnK (pre ++ [(d, b.val)])) :=
    perClass_ext fun c => by simp [getAt_setAt, scoreOf_append_singleton]
  rw [clsVote, hheads, withRead_ok]
  simp [pick, votedFor, hcnt, hscore, phaseAfterRounds]

/-- The first r rounds are won by the first r neighbours of the ranking. -/
theorem forEach_clsVote_range
    (zero : ∀ c, getAt s.cls.ptr c = 0 ∧ getAt s.cls.cnt c = 0 ∧ getAt s.cls.score c = 0) (r : Nat)
    (hr : r ≤ s.cfg.knnK) : forEach clsVote (List.range r) s = .next (votedFor s ((ranked kb).take r)) := by
  induction r with
  | zero => simp [votedFor_nil zero]
  | succ r ih =>
    have hlen : r < (ranked kb).length := by
      have := length_le_length_ranked (kb_pairwise arrays entries 0)
      rw [entries 0, List.length_map, (arrays 0).1] at this
      omega
    obtain ⟨b, hb⟩ := class_of_mem_ranked (List.getElem_mem hlen)
    have next : (ranked kb)[r] = ((ranked kb)[r].1, b.val) := Prod.ext rfl hb
    have split : ranked kb = (ranked kb).take r ++ ((ranked kb)[r].1, b.val) :: (ranked kb).drop (r + 1) := by
      rw [← next, ← List.drop_eq_getElem_cons hlen, List.take_append_drop]
    have len : ((ranked kb).take r).length = r := List.length_take_of_le hlen.le
    have round := clsVote_votedFor arrays entries split (by omega)
    rw [len, ← next, List.take_append_getElem] at round
    rw [List.range_succ, forEach_append, ih (by omega), andThen_next, forEach_cons, round, andThen_next, forEach_nil]

end Rounds

/-- Settles O32: each round is won by the next neighbour of the ranking, by induction on the rounds. -/
theorem voteCountsNearestNeighbours : Obligations.VoteCountsNearestNeighbours := by
  unfold Obligations.VoteCountsNearestNeighbours
  intro s kb hk arrays entries zero
  have hlen : ((ranked kb).take s.cfg.knnK).length = s.cfg.knnK - 1 + 1 := by
    have := length_le_length_ranked (kb_pairwise arrays entries 0)
    rw [entries 0, List.length_map, (arrays 0).1] at this
    rw [List.length_take_of_le this]
    omega
  have last : clsPhaseAfterVote s.cfg (s.cfg.knnK - 1) = .decide := by
    rw [clsPhaseAfterVote, if_neg (by omega)]
  rw [forEach_clsVote_range arrays entries zero _ le_rfl, votedFor, hlen, phaseAfterRounds, last]
  rfl

end Sys2Proof.Machine

/-! The frame of each unit's turn: what ROT's and CLS's operations leave as it was (60_exceptions R209, R214). -/

namespace Sys2Proof.Machine

/-- t differs from s in ROT's registers and FIFOs alone. -/
def RotFrame (s t : State) : Prop := t = { s with rot := t.rot, rotIn := t.rotIn, rotOut := t.rotOut }

/-- t differs from s in CLS's registers and FIFOs alone. -/
def ClsFrame (s t : State) : Prop := t = { s with cls := t.cls, clsIn := t.clsIn, clsOut := t.clsOut }

theorem RotFrame.trans {s t u : State} (h : RotFrame s t) (k : RotFrame t u) : RotFrame s u := by
  unfold RotFrame at *
  rw [h] at k
  exact k

theorem ClsFrame.trans {s t u : State} (h : ClsFrame s t) (k : ClsFrame t u) : ClsFrame s u := by
  unfold ClsFrame at *
  rw [h] at k
  exact k

theorem ClassifyFrame.clsFrame {s t : State} (h : ClassifyFrame s t) : ClsFrame s t := by
  rw [ClsFrame, h]

/-! ROT -/

theorem inPop_rot_frame {s t : State} {w : Word32} (h : inPop .rot s = some (w, t)) : RotFrame s t := by
  obtain ⟨ws, -, rfl⟩ := inPop_eq_some.1 h
  rfl

theorem execRotate_frame {v : Word64} {s t : State} (h : execRotate v s = .next t) : RotFrame s t := by
  obtain ⟨_, _, _, rfl | ⟨_, rfl⟩⟩ := execRotate_cases h <;> rfl

theorem rotFirstWord_frame {s t : State} (h : rotFirstWord s = .next t) : RotFrame s t := by
  unfold rotFirstWord at h
  split at h
  · rename_i hpop
    cases h
    exact (inPop_rot_frame hpop).trans rfl
  · cases h
    rfl

theorem rotSecondWord_frame {g : Grain} {s t : State} (h : rotSecondWord g s = .next t) : RotFrame s t := by
  unfold rotSecondWord at h
  split at h
  · rename_i hpop
    refine (inPop_rot_frame hpop).trans ?_
    cases g with
    | phase =>
      cases h
      rfl
    | whole => exact execRotate_frame h
  · cases h
    rfl

theorem pseudoRotation_frame {s t : State} (h : pseudoRotation s = .next t) : RotFrame s t := by
  obtain ⟨_, -, ⟨_, _, _, rfl⟩ | rfl⟩ := pseudoRotation_eq_next h <;> rfl

theorem rotEmit_frame {k : Fin 4} {s t : State} (h : rotEmit k s = .next t) : RotFrame s t := by
  rw [rotEmit_eq] at h
  split at h <;> cases h <;> rfl

theorem rotTurn_frame {g : Grain} {s t : State} (h : rotTurn g s = .next t) : RotFrame s t := by
  unfold rotTurn at h
  split at h
  · exact rotFirstWord_frame h
  · exact rotSecondWord_frame h
  · exact pseudoRotation_frame h
  · exact rotEmit_frame h
  · cases h
    rfl

/-! CLS -/

theorem inPop_cls_frame {s t : State} {w : Word32} (h : inPop .cls s = some (w, t)) : ClsFrame s t := by
  obtain ⟨ws, -, rfl⟩ := inPop_eq_some.1 h
  rfl

theorem clsCheck_frame (v : Word64) (s : State) : ClsFrame s (clsCheck v s) := by
  obtain ⟨-, h⟩ | ⟨-, -, h⟩ | ⟨-, -, h⟩ := clsCheck_cases v s <;> rw [h] <;> rfl

theorem classifyQuery_frame {s t : State} (h : classifyQuery s = .next t) : ClassifyFrame s t := by
  obtain ⟨u, hu, h⟩ := andThen_eq_next.1 h
  obtain ⟨w, hw, h⟩ := andThen_eq_next.1 h
  cases h
  have init : ClassifyFrame s (clsInit s) := rfl
  have update : ClassifyFrame (clsInit s) u := forEach_frame (fun _ _ _ => updateKnn_frame) hu
  have vote : ClassifyFrame u w := forEach_frame (fun _ _ _ => clsVote_frame) hw
  exact ((init.trans update).trans vote).trans rfl

theorem execClassify_frame {v : Word64} {s t : State} (h : execClassify v s = .next t) : ClsFrame s t := by
  simp only [execClassify] at h
  split at h
  · cases h
    exact clsCheck_frame v s
  · exact (clsCheck_frame v s).trans (classifyQuery_frame h).clsFrame

/-- A request on `cls.in` is a CLASSIFY of its value, or it faults in CHECK (30_encoding R104, R107). -/
theorem runRequest_cls (v : Word64) (s : State) :
    runRequest .cls v s = if v &&& classifyMask = 0 then execClassify v s else .next (clsCheck v s) := by
  by_cases h : v &&& classifyMask = 0
  · simp only [runRequest, decode, if_pos h, exec]
  · simp only [runRequest, decode, if_neg h, illegalRequest]

theorem clsFirstWord_frame {s t : State} (h : clsFirstWord s = .next t) : ClsFrame s t := by
  unfold clsFirstWord at h
  split at h
  · rename_i hpop
    cases h
    exact (inPop_cls_frame hpop).trans rfl
  · cases h
    rfl

theorem clsSecondWord_frame {g : Grain} {s t : State} (h : clsSecondWord g s = .next t) : ClsFrame s t := by
  unfold clsSecondWord at h
  split at h
  · rename_i hpop
    refine (inPop_cls_frame hpop).trans ?_
    cases g with
    | phase =>
      cases h
      rfl
    | whole =>
      simp only [runRequest_cls] at h
      split at h
      · exact execClassify_frame h
      · cases h
        exact clsCheck_frame _ _
  · cases h
    rfl

theorem clsEmit_frame {s t : State} (h : clsEmit s = .next t) : ClsFrame s t := by
  rw [clsEmit_eq] at h
  split at h <;> cases h <;> rfl

theorem clsTurn_frame {g : Grain} {s t : State} (h : clsTurn g s = .next t) : ClsFrame s t := by
  unfold clsTurn at h
  split at h
  · exact clsFirstWord_frame h
  · exact clsSecondWord_frame h
  · cases h
    exact clsCheck_frame _ _
  · cases h
    rfl
  · exact (clsUpdate_frame h).clsFrame
  · exact (clsVote_frame h).clsFrame
  · cases h
    rfl
  · exact clsEmit_frame h
  · cases h
    rfl

end Sys2Proof.Machine

/-! The statements on units that share no state and on ill-formed configurations. -/

namespace Sys2Proof.Machine

/-- Settles O44: every phase of a unit has its unit's frame. -/
theorem unitsShareNoState : Obligations.UnitsShareNoState := by
  unfold Obligations.UnitsShareNoState
  intro s t g
  exact ⟨rotTurn_frame, clsTurn_frame⟩

theorem train_length_sum_of_wf {c : Cfg} (h : c.wf = true) : (c.train.map List.length).sum = 10 * c.trainN := by
  obtain ⟨-, -, ⟨len, rows⟩, -⟩ := (cfg_wf_iff c).1 h
  have lengths : c.train.map List.length = List.replicate 10 c.trainN :=
    List.eq_replicate_iff.2 ⟨by simp [len], by simpa using rows⟩
  rw [lengths, List.sum_replicate, smul_eq_mul]

theorem step_of_not_wf {s : State} (h : s.cfg.wf ≠ true) : step s = .refused .illFormedConfiguration := if_neg h

/-- Settles O9: a well-formed configuration has none of the three defects. -/
theorem illFormedConfigurationHasNoRun : Obligations.IllFormedConfigurationHasNoRun := by
  unfold Obligations.IllFormedConfigurationHasNoRun
  intro s defect
  refine step_of_not_wf fun wf => ?_
  obtain ⟨-, knn, -, atan, -⟩ := (cfg_wf_iff s.cfg).1 wf
  rcases defect with noRound | train | table
  · omega
  · exact train (train_length_sum_of_wf wf)
  · exact table atan

end Sys2Proof.Machine

/-! ROTATE follows the integer pseudo-rotations of its function (40_cordic R126, R127, R129). -/

namespace Sys2Proof.Machine

open Functions

/-- A word reads back as the integer it was made from, for an integer in range (00_scope R12). -/
theorem toInt_u64 {x : Int} (h : fits64 x = true) : (u64 x).toInt = x := by
  have range : -2 ^ 63 ≤ x ∧ x < 2 ^ 63 := of_decide_eq_true h
  rw [u64, BitVec.toInt_ofInt]
  exact Int.bmod_eq_of_le (by omega) (by omega)

/-- The function's pseudo-rotations take the machine's exact results while these are in range. -/
theorem rotations_cons (a : Word64) (i : Nat) (rest : List (Word64 × Nat)) (t c z : Int) :
    rotations ((a, i) :: rest) t c z =
      let e := rotationExact (decide (0 < t)) i a.toInt t c z
      if rotationFits e then rotations rest e.1 e.2.1 e.2.2 else .error (t, c, z) := by
  by_cases h : 0 < t <;>
    simp [rotations, rotationExact, rotationFits, fits64, shiftFloor, h, and_assoc, ← sub_eq_add_neg]

/-- s with ROT after n of the twenty pseudo-rotations, the last results in its datapath. -/
def rotating (s : State) (n : Nat) (th co si : Word64) : State :=
  { s with rot := rotAt n { s.rot with theta := th, cos := co, sin := si } }

theorem rotationUnlessFaulted_of_iter {s : State} (h : s.rot.phase = .iter) :
    rotationUnlessFaulted s = pseudoRotation s := by
  simp [rotationUnlessFaulted, State.faulted, h]

/-- What pseudo-rotation n does, by whether its exact results are in range (40_cordic R126, R127). -/
theorem pseudoRotation_rotating {s : State} {n : Nat} {a : Word64} (th co si : Word64) (hn : n < 20)
    (ha : s.cfg.atan[n]? = some a) :
    pseudoRotation (rotating s n th co si) =
      let e := rotationExact (decide (0 < th.toInt)) n a.toInt th.toInt co.toInt si.toInt
      if rotationFits e then .next (rotating s (n + 1) (u64 e.1) (u64 e.2.1) (u64 e.2.2))
      else .next (raiseFault .rot .arithOverflow (rotating s n th co si)) := by
  have running (t c z : Word64) : rotAt n { s.rot with theta := t, cos := c, sin := z } =
      { s.rot with theta := t, cos := c, sin := z, i := ⟨n, hn⟩, phase := .iter } := dif_pos hn
  have rom : atanRead s.cfg ⟨n, hn⟩ = .ok a := by simp [atanRead, ha]
  simp only [pseudoRotation, rotating, running, rom, withRead_ok, isPositive, s64, ← rotAfterIter_rotAt hn]

/-- Where the pseudo-rotations from index n on stay in range, the rest of ROTATE's loop computes their results. -/
theorem restOfLoop_of_rotations_ok {s : State} {t c z : Int} (l : List Word64) :
    ∀ (n : Nat) (th co si : Word64), s.cfg.atan.drop n = l → n + l.length = 20 →
      rotations (l.zipIdx n) th.toInt co.toInt si.toInt = .ok (t, c, z) →
      forEach (fun _ => rotationUnlessFaulted) (List.range' n l.length) (rotating s n th co si) =
        .next (rotating s 20 (BitVec.ofInt 64 t) (BitVec.ofInt 64 c) (BitVec.ofInt 64 z)) := by
  induction l with
  | nil =>
    intro n th co si _ len h
    obtain rfl : n = 20 := len
    cases h
    simp
  | cons a l ih =>
    intro n th co si tail len h
    rw [List.length_cons] at len
    have ha : s.cfg.atan[n]? = some a := by rw [← List.head?_drop, tail, List.head?_cons]
    rw [List.zipIdx_cons, rotations_cons] at h
    dsimp only at h
    split at h
    · rename_i fit
      have hn : n < 20 := by omega
      have iter : (rotating s n th co si).rot.phase = .iter := by simp [rotating, rotAt, hn]
      rw [List.length_cons, List.range'_succ, forEach_cons, rotationUnlessFaulted_of_iter iter,
        pseudoRotation_rotating th co si hn ha, if_pos fit, andThen_next]
      simp only [rotationFits, Bool.and_eq_true] at fit
      obtain ⟨⟨ft, fc⟩, fz⟩ := fit
      refine ih (n + 1) _ _ _ ?_ (by omega) ?_
      · rw [← List.drop_drop, tail, List.drop_one, List.tail_cons]
      · rwa [toInt_u64 ft, toInt_u64 fc, toInt_u64 fz]
    · cases h

/-- Settles O14: the loop follows the function's pseudo-rotations, by induction on the ROM words still to read. -/
theorem rotateComputesItsFunction : Obligations.RotateComputesItsFunction := by
  unfold Obligations.RotateComputesItsFunction
  intro s v t c z wf h
  obtain ⟨-, -, -, len, -⟩ := (cfg_wf_iff s.cfg).1 wf
  have loop := restOfLoop_of_rotations_ok (s := s) s.cfg.atan 0 v s.cfg.kgain 0 List.drop_zero (by omega) h
  rw [len, ← List.range_eq_range'] at loop
  exact loop

end Sys2Proof.Machine

/-! What a unit's turn does in IDLE and in HAVE_LO, and what the host's turn does, said once (10_state R33, R37;
30_encoding R108). -/

namespace Sys2Proof.Machine

theorem rotFirstWord_cases {s t : State} (h : rotFirstWord s = .next t) :
    t = s ∨ ∃ w ws, s.rotIn = w :: ws ∧
      t = { s with rotIn := ws, rot := { s.rot with lo := w, phase := .haveLo } } := by
  unfold rotFirstWord at h
  split at h
  · rename_i w u hpop
    obtain ⟨ws, hws, rfl⟩ := inPop_eq_some.1 hpop
    cases h
    exact .inr ⟨w, ws, hws, rfl⟩
  · cases h
    exact .inl rfl

theorem rotSecondWord_cases {g : Grain} {s t : State} (h : rotSecondWord g s = .next t) :
    t = s ∨ ∃ w ws, s.rotIn = w :: ws ∧
      ((g = .phase ∧ t = rotLoad (requestValue w s.rot.lo) { s with rotIn := ws }) ∨
        (g = .whole ∧ execRotate (requestValue w s.rot.lo) { s with rotIn := ws } = .next t)) := by
  unfold rotSecondWord at h
  split at h
  · rename_i w u hpop
    obtain ⟨ws, hws, rfl⟩ := inPop_eq_some.1 hpop
    refine .inr ⟨w, ws, hws, ?_⟩
    cases g with
    | phase =>
      cases h
      exact .inl ⟨rfl, rfl⟩
    | whole => exact .inr ⟨rfl, h⟩
  · cases h
    exact .inl rfl

theorem clsFirstWord_cases {s t : State} (h : clsFirstWord s = .next t) :
    t = s ∨ ∃ w ws, s.clsIn = w :: ws ∧
      t = { s with clsIn := ws, cls := { s.cls with lo := w, phase := .haveLo } } := by
  unfold clsFirstWord at h
  split at h
  · rename_i w u hpop
    obtain ⟨ws, hws, rfl⟩ := inPop_eq_some.1 hpop
    cases h
    exact .inr ⟨w, ws, hws, rfl⟩
  · cases h
    exact .inl rfl

theorem clsSecondWord_cases {g : Grain} {s t : State} (h : clsSecondWord g s = .next t) :
    t = s ∨ ∃ w ws, s.clsIn = w :: ws ∧
      ((g = .phase ∧ t = { s with clsIn := ws, cls := { s.cls with phase := .check (requestValue w s.cls.lo) } }) ∨
        (g = .whole ∧ runRequest .cls (requestValue w s.cls.lo) { s with clsIn := ws } = .next t)) := by
  unfold clsSecondWord at h
  split at h
  · rename_i w u hpop
    obtain ⟨ws, hws, rfl⟩ := inPop_eq_some.1 hpop
    refine .inr ⟨w, ws, hws, ?_⟩
    cases g with
    | phase =>
      cases h
      exact .inl ⟨rfl, rfl⟩
    | whole => exact .inr ⟨rfl, h⟩
  · cases h
    exact .inl rfl

/-- A request that CLS executes whole ends in CHECK's fault, or CHECK accepts it and it is classified. -/
theorem runRequest_cls_cases {v : Word64} {s t : State} (h : runRequest .cls v s = .next t) :
    t = clsCheck v s ∨
      (s.cfg.trainN ≠ 0 ∧
        classifyQuery { s with cls := { s.cls with query := queryField v, phase := .init } } = .next t) := by
  rw [runRequest_cls] at h
  split at h
  · simp only [execClassify] at h
    split at h
    · cases h
      exact .inl rfl
    · rename_i accepted
      obtain ⟨-, check⟩ | ⟨-, -, check⟩ | ⟨hn, -, check⟩ := clsCheck_cases v s
      · simp [check] at accepted
      · simp [check] at accepted
      · rw [check] at h
        exact .inr ⟨hn, h⟩
  · cases h
    exact .inl rfl

/-- Everything the host's turn can do. -/
theorem hostTurn_cases {s t : State} (h : hostTurn s = .next t) :
    t = s ∨
      (∃ u w rest, s.host.todo = .push u w :: rest ∧ (s.inFifo u).length < s.cfg.inDepth ∧
        t = hostDone [] (s.setIn u (s.inFifo u ++ [w]))) ∨
      (∃ u dst rest w ws, s.host.todo = .pop u dst :: rest ∧ s.outFifo u = w :: ws ∧
        t = hostDone [.popped u dst w] (s.setOut u ws)) ∨
      (∃ u dst rest, s.host.todo = .status u dst :: rest ∧ t = hostDone [.status u dst (statusWord u s)] s) ∨
      ∃ target rest, s.host.todo = .reset target :: rest ∧ t = hostDone [] (resetTarget target s) := by
  unfold hostTurn at h
  split at h
  · cases h
    exact .inl rfl
  · rename_i a rest todo
    cases a with
    | push u w =>
      simp only [hostAct, hostPush] at h
      split at h
      · rename_i pushed
        obtain ⟨room, rfl⟩ := inPush_eq_some.1 pushed
        cases h
        exact .inr (.inl ⟨u, w, rest, todo, room, rfl⟩)
      · cases h
        exact .inl rfl
    | pop u dst =>
      simp only [hostAct, hostPop] at h
      split at h
      · rename_i w _ popped
        obtain ⟨ws, fifo, rfl⟩ := outPop_eq_some.1 popped
        cases h
        exact .inr (.inr (.inl ⟨u, dst, rest, w, ws, todo, fifo, rfl⟩))
      · cases h
        exact .inl rfl
    | status u dst =>
      cases h
      exact .inr (.inr (.inr (.inl ⟨u, dst, rest, todo, rfl⟩)))
    | reset target =>
      cases h
      exact .inr (.inr (.inr (.inr ⟨target, rest, todo, rfl⟩)))

end Sys2Proof.Machine

/-! The invariant splits into a part for each unit, which the other unit's turn leaves as it is. -/

namespace Sys2Proof.Machine

/-- ROT records a cause exactly in FAULT, and only its own (10_state R52, 60_exceptions R201). -/
abbrev RotCauseInv (r : RotRegs) : Prop :=
  (r.phase = .fault ↔ r.cause ≠ .none) ∧ (r.cause = .none ∨ r.cause = .arithOverflow)

/-- CLS records a cause exactly in FAULT, and only its own (10_state R52, 60_exceptions R201). -/
abbrev ClsCauseInv (c : ClsRegs) : Prop := (c.phase = .fault ↔ c.cause ≠ .none) ∧ c.cause ≠ .arithOverflow

/-- ROT's part of the invariant. -/
abbrev RotInv (s : State) : Prop :=
  s.rotIn.length ≤ s.cfg.inDepth ∧ s.rotOut.length ≤ s.cfg.outDepth ∧ RotCauseInv s.rot

/-- CLS's part of the invariant. -/
abbrev ClsInv (s : State) : Prop :=
  s.clsIn.length ≤ s.cfg.inDepth ∧ s.clsOut.length ≤ s.cfg.outDepth ∧ ClsCauseInv s.cls ∧ KbestInv s ∧
    clsPhaseInv s.cfg s.cls = true ∧ s.cls.result.toNat < 10

theorem invariant_iff (s : State) : Invariant s ↔ s.cfg.wf = true ∧ RotInv s ∧ ClsInv s := by
  constructor
  · rintro ⟨wf, ⟨rotIn, clsIn, rotOut, clsOut⟩, ⟨rotFault, clsFault, rotOwn, clsOwn⟩, kbest, counters, result⟩
    exact ⟨wf, ⟨rotIn, rotOut, rotFault, rotOwn⟩, clsIn, clsOut, ⟨clsFault, clsOwn⟩, kbest, counters, result⟩
  · rintro ⟨wf, ⟨rotIn, rotOut, rotFault, rotOwn⟩, clsIn, clsOut, ⟨clsFault, clsOwn⟩, kbest, counters, result⟩
    exact ⟨wf, ⟨rotIn, clsIn, rotOut, clsOut⟩, ⟨rotFault, clsFault, rotOwn, clsOwn⟩, kbest, counters, result⟩

theorem RotCauseInv.of_running {r r' : RotRegs} (h : RotCauseInv r) (running : r.phase ≠ .fault)
    (cause : r'.cause = r.cause) (running' : r'.phase ≠ .fault) : RotCauseInv r' := by
  have none : r.cause = .none := not_not.1 fun recorded => running (h.1.2 recorded)
  simp [RotCauseInv, cause, none, running']

theorem ClsCauseInv.of_running {c c' : ClsRegs} (h : ClsCauseInv c) (running : c.phase ≠ .fault)
    (cause : c'.cause = c.cause) (running' : c'.phase ≠ .fault) : ClsCauseInv c' := by
  have none : c.cause = .none := not_not.1 fun recorded => running (h.1.2 recorded)
  simp [ClsCauseInv, cause, none, running']

/-- A state whose ROT alone differs keeps the invariant with ROT's part of it. -/
theorem RotFrame.invariant {s t : State} (frame : RotFrame s t) (h : Invariant s) (rot : RotInv t) : Invariant t := by
  obtain ⟨wf, -, cls⟩ := (invariant_iff s).1 h
  refine (invariant_iff t).2 ⟨?_, rot, ?_⟩ <;> rw [frame] <;> assumption

/-- A state whose CLS alone differs keeps the invariant with CLS's part of it. -/
theorem ClsFrame.invariant {s t : State} (frame : ClsFrame s t) (h : Invariant s) (cls : ClsInv t) : Invariant t := by
  obtain ⟨wf, rot, -⟩ := (invariant_iff s).1 h
  refine (invariant_iff t).2 ⟨?_, ?_, cls⟩ <;> rw [frame] <;> assumption

/-! What the invariant says of CLS's counters and tallies in each phase that has them. -/

theorem clsPhaseInv_of_init {cfg : Cfg} {c : ClsRegs} (h : c.phase = .init) :
    clsPhaseInv cfg c = true ↔ 0 < cfg.trainN := by simp [clsPhaseInv, h]

theorem clsPhaseInv_of_update {cfg : Cfg} {c : ClsRegs} {k : ClassIdx} {t : Nat} (h : c.phase = .update k t) :
    clsPhaseInv cfg c = true ↔ t < cfg.trainN := by simp [clsPhaseInv, h]

theorem clsPhaseInv_of_vote {cfg : Cfg} {c : ClsRegs} {r : Nat} (h : c.phase = .vote r) :
    clsPhaseInv cfg c = true ↔ r < cfg.knnK ∧ Tallied cfg r c := by simp [clsPhaseInv, h]

theorem clsPhaseInv_of_decide {cfg : Cfg} {c : ClsRegs} (h : c.phase = .decide) :
    clsPhaseInv cfg c = true ↔ Tallied cfg cfg.knnK c := by simp [clsPhaseInv, h]

theorem clsPhaseInv_of_emit {cfg : Cfg} {c : ClsRegs} (h : c.phase = .emit) :
    clsPhaseInv cfg c = true ↔ Tallied cfg cfg.knnK c := by simp [clsPhaseInv, h]

end Sys2Proof.Machine

/-! Every turn of ROT keeps ROT's part of the invariant. -/

namespace Sys2Proof.Machine

theorem rotFirstWord_keeps {s t : State} (h : RotInv s) (idle : s.rot.phase = .idle) (ht : rotFirstWord s = .next t) :
    RotInv t := by
  obtain rfl | ⟨w, ws, fifo, rfl⟩ := rotFirstWord_cases ht
  · exact h
  · obtain ⟨hin, hout, cause⟩ := h
    rw [fifo, List.length_cons] at hin
    exact ⟨Nat.le_of_succ_le hin, hout, cause.of_running (by simp [idle]) rfl (by simp)⟩

theorem execRotate_keeps {v : Word64} {s t : State} (h : RotInv s) (running : s.rot.phase ≠ .fault)
    (ht : execRotate v s = .next t) : RotInv t := by
  obtain ⟨hin, hout, cause⟩ := h
  obtain ⟨th, co, si, rfl | ⟨i, rfl⟩⟩ := execRotate_cases ht
  · exact ⟨hin, hout, cause.of_running running rfl (by simp)⟩
  · exact ⟨hin, hout, by simp, .inr rfl⟩

theorem rotSecondWord_keeps {g : Grain} {s t : State} (h : RotInv s) (haveLo : s.rot.phase = .haveLo)
    (ht : rotSecondWord g s = .next t) : RotInv t := by
  have running : s.rot.phase ≠ .fault := by simp [haveLo]
  obtain rfl | ⟨w, ws, fifo, taken⟩ := rotSecondWord_cases ht
  · exact h
  · obtain ⟨hin, hout, cause⟩ := h
    rw [fifo, List.length_cons] at hin
    have hin' := Nat.le_of_succ_le hin
    obtain ⟨-, rfl⟩ | ⟨-, exec⟩ := taken
    · exact ⟨hin', hout, cause.of_running running rfl (by simp)⟩
    · exact execRotate_keeps (s := { s with rotIn := ws }) ⟨hin', hout, cause⟩ running exec

theorem pseudoRotation_keeps {s t : State} (h : RotInv s) (running : s.rot.phase ≠ .fault)
    (ht : pseudoRotation s = .next t) : RotInv t := by
  obtain ⟨hin, hout, cause⟩ := h
  obtain ⟨_, -, ⟨th, co, si, rfl⟩ | rfl⟩ := pseudoRotation_eq_next ht
  · exact ⟨hin, hout, cause.of_running running (by simp) (by simp)⟩
  · exact ⟨hin, hout, by simp, .inr rfl⟩

theorem rotPhaseAfterEmit_ne_fault (k : Fin 4) : rotPhaseAfterEmit k ≠ .fault := by
  obtain ⟨l, -, h⟩ | ⟨-, h⟩ := rotPhaseAfterEmit_cases k <;> simp [h]

theorem rotEmit_keeps {k : Fin 4} {s t : State} (h : RotInv s) (running : s.rot.phase ≠ .fault)
    (ht : rotEmit k s = .next t) : RotInv t := by
  rw [rotEmit_eq] at ht
  split at ht <;> cases ht
  · rename_i room
    obtain ⟨hin, -, cause⟩ := h
    exact ⟨hin, by simpa using room, cause.of_running running rfl (rotPhaseAfterEmit_ne_fault k)⟩
  · exact h

theorem rotTurn_keeps {g : Grain} {s t : State} (h : RotInv s) (ht : rotTurn g s = .next t) : RotInv t := by
  unfold rotTurn at ht
  split at ht <;> rename_i phase
  · exact rotFirstWord_keeps h phase ht
  · exact rotSecondWord_keeps h phase ht
  · exact pseudoRotation_keeps h (by simp [phase]) ht
  · exact rotEmit_keeps h (by simp [phase]) ht
  · cases ht
    exact h

end Sys2Proof.Machine

/-! Every turn of CLS keeps CLS's part of the invariant. -/

namespace Sys2Proof.Machine

theorem clsFirstWord_keeps {s t : State} (h : ClsInv s) (idle : s.cls.phase = .idle) (ht : clsFirstWord s = .next t) :
    ClsInv t := by
  obtain rfl | ⟨w, ws, fifo, rfl⟩ := clsFirstWord_cases ht
  · exact h
  · obtain ⟨hin, hout, cause, kbest, -, result⟩ := h
    rw [fifo, List.length_cons] at hin
    exact ⟨Nat.le_of_succ_le hin, hout, cause.of_running (by simp [idle]) rfl (by simp), kbest, rfl, result⟩

theorem clsCheck_keeps {s : State} (v : Word64) (h : ClsInv s) (running : s.cls.phase ≠ .fault) :
    ClsInv (clsCheck v s) := by
  obtain ⟨hin, hout, cause, kbest, -, result⟩ := h
  obtain ⟨-, check⟩ | ⟨-, -, check⟩ | ⟨hn, -, check⟩ := clsCheck_cases v s <;> rw [check]
  · exact ⟨hin, hout, ⟨by simp, by simp⟩, kbest, rfl, result⟩
  · exact ⟨hin, hout, ⟨by simp, by simp⟩, kbest, rfl, result⟩
  · exact ⟨hin, hout, cause.of_running running rfl (by simp), kbest,
      (clsPhaseInv_of_init rfl).2 (Nat.pos_of_ne_zero hn), result⟩

theorem classifyQuery_keeps {s t : State} (wf : s.cfg.wf = true) (h : ClsInv s) (init : s.cls.phase = .init)
    (ht : classifyQuery s = .next t) : ClsInv t := by
  obtain ⟨hin, hout, cause, -, counters, -⟩ := h
  obtain ⟨t', ht', frame, phase, result, tallied, kbest⟩ :=
    classifyQuery_completes wf ((clsPhaseInv_of_init init).1 counters)
  obtain rfl : t' = t := by simpa [ht'] using ht
  rw [← frame.cfg] at tallied
  refine ⟨?_, ?_, cause.of_running (by simp [init]) ?_ (by simp [phase]), kbest,
    (clsPhaseInv_of_emit phase).2 tallied, result⟩ <;> rw [frame]
  · exact hin
  · exact hout

theorem runRequest_cls_keeps {v : Word64} {s t : State} (wf : s.cfg.wf = true) (h : ClsInv s)
    (running : s.cls.phase ≠ .fault) (ht : runRequest .cls v s = .next t) : ClsInv t := by
  obtain rfl | ⟨hn, query⟩ := runRequest_cls_cases ht
  · exact clsCheck_keeps v h running
  · obtain ⟨hin, hout, cause, kbest, -, result⟩ := h
    exact classifyQuery_keeps (s := { s with cls := { s.cls with query := queryField v, phase := .init } }) wf
      ⟨hin, hout, cause.of_running running rfl (by simp), kbest,
        (clsPhaseInv_of_init rfl).2 (Nat.pos_of_ne_zero hn), result⟩ rfl query

theorem clsSecondWord_keeps {g : Grain} {s t : State} (wf : s.cfg.wf = true) (h : ClsInv s)
    (haveLo : s.cls.phase = .haveLo) (ht : clsSecondWord g s = .next t) : ClsInv t := by
  have running : s.cls.phase ≠ .fault := by simp [haveLo]
  obtain rfl | ⟨w, ws, fifo, taken⟩ := clsSecondWord_cases ht
  · exact h
  · obtain ⟨hin, hout, cause, kbest, counters, result⟩ := h
    rw [fifo, List.length_cons] at hin
    have hin' := Nat.le_of_succ_le hin
    obtain ⟨-, rfl⟩ | ⟨-, exec⟩ := taken
    · exact ⟨hin', hout, cause.of_running running rfl (by simp), kbest, rfl, result⟩
    · exact runRequest_cls_keeps (s := { s with clsIn := ws }) wf ⟨hin', hout, cause, kbest, counters, result⟩ running
        exec

theorem clsInit_keeps {s : State} (h : ClsInv s) (init : s.cls.phase = .init) : ClsInv (clsInit s) := by
  obtain ⟨hin, hout, cause, -, counters, result⟩ := h
  exact ⟨hin, hout, cause.of_running (by simp [init]) rfl (by simp), clsInit_kbestInv s,
    (clsPhaseInv_of_update rfl).2 ((clsPhaseInv_of_init init).1 counters), result⟩

/-- What enters VOTE(0) has the tallies of no round (42_knn_vote R181). -/
theorem clsEnter_vote_tallied (cfg : Cfg) (c : ClsRegs) : Tallied cfg 0 (clsEnter (.vote 0) c) :=
  ⟨rfl, total_allClasses_zero, total_allClasses_zero⟩

/-- The phase that an update enters has its counters in range, and VOTE(0) the tallies of no round. -/
theorem clsEnter_phaseAfterUpdate_counters {cfg : Cfg} {k : ClassIdx} {t : Nat} (wf : cfg.wf = true)
    (ht : t < cfg.trainN) (c : ClsRegs) : clsPhaseInv cfg (clsEnter (clsPhaseAfterUpdate cfg k t) c) = true := by
  obtain ⟨-, hk, -⟩ := (cfg_wf_iff cfg).1 wf
  obtain ⟨next, phase⟩ | ⟨-, d, -, phase⟩ | ⟨-, -, phase⟩ := clsPhaseAfterUpdate_cases cfg k t <;> rw [phase]
  · exact (clsPhaseInv_of_update (clsEnter_phase _ c)).2 next
  · exact (clsPhaseInv_of_update (clsEnter_phase _ c)).2 (Nat.zero_lt_of_lt ht)
  · exact (clsPhaseInv_of_vote (clsEnter_phase _ c)).2 ⟨hk, clsEnter_vote_tallied cfg c⟩

theorem clsPhaseAfterUpdate_ne_fault (cfg : Cfg) (k : ClassIdx) (t : Nat) : clsPhaseAfterUpdate cfg k t ≠ .fault := by
  obtain ⟨-, h⟩ | ⟨-, _, -, h⟩ | ⟨-, -, h⟩ := clsPhaseAfterUpdate_cases cfg k t <;> simp [h]

theorem clsUpdate_keeps {k : ClassIdx} {n : Nat} {s t : State} (wf : s.cfg.wf = true) (h : ClsInv s)
    (update : s.cls.phase = .update k n) (ht : clsUpdate k n s = .next t) : ClsInv t := by
  obtain ⟨hin, hout, cause, kbest, counters, result⟩ := h
  have kbest' := clsUpdate_kbestInv ht kbest
  obtain ⟨x, -, rfl⟩ := clsUpdate_eq_next ht
  refine ⟨hin, hout, cause.of_running (by simp [update]) (by simp) ?_, kbest', ?_, by simpa using result⟩
  · simpa using clsPhaseAfterUpdate_ne_fault s.cfg k n
  · exact clsEnter_phaseAfterUpdate_counters wf ((clsPhaseInv_of_update update).1 counters) _

theorem clsVote_keeps {r : Nat} {s t : State} (h : ClsInv s) (vote : s.cls.phase = .vote r)
    (ht : clsVote r s = .next t) : ClsInv t := by
  obtain ⟨hin, hout, cause, kbest, counters, result⟩ := h
  obtain ⟨hr, tallied⟩ := (clsPhaseInv_of_vote vote).1 counters
  have tallied' := clsVote_tallied ht tallied
  obtain ⟨heads, -, rfl⟩ := clsVote_eq_next ht
  have running : s.cls.phase ≠ .fault := by simp [vote]
  obtain ⟨next, phase⟩ | ⟨last, phase⟩ := clsPhaseAfterVote_cases s.cfg r
  · exact ⟨hin, hout, cause.of_running running rfl (by simp [phase]), kbest,
      (clsPhaseInv_of_vote phase).2 ⟨next, tallied'⟩, result⟩
  · have rounds : r + 1 = s.cfg.knnK := by omega
    exact ⟨hin, hout, cause.of_running running rfl (by simp [phase]), kbest,
      (clsPhaseInv_of_decide phase).2 (rounds ▸ tallied'), result⟩

theorem clsDecide_keeps {s : State} (h : ClsInv s) (deciding : s.cls.phase = .decide) : ClsInv (clsDecide s) := by
  obtain ⟨hin, hout, cause, kbest, counters, -⟩ := h
  exact ⟨hin, hout, cause.of_running (by simp [deciding]) rfl (by simp), kbest,
    (clsPhaseInv_of_emit rfl).2 ((clsPhaseInv_of_decide deciding).1 counters), decision_lt _ _⟩

theorem clsEmit_keeps {s t : State} (h : ClsInv s) (emit : s.cls.phase = .emit) (ht : clsEmit s = .next t) :
    ClsInv t := by
  rw [clsEmit_eq] at ht
  split at ht <;> cases ht
  · rename_i room
    obtain ⟨hin, -, cause, kbest, -, result⟩ := h
    exact ⟨hin, by simpa using room, cause.of_running (by simp [emit]) rfl (by simp), kbest, rfl, result⟩
  · exact h

theorem clsTurn_keeps {g : Grain} {s t : State} (wf : s.cfg.wf = true) (h : ClsInv s) (ht : clsTurn g s = .next t) :
    ClsInv t := by
  unfold clsTurn at ht
  split at ht <;> rename_i phase
  · exact clsFirstWord_keeps h phase ht
  · exact clsSecondWord_keeps wf h phase ht
  · cases ht
    exact clsCheck_keeps _ h (by simp [phase])
  · cases ht
    exact clsInit_keeps h phase
  · exact clsUpdate_keeps wf h phase ht
  · exact clsVote_keeps h phase ht
  · cases ht
    exact clsDecide_keeps h phase
  · exact clsEmit_keeps h phase ht
  · cases ht
    exact h

end Sys2Proof.Machine

/-! The host's turn keeps the invariant, and so every step does. -/

namespace Sys2Proof.Machine

/-- What a reset leaves in CLS's k-best arrays (log 2). -/
theorem clsRegsReset_kbest (cfg : Cfg) (c : ClassIdx) :
    getAt (ClsRegs.reset cfg).kbest c = List.replicate cfg.knnK 0 := getAt_allClasses _ c

theorem clsRegsReset_kbestInv {s : State} (h : s.cls = ClsRegs.reset s.cfg) : KbestInv s := by
  intro c
  rw [h, clsRegsReset_kbest]
  refine ⟨List.length_replicate, List.pairwise_replicate.2 (.inr le_rfl), fun d hd => ?_⟩
  rw [List.eq_of_mem_replicate hd]
  decide

theorem rotInv_of_reset {s : State} (regs : s.rot = RotRegs.reset) (hin : s.rotIn = []) (hout : s.rotOut = []) :
    RotInv s := by
  simp [RotInv, RotCauseInv, regs, hin, hout, RotRegs.reset]

theorem clsInv_of_reset {s : State} (regs : s.cls = ClsRegs.reset s.cfg) (hin : s.clsIn = []) (hout : s.clsOut = []) :
    ClsInv s := by
  refine ⟨by simp [hin], by simp [hout], ?_, clsRegsReset_kbestInv regs, ?_, ?_⟩ <;> rw [regs]
  · simp [ClsCauseInv, ClsRegs.reset]
  · rfl
  · exact Nat.zero_lt_succ 9

theorem resetUnit_keeps {s : State} (u : UnitId) (h : Invariant s) : Invariant (resetUnit u s) := by
  cases u with
  | rot => exact RotFrame.invariant (t := resetUnit .rot s) rfl h (rotInv_of_reset rfl rfl rfl)
  | cls => exact ClsFrame.invariant (t := resetUnit .cls s) rfl h (clsInv_of_reset rfl rfl rfl)

theorem resetTarget_keeps {s : State} (target : ResetTarget) (h : Invariant s) : Invariant (resetTarget target s) := by
  cases target with
  | unit u => exact resetUnit_keeps u h
  | all => exact resetUnit_keeps .cls (resetUnit_keeps .rot h)

theorem setIn_keeps {s : State} {u : UnitId} {ws : List Word32} (h : Invariant s) (fits : ws.length ≤ s.cfg.inDepth) :
    Invariant (s.setIn u ws) := by
  obtain ⟨-, ⟨-, rotOut, rot⟩, -, cls⟩ := (invariant_iff s).1 h
  cases u with
  | rot => exact RotFrame.invariant (t := s.setIn .rot ws) rfl h ⟨fits, rotOut, rot⟩
  | cls => exact ClsFrame.invariant (t := s.setIn .cls ws) rfl h ⟨fits, cls⟩

theorem setOut_keeps {s : State} {u : UnitId} {ws : List Word32} (h : Invariant s)
    (fits : ws.length ≤ s.cfg.outDepth) : Invariant (s.setOut u ws) := by
  obtain ⟨-, ⟨rotIn, -, rot⟩, clsIn, -, cls⟩ := (invariant_iff s).1 h
  cases u with
  | rot => exact RotFrame.invariant (t := s.setOut .rot ws) rfl h ⟨rotIn, fits, rot⟩
  | cls => exact ClsFrame.invariant (t := s.setOut .cls ws) rfl h ⟨clsIn, fits, cls⟩

theorem Invariant.outFifo_length_le {s : State} (h : Invariant s) (u : UnitId) :
    (s.outFifo u).length ≤ s.cfg.outDepth := by
  obtain ⟨-, ⟨-, rotOut, -⟩, -, clsOut, -⟩ := (invariant_iff s).1 h
  cases u with
  | rot => exact rotOut
  | cls => exact clsOut

theorem hostTurn_keeps {s t : State} (h : Invariant s) (ht : hostTurn s = .next t) : Invariant t := by
  obtain rfl | ⟨u, w, _, -, room, rfl⟩ | ⟨u, _, _, w, ws, -, fifo, rfl⟩ | ⟨_, _, _, -, rfl⟩ | ⟨target, _, -, rfl⟩ :=
    hostTurn_cases ht
  · exact h
  · exact setIn_keeps h (by simpa using room)
  · have fits := h.outFifo_length_le u
    rw [fifo, List.length_cons] at fits
    exact setOut_keeps h (Nat.le_of_succ_le fits)
  · exact h
  · exact resetTarget_keeps target h

theorem takeTurn_keeps {turn : Turn} {s t : State} (h : Invariant s) (ht : takeTurn turn s = .next t) :
    Invariant t := by
  obtain ⟨wf, rot, cls⟩ := (invariant_iff s).1 h
  cases turn with
  | host => exact hostTurn_keeps h ht
  | unit u g =>
    cases u with
    | rot => exact (rotTurn_frame ht).invariant h (rotTurn_keeps rot ht)
    | cls => exact (clsTurn_frame ht).invariant h (clsTurn_keeps wf cls ht)

/-- Settles O59: each agent's turn keeps the invariant; a unit's turn its own part of it. -/
theorem stepKeepsInvariant : Obligations.StepKeepsInvariant := by
  unfold Obligations.StepKeepsInvariant
  intro s t h ht
  obtain ⟨-, turn⟩ := step_eq_next.1 ht
  exact takeTurn_keeps (s := nextTick s) h turn

/-- Settles O58: power-on leaves both units as a reset does. -/
theorem resetMeetsInvariant : Obligations.ResetMeetsInvariant := by
  unfold Obligations.ResetMeetsInvariant
  have powerOn (cfg : Cfg) (wf : cfg.wf = true) : Invariant (State.powerOn cfg) :=
    (invariant_iff _).2 ⟨wf, rotInv_of_reset rfl rfl rfl, clsInv_of_reset rfl rfl rfl⟩
  exact ⟨powerOn _ (by decide), powerOn⟩

end Sys2Proof.Machine

/-! The host's turn depends on what the host can see (10_state R36, R57). -/

namespace Sys2Proof.Machine

/-- s and s' agree on all that the host can see: itself, the configuration, the output FIFOs, the fill of the input FIFOs and
the causes. -/
structure HostAgree (s s' : State) : Prop where
  host : s.host = s'.host
  cfg : s.cfg = s'.cfg
  rotOut : s.rotOut = s'.rotOut
  clsOut : s.clsOut = s'.clsOut
  rotIn : s.rotIn.length = s'.rotIn.length
  clsIn : s.clsIn.length = s'.clsIn.length
  rotCause : s.rot.cause = s'.rot.cause
  clsCause : s.cls.cause = s'.cls.cause

namespace HostAgree

variable {s s' : State}

theorem inFifo_length (h : HostAgree s s') : ∀ u, (s.inFifo u).length = (s'.inFifo u).length
  | .rot => h.rotIn
  | .cls => h.clsIn

theorem outFifo (h : HostAgree s s') : ∀ u, s.outFifo u = s'.outFifo u
  | .rot => h.rotOut
  | .cls => h.clsOut

theorem statusWord (h : HostAgree s s') : ∀ u, statusWord u s = statusWord u s'
  | .rot => congrArg (fun c => (0 : BitVec 30) ++ causeCode c) h.rotCause
  | .cls => congrArg (fun c => (0 : BitVec 30) ++ causeCode c) h.clsCause

theorem setIn {ws ws' : List Word32} (h : HostAgree s s') (len : ws.length = ws'.length) :
    ∀ u, HostAgree (s.setIn u ws) (s'.setIn u ws')
  | .rot => { h with rotIn := len }
  | .cls => { h with clsIn := len }

theorem setOut (h : HostAgree s s') (ws : List Word32) : ∀ u, HostAgree (s.setOut u ws) (s'.setOut u ws)
  | .rot => { h with rotOut := rfl }
  | .cls => { h with clsOut := rfl }

theorem hostDone (h : HostAgree s s') (os : List Observation) : HostAgree (hostDone os s) (hostDone os s') :=
  { h with host := by simp [h.host] }

theorem resetUnit (h : HostAgree s s') : ∀ u, HostAgree (resetUnit u s) (resetUnit u s')
  | .rot => { h with rotOut := rfl, rotIn := rfl, rotCause := rfl }
  | .cls => { h with clsOut := rfl, clsIn := rfl, clsCause := rfl }

theorem resetTarget (h : HostAgree s s') : ∀ target, HostAgree (resetTarget target s) (resetTarget target s')
  | .unit u => h.resetUnit u
  | .all => (h.resetUnit .rot).resetUnit .cls

end HostAgree

theorem hostPush_agree {u : UnitId} {w : Word32} {s s' t : State} (h : HostAgree s s') (ht : hostPush u w s = .next t) :
    ∃ t', hostPush u w s' = .next t' ∧ HostAgree t t' := by
  have len := h.inFifo_length u
  by_cases room : (s.inFifo u).length < s.cfg.inDepth
  · have room' : (s'.inFifo u).length < s'.cfg.inDepth := by rwa [← len, ← h.cfg]
    rw [hostPush, inPush_eq_some.2 ⟨room, rfl⟩] at ht
    rw [hostPush, inPush_eq_some.2 ⟨room', rfl⟩]
    cases ht
    exact ⟨_, rfl, (h.setIn (by simp [len]) u).hostDone []⟩
  · have full' : s'.cfg.inDepth ≤ (s'.inFifo u).length := by rw [← len, ← h.cfg]; exact not_lt.1 room
    rw [hostPush, inPush_eq_none.2 (not_lt.1 room)] at ht
    rw [hostPush, inPush_eq_none.2 full']
    cases ht
    exact ⟨_, rfl, h⟩

theorem hostPop_agree {u : UnitId} {dst : Nat} {s s' t : State} (h : HostAgree s s') (ht : hostPop u dst s = .next t) :
    ∃ t', hostPop u dst s' = .next t' ∧ HostAgree t t' := by
  cases fifo : s.outFifo u with
  | nil =>
    have fifo' : s'.outFifo u = [] := by rw [← h.outFifo, fifo]
    rw [hostPop, outPop_eq_none.2 fifo] at ht
    rw [hostPop, outPop_eq_none.2 fifo']
    cases ht
    exact ⟨_, rfl, h⟩
  | cons w ws =>
    have fifo' : s'.outFifo u = w :: ws := by rw [← h.outFifo, fifo]
    rw [hostPop, outPop_eq_some.2 ⟨ws, fifo, rfl⟩] at ht
    rw [hostPop, outPop_eq_some.2 ⟨ws, fifo', rfl⟩]
    cases ht
    exact ⟨_, rfl, (h.setOut ws u).hostDone _⟩

theorem hostTurn_agree {s s' t : State} (h : HostAgree s s') (ht : hostTurn s = .next t) :
    ∃ t', hostTurn s' = .next t' ∧ HostAgree t t' := by
  unfold hostTurn at ht ⊢
  rw [← h.host]
  cases todo : s.host.todo with
  | nil =>
    simp only [todo] at ht
    cases ht
    exact ⟨s', rfl, h⟩
  | cons a rest =>
    simp only [todo] at ht
    cases a with
    | push u w => exact hostPush_agree h ht
    | pop u dst => exact hostPop_agree h ht
    | status u dst =>
      cases ht
      refine ⟨_, rfl, ?_⟩
      rw [h.statusWord u]
      exact h.hostDone _
    | reset target =>
      cases ht
      exact ⟨_, rfl, (h.resetTarget target).hostDone []⟩

/-- Settles O51: each action keeps the agreement on what the host can see. -/
theorem hostSeesPortsAndStatusOnly : Obligations.HostSeesPortsAndStatusOnly := by
  unfold Obligations.HostSeesPortsAndStatusOnly
  intro s s' t host cfg rotOut clsOut rotIn clsIn rotCause clsCause ht
  obtain ⟨t', ht', h⟩ := hostTurn_agree ⟨host, cfg, rotOut, clsOut, rotIn, clsIn, rotCause, clsCause⟩ ht
  exact ⟨t', ht', h.host.symm, h.rotOut.symm, h.clsOut.symm, h.rotIn.symm, h.clsIn.symm, h.rotCause.symm,
    h.clsCause.symm⟩

end Sys2Proof.Machine

/-! The units' phases move along the edges of the spec (10_state R33, R37). -/

namespace Sys2Proof.Machine

theorem resetTarget_rot (target : ResetTarget) (s : State) :
    (resetTarget target s).rot = if target = .unit .cls then s.rot else RotRegs.reset := by
  obtain (_ | _) | _ := target <;> rfl

theorem resetTarget_cls (target : ResetTarget) (s : State) :
    (resetTarget target s).cls = if target = .unit .rot then s.cls else ClsRegs.reset s.cfg := by
  obtain (_ | _) | _ := target <;> rfl

/-- The host's next action is a reset that names unit `u` (30_encoding R108). -/
abbrev ResetNext (s : State) (u : UnitId) : Prop :=
  ∃ target rest, s.host.todo = .reset target :: rest ∧ (target = .unit u ∨ target = .all)

/-- The host's turn leaves the registers of both units, or resets them. -/
theorem hostTurn_regs {s t : State} (h : hostTurn s = .next t) :
    (t.rot = s.rot ∨ (t.rot = RotRegs.reset ∧ ResetNext s .rot)) ∧
      (t.cls = s.cls ∨ (t.cls = ClsRegs.reset s.cfg ∧ ResetNext s .cls)) := by
  obtain rfl | ⟨u, w, _, -, -, rfl⟩ | ⟨u, _, _, w, ws, -, -, rfl⟩ | ⟨_, _, _, -, rfl⟩ | ⟨target, rest, todo, rfl⟩ :=
    hostTurn_cases h
  · exact ⟨.inl rfl, .inl rfl⟩
  · exact ⟨.inl (by simp), .inl (by simp)⟩
  · exact ⟨.inl (by simp), .inl (by simp)⟩
  · exact ⟨.inl rfl, .inl rfl⟩
  · simp only [hostDone_rot, hostDone_cls, resetTarget_rot, resetTarget_cls]
    obtain (_ | _) | _ := target
    · exact ⟨.inr ⟨rfl, _, rest, todo, .inl rfl⟩, .inl rfl⟩
    · exact ⟨.inl rfl, .inr ⟨rfl, _, rest, todo, .inl rfl⟩⟩
    · exact ⟨.inr ⟨rfl, _, rest, todo, .inr rfl⟩, .inr ⟨rfl, _, rest, todo, .inr rfl⟩⟩

/-- The sequencer of ITER takes the edges of R33. -/
theorem rotAfterIter_edge {r : RotRegs} (h : r.phase = .iter) :
    RotPhaseEdge (r.phase, r.i) ((rotAfterIter r).phase, (rotAfterIter r).i) := by
  rw [h]
  obtain ⟨-, phase, next⟩ | ⟨last, phase, same⟩ := rotAfterIter_cases r
  · rw [phase]
    exact .nextIter _ _ next
  · rw [phase, same]
    exact .lastIter _ last

/-- A phase of ROT that does not hold takes an edge of R33. -/
theorem rotTurn_phase_edge {s t : State} (h : rotTurn .phase s = .next t) :
    t = s ∨ RotPhaseEdge (s.rot.phase, s.rot.i) (t.rot.phase, t.rot.i) := by
  unfold rotTurn at h
  split at h <;> rename_i phase
  · obtain rfl | ⟨w, ws, -, rfl⟩ := rotFirstWord_cases h
    · exact .inl rfl
    · rw [phase]
      exact .inr (.firstWord _)
  · obtain rfl | ⟨w, ws, -, ⟨-, rfl⟩ | ⟨whole, -⟩⟩ := rotSecondWord_cases h
    · exact .inl rfl
    · rw [phase]
      exact .inr (.secondWord _)
    · cases whole
  · obtain ⟨_, -, ⟨th, co, si, rfl⟩ | rfl⟩ := pseudoRotation_eq_next h
    · exact .inr (rotAfterIter_edge (r := { s.rot with theta := th, cos := co, sin := si }) phase)
    · exact .inr (.fault _ _)
  · rename_i k
    rw [rotEmit_eq] at h
    split at h <;> cases h
    · rw [phase]
      obtain ⟨l, hl, next⟩ | ⟨hk, next⟩ := rotPhaseAfterEmit_cases k <;> rw [next]
      · exact .inr (.nextEmit _ _ _ hl)
      · exact .inr (.lastEmit _ _ hk)
    · exact .inl rfl
  · cases h
    exact .inl rfl

/-- Settles O55: each phase of ROT takes an edge of R33, and only a reset by the host writes ROT's registers beside it. -/
theorem rotPhaseAdvances : Obligations.RotPhaseAdvances := by
  unfold Obligations.RotPhaseAdvances
  intro s t
  refine ⟨fun h => ?_, fun g h => ?_, fun h => ?_⟩
  · exact (rotTurn_phase_edge h).imp_left fun same => by rw [same]
  · rw [clsTurn_frame h]
  · obtain ⟨same | ⟨regs, named⟩, -⟩ := hostTurn_regs h
    · exact .inl (by rw [same])
    · exact .inr ⟨by rw [regs]; rfl, named⟩

/-- An update in range takes an edge of R37. -/
theorem clsPhaseAfterUpdate_edge {cfg : Cfg} (c : ClassIdx) {n : Nat} (h : n < cfg.trainN) :
    ClsPhaseEdge cfg.trainN cfg.knnK (.update c n) (clsPhaseAfterUpdate cfg c n) := by
  obtain ⟨hn, next⟩ | ⟨hn, d, hd, next⟩ | ⟨hn, hc, next⟩ := clsPhaseAfterUpdate_cases cfg c n <;> rw [next]
  · exact .nextInstance c n hn
  · exact .nextClass c d n (by omega) hd
  · exact .lastClass c n (by omega) hc

/-- A round in range takes an edge of R37. -/
theorem clsPhaseAfterVote_edge {cfg : Cfg} {r : Nat} (h : r < cfg.knnK) :
    ClsPhaseEdge cfg.trainN cfg.knnK (.vote r) (clsPhaseAfterVote cfg r) := by
  obtain ⟨hr, next⟩ | ⟨hr, next⟩ := clsPhaseAfterVote_cases cfg r <;> rw [next]
  · exact .nextRound r hr
  · exact .lastRound r (by omega)

/-- A phase of CLS that does not hold takes an edge of R37. -/
theorem clsTurn_phase_edge {s t : State} (counters : clsPhaseInv s.cfg s.cls = true) (h : clsTurn .phase s = .next t) :
    t = s ∨ ClsPhaseEdge s.cfg.trainN s.cfg.knnK s.cls.phase t.cls.phase := by
  unfold clsTurn at h
  split at h <;> rename_i phase
  · obtain rfl | ⟨w, ws, -, rfl⟩ := clsFirstWord_cases h
    · exact .inl rfl
    · rw [phase]
      exact .inr .firstWord
  · obtain rfl | ⟨w, ws, -, ⟨-, rfl⟩ | ⟨whole, -⟩⟩ := clsSecondWord_cases h
    · exact .inl rfl
    · rw [phase]
      exact .inr (.secondWord _)
    · cases whole
  · rename_i v
    cases h
    rw [phase]
    obtain ⟨-, check⟩ | ⟨-, -, check⟩ | ⟨-, -, check⟩ := clsCheck_cases v s <;> rw [check]
    · exact .inr (.reject v)
    · exact .inr (.reject v)
    · exact .inr (.accept v)
  · cases h
    rw [phase]
    exact .inr .start
  · obtain ⟨x, -, rfl⟩ := clsUpdate_eq_next h
    rw [clsEnter_phase, phase]
    exact .inr (clsPhaseAfterUpdate_edge _ ((clsPhaseInv_of_update phase).1 counters))
  · obtain ⟨heads, -, rfl⟩ := clsVote_eq_next h
    rw [phase]
    exact .inr (clsPhaseAfterVote_edge ((clsPhaseInv_of_vote phase).1 counters).1)
  · cases h
    rw [phase]
    exact .inr .decided
  · rw [clsEmit_eq] at h
    split at h <;> cases h
    · rw [phase]
      exact .inr .emitted
    · exact .inl rfl
  · cases h
    exact .inl rfl

/-- Settles O56: each phase of CLS with its counters in range takes an edge of R37, and only a reset by the host writes CLS's
registers beside it. -/
theorem clsPhaseAdvances : Obligations.ClsPhaseAdvances := by
  unfold Obligations.ClsPhaseAdvances
  intro s t inv
  obtain ⟨-, -, -, -, counters, -⟩ := inv
  refine ⟨fun h => ?_, fun g h => ?_, fun h => ?_⟩
  · exact (clsTurn_phase_edge counters h).imp_left fun same => by rw [same]
  · rw [rotTurn_frame h]
  · obtain ⟨-, same | ⟨regs, named⟩⟩ := hostTurn_regs h
    · exact .inl (by rw [same])
    · exact .inr ⟨by rw [regs]; rfl, named⟩

end Sys2Proof.Machine

/-! The STATUS word (10_state R52, 60_exceptions R201). -/

namespace Sys2Proof.Machine

@[simp] theorem statusWord_toNat (u : UnitId) (s : State) : (statusWord u s).toNat = (causeCode (s.cause u)).toNat :=
  (BitVec.toNat_append (0 : BitVec 30) _).trans (by simp)

theorem statusWord_reserved (u : UnitId) (s : State) : (statusWord u s).extractLsb' 2 30 = 0 :=
  BitVec.extractLsb'_append_eq_left

theorem causeCode_toNat_inj {c d : Cause} : (causeCode c).toNat = (causeCode d).toNat ↔ c = d := by
  cases c <;> cases d <;> decide

theorem Invariant.faulted_iff {s : State} (h : Invariant s) (u : UnitId) : s.faulted u = true ↔ s.cause u ≠ .none := by
  obtain ⟨-, -, ⟨rot, cls, -⟩, -⟩ := h
  cases u with
  | rot => exact decide_eq_true_iff.trans rot
  | cls => exact decide_eq_true_iff.trans cls

/-- Settles O48: the four causes have four codes, and STATUS is the code. -/
theorem statusWordShowsCause : Obligations.StatusWordShowsCause := by
  unfold Obligations.StatusWordShowsCause
  intro s u
  have shows (c : Cause) : (statusWord u s).toNat = (causeCode c).toNat ↔ s.cause u = c := by
    rw [statusWord_toNat, causeCode_toNat_inj]
  refine ⟨statusWord_reserved u s, shows .none, shows .invalidInput, shows .degenerateModel, shows .arithOverflow,
    fun inv => ?_, fun dst rest todo => ?_⟩
  · have zero : statusWord u s = 0 ↔ s.cause u = .none := BitVec.toNat_eq.trans (shows .none)
    rw [inv.faulted_iff u, ne_eq, zero]
  · simp [takeTurn, hostTurn, todo, hostAct, hostStatus, hostDone]

end Sys2Proof.Machine

/-! On `rot.in` every request is a ROTATE; on `cls.in` a malformed one does what CLASSIFY does with it, which is CHECK's
fault (30_encoding R104, R107). -/

namespace Sys2Proof.Machine

/-! CHECK's three answers, an equation for each (60_exceptions R207). -/

theorem clsCheck_of_untrained {v : Word64} {s : State} (h : s.cfg.trainN = 0) :
    clsCheck v s = raiseFault .cls .degenerateModel s := if_pos h

theorem clsCheck_of_malformed {v : Word64} {s : State} (hn : s.cfg.trainN ≠ 0) (h : reservedField v ≠ 0) :
    clsCheck v s = raiseFault .cls .invalidInput s := (if_neg hn).trans (if_pos h)

theorem clsCheck_of_legal {v : Word64} {s : State} (hn : s.cfg.trainN ≠ 0) (h : reservedField v = 0) :
    clsCheck v s = { s with cls := { s.cls with query := queryField v, phase := .init } } :=
  (if_neg hn).trans (if_neg (not_not.2 h))

/-- CHECK does not look at the phase it starts from. -/
theorem clsCheck_phase (v : Word64) (p : ClsPhase) (s : State) :
    clsCheck v { s with cls := { s.cls with phase := p } } = clsCheck v s := by
  obtain ⟨hn, check⟩ | ⟨hn, hr, check⟩ | ⟨hn, hr, check⟩ := clsCheck_cases v s <;> rw [check]
  · exact clsCheck_of_untrained hn
  · exact clsCheck_of_malformed hn hr
  · exact clsCheck_of_legal hn hr

theorem runRequest_rot (v : Word64) (s : State) : runRequest .rot v s = execRotate v s := rfl

/-- A value is its reserved field and its query (30_encoding R103). -/
theorem reservedField_append_queryField (v : Word64) : reservedField v ++ queryField v = v :=
  (BitVec.extractLsb'_append_extractLsb'_eq_extractLsb' rfl).trans BitVec.extractLsb'_eq_self

/-- The mask selects the reserved field (30_encoding R103, R104). -/
theorem and_classifyMask (v : Word64) : v &&& classifyMask = reservedField v ++ (0 : BitVec 49) := by
  have mask : classifyMask = BitVec.allOnes 15 ++ (0 : BitVec 49) := by decide
  calc v &&& classifyMask
      = (reservedField v ++ queryField v) &&& (BitVec.allOnes 15 ++ (0 : BitVec 49)) := by
        rw [reservedField_append_queryField, mask]
    _ = reservedField v ++ (0 : BitVec 49) := by
        rw [BitVec.and_append, BitVec.and_allOnes]
        exact congrArg _ BitVec.and_zero

theorem and_classifyMask_eq_zero_iff (v : Word64) : v &&& classifyMask = 0 ↔ reservedField v = 0 := by
  rw [and_classifyMask]
  exact BitVec.append_left_inj (s₂ := (0 : BitVec 15)) (0 : BitVec 49)

/-- A request on `cls.in`, legal or not, does what CLASSIFY does with its value. -/
theorem runRequest_cls_eq_execClassify (v : Word64) (s : State) : runRequest .cls v s = execClassify v s := by
  rw [runRequest_cls]
  split
  · rfl
  · rename_i illegal
    rw [and_classifyMask_eq_zero_iff] at illegal
    obtain ⟨-, check⟩ | ⟨-, -, check⟩ | ⟨-, legal, -⟩ := clsCheck_cases v s
    · simp [execClassify, check]
    · simp [execClassify, check]
    · exact absurd legal illegal

end Sys2Proof.Machine

/-! A unit's turn on a request word, said once for an empty and for a filled input FIFO (20_memory R76). -/

namespace Sys2Proof.Machine

variable {s : State} {w : Word32} {ws : List Word32}

theorem rotFirstWord_of_nil (h : s.rotIn = []) : rotFirstWord s = .next s := by
  simp [rotFirstWord, inPop, State.inFifo, h, hold]

theorem rotFirstWord_of_cons (h : s.rotIn = w :: ws) :
    rotFirstWord s = .next { s with rotIn := ws, rot := { s.rot with lo := w, phase := .haveLo } } := by
  simp [rotFirstWord, inPop, State.inFifo, h]

theorem rotSecondWord_of_nil (g : Grain) (h : s.rotIn = []) : rotSecondWord g s = .next s := by
  simp [rotSecondWord, inPop, State.inFifo, h, hold]

theorem rotSecondWord_phase_of_cons (h : s.rotIn = w :: ws) :
    rotSecondWord .phase s = .next (rotLoad (requestValue w s.rot.lo) { s with rotIn := ws }) := by
  simp [rotSecondWord, inPop, State.inFifo, h]

theorem rotSecondWord_whole_of_cons (h : s.rotIn = w :: ws) :
    rotSecondWord .whole s = execRotate (requestValue w s.rot.lo) { s with rotIn := ws } := by
  simp [rotSecondWord, inPop, State.inFifo, h, runRequest_rot]

theorem clsFirstWord_of_nil (h : s.clsIn = []) : clsFirstWord s = .next s := by
  simp [clsFirstWord, inPop, State.inFifo, h, hold]

theorem clsFirstWord_of_cons (h : s.clsIn = w :: ws) :
    clsFirstWord s = .next { s with clsIn := ws, cls := { s.cls with lo := w, phase := .haveLo } } := by
  simp [clsFirstWord, inPop, State.inFifo, h]

theorem clsSecondWord_of_nil (g : Grain) (h : s.clsIn = []) : clsSecondWord g s = .next s := by
  simp [clsSecondWord, inPop, State.inFifo, h, hold]

theorem clsSecondWord_phase_of_cons (h : s.clsIn = w :: ws) :
    clsSecondWord .phase s =
      .next { s with clsIn := ws, cls := { s.cls with phase := .check (requestValue w s.cls.lo) } } := by
  simp [clsSecondWord, inPop, State.inFifo, h]

theorem clsSecondWord_whole_of_cons (h : s.clsIn = w :: ws) :
    clsSecondWord .whole s = execClassify (requestValue w s.cls.lo) { s with clsIn := ws } := by
  simp [clsSecondWord, inPop, State.inFifo, h, runRequest_cls_eq_execClassify]

end Sys2Proof.Machine

/-! A unit's turn sees its own registers, its own FIFOs and the configuration, and nothing else (60_exceptions R209,
R214). -/

namespace Sys2Proof.Machine

theorem andThen_assoc (o : Result) (f g : State → Result) :
    andThen (andThen o f) g = andThen o fun s => andThen (f s) g := by
  cases o <;> rfl

/-- `f` does not see what `put` writes: `put` before `f` is `put` after `f`. -/
def Ignores (put : State → State) (f : State → Result) : Prop :=
  ∀ s, f (put s) = andThen (f s) fun t => .next (put t)

section Ignores

variable {put : State → State}

theorem Ignores.next {f : State → State} (h : ∀ s, f (put s) = put (f s)) : Ignores put fun s => .next (f s) :=
  fun s => congrArg Host.Outcome.next (h s)

theorem Ignores.andThen {f g : State → Result} (hf : Ignores put f) (hg : Ignores put g) :
    Ignores put fun s => andThen (f s) g := by
  intro s
  simp only [hf s, andThen_assoc, andThen_next, hg _]

theorem Ignores.forEach {α : Type} {f : α → State → Result} (h : ∀ a, Ignores put (f a)) :
    ∀ as, Ignores put (forEach f as)
  | [] => fun _ => rfl
  | a :: as => (h a).andThen (Ignores.forEach h as)

end Ignores

/-- ROT's part of s, and the configuration, over the rest of b. -/
def rotOver (b s : State) : State := { b with cfg := s.cfg, rot := s.rot, rotIn := s.rotIn, rotOut := s.rotOut }

/-- CLS's part of s, and the configuration, over the rest of b. -/
def clsOver (b s : State) : State := { b with cfg := s.cfg, cls := s.cls, clsIn := s.clsIn, clsOut := s.clsOut }

/-! ROT -/

theorem rotFirstWord_ignores (b : State) : Ignores (rotOver b) rotFirstWord := by
  intro s
  cases h : s.rotIn with
  | nil => rw [rotFirstWord_of_nil h, rotFirstWord_of_nil (s := rotOver b s) h]; rfl
  | cons w ws => rw [rotFirstWord_of_cons h, rotFirstWord_of_cons (s := rotOver b s) h]; rfl

theorem pseudoRotation_ignores (b : State) : Ignores (rotOver b) pseudoRotation := by
  intro s
  simp only [pseudoRotation, rotOver]
  cases atanRead s.cfg s.rot.i with
  | error e => rfl
  | ok a =>
    simp only [withRead_ok]
    split <;> rename_i fit
    · exact if_pos fit
    · exact if_neg fit

theorem rotationUnlessFaulted_ignores (b : State) : Ignores (rotOver b) rotationUnlessFaulted := by
  intro s
  have same : (rotOver b s).faulted .rot = s.faulted .rot := rfl
  simp only [rotationUnlessFaulted, same]
  split
  · rfl
  · exact pseudoRotation_ignores b s

theorem execRotate_ignores (b : State) (v : Word64) : Ignores (rotOver b) (execRotate v) := fun s =>
  Ignores.forEach (fun _ => rotationUnlessFaulted_ignores b) (List.range 20) (rotLoad v s)

theorem rotSecondWord_ignores (b : State) (g : Grain) : Ignores (rotOver b) (rotSecondWord g) := by
  intro s
  cases h : s.rotIn with
  | nil => rw [rotSecondWord_of_nil g h, rotSecondWord_of_nil (s := rotOver b s) g h]; rfl
  | cons w ws =>
    cases g with
    | phase => rw [rotSecondWord_phase_of_cons h, rotSecondWord_phase_of_cons (s := rotOver b s) h]; rfl
    | whole =>
      rw [rotSecondWord_whole_of_cons h, rotSecondWord_whole_of_cons (s := rotOver b s) h]
      exact execRotate_ignores b (requestValue w s.rot.lo) { s with rotIn := ws }

theorem rotEmit_ignores (b : State) (k : Fin 4) : Ignores (rotOver b) (rotEmit k) := by
  intro s
  simp only [rotEmit_eq, rotOver, andThen_next]
  split <;> rfl

theorem rotTurn_ignores (b : State) (g : Grain) : Ignores (rotOver b) (rotTurn g) := by
  intro s
  have same : (rotOver b s).rot.phase = s.rot.phase := rfl
  unfold rotTurn
  rw [same]
  cases s.rot.phase with
  | idle => exact rotFirstWord_ignores b s
  | haveLo => exact rotSecondWord_ignores b g s
  | iter => exact pseudoRotation_ignores b s
  | emit k => exact rotEmit_ignores b k s
  | fault => rfl

/-! CLS -/

theorem clsFirstWord_ignores (b : State) : Ignores (clsOver b) clsFirstWord := by
  intro s
  cases h : s.clsIn with
  | nil => rw [clsFirstWord_of_nil h, clsFirstWord_of_nil (s := clsOver b s) h]; rfl
  | cons w ws => rw [clsFirstWord_of_cons h, clsFirstWord_of_cons (s := clsOver b s) h]; rfl

theorem clsCheck_over (b : State) (v : Word64) (s : State) : clsCheck v (clsOver b s) = clsOver b (clsCheck v s) := by
  obtain ⟨hn, check⟩ | ⟨hn, hr, check⟩ | ⟨hn, hr, check⟩ := clsCheck_cases v s <;> rw [check]
  · exact clsCheck_of_untrained (s := clsOver b s) hn
  · exact clsCheck_of_malformed (s := clsOver b s) hn hr
  · exact clsCheck_of_legal (s := clsOver b s) hn hr

theorem clsUpdate_ignores (b : State) (c : ClassIdx) (n : Nat) : Ignores (clsOver b) (clsUpdate c n) := by
  intro s
  simp only [clsUpdate, clsOver]
  cases trainRead s.cfg c n <;> rfl

theorem clsVote_ignores (b : State) (r : Nat) : Ignores (clsOver b) (clsVote r) := by
  intro s
  simp only [clsVote, clsOver]
  cases voteHeads s.cls <;> rfl

theorem updateKnn_ignores (b : State) (c : ClassIdx) : Ignores (clsOver b) (updateKnn c) := fun s =>
  Ignores.forEach (clsUpdate_ignores b c) (List.range s.cfg.trainN) s

theorem classifyQuery_ignores (b : State) : Ignores (clsOver b) classifyQuery := by
  have vote : Ignores (clsOver b) fun s =>
      andThen (forEach clsVote (List.range s.cfg.knnK) s) fun s => .next (clsDecide s) := fun s =>
    ((Ignores.forEach (clsVote_ignores b) (List.range s.cfg.knnK)).andThen (.next (f := clsDecide) fun _ => rfl)) s
  exact fun s => ((Ignores.forEach (updateKnn_ignores b) (List.finRange 10)).andThen vote) (clsInit s)

theorem execClassify_ignores (b : State) (v : Word64) : Ignores (clsOver b) (execClassify v) := by
  intro s
  have same : (clsOver b (clsCheck v s)).faulted .cls = (clsCheck v s).faulted .cls := rfl
  simp only [execClassify, clsCheck_over, same]
  split
  · rfl
  · exact classifyQuery_ignores b _

theorem clsSecondWord_ignores (b : State) (g : Grain) : Ignores (clsOver b) (clsSecondWord g) := by
  intro s
  cases h : s.clsIn with
  | nil => rw [clsSecondWord_of_nil g h, clsSecondWord_of_nil (s := clsOver b s) g h]; rfl
  | cons w ws =>
    cases g with
    | phase => rw [clsSecondWord_phase_of_cons h, clsSecondWord_phase_of_cons (s := clsOver b s) h]; rfl
    | whole =>
      rw [clsSecondWord_whole_of_cons h, clsSecondWord_whole_of_cons (s := clsOver b s) h]
      exact execClassify_ignores b (requestValue w s.cls.lo) { s with clsIn := ws }

theorem clsEmit_ignores (b : State) : Ignores (clsOver b) clsEmit := by
  intro s
  simp only [clsEmit_eq, clsOver, andThen_next]
  split <;> rfl

theorem clsTurn_ignores (b : State) (g : Grain) : Ignores (clsOver b) (clsTurn g) := by
  intro s
  have same : (clsOver b s).cls.phase = s.cls.phase := rfl
  unfold clsTurn
  rw [same]
  cases s.cls.phase with
  | idle => exact clsFirstWord_ignores b s
  | haveLo => exact clsSecondWord_ignores b g s
  | check v => exact congrArg Host.Outcome.next (clsCheck_over b v s)
  | init => rfl
  | update c n => exact clsUpdate_ignores b c n s
  | vote r => exact clsVote_ignores b r s
  | decide => rfl
  | emit => exact clsEmit_ignores b s
  | fault => rfl

theorem RotFrame.eq_clsOver {s t : State} (h : RotFrame s t) : t = clsOver t s := by
  rw [h]
  rfl

theorem ClsFrame.eq_rotOver {s t : State} (h : ClsFrame s t) : t = rotOver t s := by
  rw [h]
  rfl

/-- The two units' changes of one state join to one state. -/
theorem RotFrame.rotOver_eq_clsOver {s t u : State} (h : RotFrame s t) (k : ClsFrame s u) :
    rotOver u t = clsOver t u := by
  rw [h, k]
  rfl

/-- Settles O45: each turn ignores the other unit's part, which is all that the other turn writes. -/
theorem unitTurnsCommute : Obligations.UnitTurnsCommute := by
  unfold Obligations.UnitTurnsCommute
  intro s s₁ s₂ g g' (hrot : rotTurn g s = .next s₁) (hcls : clsTurn g' s₁ = .next s₂)
  have frame₁ := rotTurn_frame hrot
  rw [frame₁.eq_clsOver, clsTurn_ignores, andThen_eq_next] at hcls
  obtain ⟨s₃, hs₃, joined⟩ := hcls
  have frame₃ := clsTurn_frame hs₃
  have hrot₃ : rotTurn g s₃ = .next (rotOver s₃ s₁) := by
    rw [frame₃.eq_rotOver, rotTurn_ignores, hrot, andThen_next, ← frame₃.eq_rotOver]
  exact ⟨s₃, hs₃, by rw [← joined, ← frame₁.rotOver_eq_clsOver frame₃]; exact hrot₃⟩

end Sys2Proof.Machine

/-! A turn writes no configuration, and from the invariant it always answers a next state (20_memory R71, R72;
42_knn_vote R183). -/

namespace Sys2Proof.Machine

theorem RotFrame.cfg {s t : State} (h : RotFrame s t) : t.cfg = s.cfg := by rw [h]

theorem ClsFrame.cfg {s t : State} (h : ClsFrame s t) : t.cfg = s.cfg := by rw [h]

theorem hostTurn_cfg {s t : State} (h : hostTurn s = .next t) : t.cfg = s.cfg := by
  obtain rfl | ⟨_, _, _, -, -, rfl⟩ | ⟨_, _, _, _, _, -, -, rfl⟩ | ⟨_, _, _, -, rfl⟩ | ⟨_, _, -, rfl⟩ :=
    hostTurn_cases h
  · rfl
  · simp
  · simp
  · rfl
  · simp

theorem takeTurn_cfg {turn : Turn} {s t : State} (h : takeTurn turn s = .next t) : t.cfg = s.cfg := by
  cases turn with
  | host => exact hostTurn_cfg h
  | unit u g =>
    cases u with
    | rot => exact (rotTurn_frame h).cfg
    | cls => exact (clsTurn_frame h).cfg

/-- Settles O54: no agent's turn writes the configuration. -/
theorem configurationNeverChanges : Obligations.ConfigurationNeverChanges := by
  unfold Obligations.ConfigurationNeverChanges
  intro s t h
  obtain ⟨-, turn⟩ := step_eq_next.1 h
  exact takeTurn_cfg (s := nextTick s) turn

theorem rotTurn_completes {s : State} (g : Grain) (wf : s.cfg.wf = true) : ∃ t, rotTurn g s = .next t := by
  unfold rotTurn
  cases s.rot.phase with
  | idle =>
    cases h : s.rotIn with
    | nil => exact ⟨_, rotFirstWord_of_nil h⟩
    | cons w ws => exact ⟨_, rotFirstWord_of_cons h⟩
  | haveLo =>
    cases h : s.rotIn with
    | nil => exact ⟨_, rotSecondWord_of_nil g h⟩
    | cons w ws =>
      cases g with
      | phase => exact ⟨_, rotSecondWord_phase_of_cons h⟩
      | whole =>
        dsimp only
        rw [rotSecondWord_whole_of_cons h]
        exact execRotate_completes (s := { s with rotIn := ws }) _ wf
  | iter => exact pseudoRotation_completes wf
  | emit k => exact ⟨_, rotEmit_eq k s⟩
  | fault => exact ⟨_, rfl⟩

/-- CHECK faults, or it accepts the request, with a training set to classify it against (60_exceptions R207). -/
theorem clsCheck_faulted_or_accepts (v : Word64) (s : State) :
    (clsCheck v s).faulted .cls = true ∨
      (0 < s.cfg.trainN ∧ (clsCheck v s).faulted .cls = false ∧ (clsCheck v s).cls.phase = .init) := by
  obtain ⟨-, check⟩ | ⟨-, -, check⟩ | ⟨hn, -, check⟩ := clsCheck_cases v s <;> rw [check]
  · exact .inl rfl
  · exact .inl rfl
  · exact .inr ⟨Nat.pos_of_ne_zero hn, rfl, rfl⟩

theorem execClassify_of_faulted {v : Word64} {s : State} (h : (clsCheck v s).faulted .cls = true) :
    execClassify v s = .next (clsCheck v s) := if_pos h

theorem execClassify_of_accepted {v : Word64} {s : State} (h : (clsCheck v s).faulted .cls = false) :
    execClassify v s = classifyQuery (clsCheck v s) := if_neg (by simp [h])

theorem execClassify_completes {s : State} (v : Word64) (wf : s.cfg.wf = true) : ∃ t, execClassify v s = .next t := by
  obtain faulted | ⟨hn, accepted, -⟩ := clsCheck_faulted_or_accepts v s
  · exact ⟨_, execClassify_of_faulted faulted⟩
  · obtain ⟨t, ht, -⟩ := classifyQuery_completes (s := clsCheck v s) (by rwa [clsCheck_cfg]) (by rwa [clsCheck_cfg])
    exact ⟨t, (execClassify_of_accepted accepted).trans ht⟩

theorem clsTurn_completes {s : State} (g : Grain) (wf : s.cfg.wf = true) (h : ClsInv s) :
    ∃ t, clsTurn g s = .next t := by
  obtain ⟨-, -, -, kbest, counters, -⟩ := h
  unfold clsTurn
  cases phase : s.cls.phase with
  | idle =>
    cases h : s.clsIn with
    | nil => exact ⟨_, clsFirstWord_of_nil h⟩
    | cons w ws => exact ⟨_, clsFirstWord_of_cons h⟩
  | haveLo =>
    cases h : s.clsIn with
    | nil => exact ⟨_, clsSecondWord_of_nil g h⟩
    | cons w ws =>
      cases g with
      | phase => exact ⟨_, clsSecondWord_phase_of_cons h⟩
      | whole =>
        dsimp only
        rw [clsSecondWord_whole_of_cons h]
        exact execClassify_completes (s := { s with clsIn := ws }) _ wf
  | check v => exact ⟨_, rfl⟩
  | init => exact ⟨_, rfl⟩
  | update c n => exact clsUpdate_completes wf ((clsPhaseInv_of_update phase).1 counters)
  | vote r =>
    obtain ⟨hr, tallied⟩ := (clsPhaseInv_of_vote phase).1 counters
    exact clsVote_completes kbest hr tallied
  | decide => exact ⟨_, rfl⟩
  | emit => exact ⟨_, clsEmit_eq s⟩
  | fault => exact ⟨_, rfl⟩

theorem hostTurn_completes (s : State) : ∃ t, hostTurn s = .next t := by
  unfold hostTurn
  cases s.host.todo with
  | nil => exact ⟨s, rfl⟩
  | cons a rest =>
    cases a with
    | push u w =>
      simp only [hostAct, hostPush]
      split
      · exact ⟨_, rfl⟩
      · exact ⟨s, rfl⟩
    | pop u dst =>
      simp only [hostAct, hostPop]
      split
      · exact ⟨_, rfl⟩
      · exact ⟨s, rfl⟩
    | status u dst => exact ⟨_, rfl⟩
    | reset target => exact ⟨_, rfl⟩

/-- Settles O60: each agent's turn answers a next state from the invariant, whose counters keep every read in range. -/
theorem invariantStatesNeverStop : Obligations.InvariantStatesNeverStop := by
  unfold Obligations.InvariantStatesNeverStop
  intro s h
  obtain ⟨wf, -, cls⟩ := (invariant_iff s).1 h
  have turn : ∃ t, takeTurn (nextTurn s) (nextTick s) = .next t := by
    cases nextTurn s with
    | host => exact hostTurn_completes _
    | unit u g =>
      cases u with
      | rot => exact rotTurn_completes g wf
      | cls => exact clsTurn_completes (s := nextTick s) g wf cls
  obtain ⟨t, ht⟩ := turn
  exact ⟨t, step_eq_next.2 ⟨wf, ht⟩⟩

end Sys2Proof.Machine

/-! What a turn does to the FIFOs (20_memory R76, R77, R79). -/

namespace Sys2Proof.Machine

/-- The FIFO `new` is `old`, or `old` without its oldest word. -/
abbrev Drained (old new : List Word32) : Prop := new = old ∨ ∃ w, old = w :: new

/-- The FIFO `new` is `old`, or `old` with one word appended. -/
abbrev Filled (old new : List Word32) : Prop := new = old ∨ ∃ w, new = old ++ [w]

theorem rotTurn_fifos {g : Grain} {s t : State} (h : rotTurn g s = .next t) :
    Drained s.rotIn t.rotIn ∧ Filled s.rotOut t.rotOut := by
  unfold rotTurn at h
  split at h
  · obtain rfl | ⟨w, ws, fifo, rfl⟩ := rotFirstWord_cases h
    · exact ⟨.inl rfl, .inl rfl⟩
    · exact ⟨.inr ⟨w, fifo⟩, .inl rfl⟩
  · obtain rfl | ⟨w, ws, fifo, ⟨-, rfl⟩ | ⟨-, exec⟩⟩ := rotSecondWord_cases h
    · exact ⟨.inl rfl, .inl rfl⟩
    · exact ⟨.inr ⟨w, fifo⟩, .inl rfl⟩
    · obtain ⟨_, _, _, rfl | ⟨_, rfl⟩⟩ := execRotate_cases exec <;> exact ⟨.inr ⟨w, fifo⟩, .inl rfl⟩
  · obtain ⟨_, -, ⟨_, _, _, rfl⟩ | rfl⟩ := pseudoRotation_eq_next h <;> exact ⟨.inl rfl, .inl rfl⟩
  · rw [rotEmit_eq] at h
    split at h <;> cases h
    · exact ⟨.inl rfl, .inr ⟨_, rfl⟩⟩
    · exact ⟨.inl rfl, .inl rfl⟩
  · cases h
    exact ⟨.inl rfl, .inl rfl⟩

theorem ClassifyFrame.fifos {s t : State} (h : ClassifyFrame s t) : t.clsIn = s.clsIn ∧ t.clsOut = s.clsOut := by
  rw [h]
  exact ⟨rfl, rfl⟩

theorem execClassify_fifos {v : Word64} {s t : State} (h : execClassify v s = .next t) :
    t.clsIn = s.clsIn ∧ t.clsOut = s.clsOut := by
  obtain faulted | ⟨-, accepted, -⟩ := clsCheck_faulted_or_accepts v s
  · rw [execClassify_of_faulted faulted] at h
    cases h
    exact ⟨clsCheck_clsIn v s, clsCheck_clsOut v s⟩
  · rw [execClassify_of_accepted accepted] at h
    simpa using (classifyQuery_frame h).fifos

theorem clsTurn_fifos {g : Grain} {s t : State} (h : clsTurn g s = .next t) :
    Drained s.clsIn t.clsIn ∧ Filled s.clsOut t.clsOut := by
  have kept {t : State} (same : t.clsIn = s.clsIn ∧ t.clsOut = s.clsOut) :
      Drained s.clsIn t.clsIn ∧ Filled s.clsOut t.clsOut := ⟨.inl same.1, .inl same.2⟩
  unfold clsTurn at h
  split at h
  · obtain rfl | ⟨w, ws, fifo, rfl⟩ := clsFirstWord_cases h
    · exact kept ⟨rfl, rfl⟩
    · exact ⟨.inr ⟨w, fifo⟩, .inl rfl⟩
  · obtain rfl | ⟨w, ws, fifo, ⟨-, rfl⟩ | ⟨-, request⟩⟩ := clsSecondWord_cases h
    · exact kept ⟨rfl, rfl⟩
    · exact ⟨.inr ⟨w, fifo⟩, .inl rfl⟩
    · rw [runRequest_cls_eq_execClassify] at request
      obtain ⟨hin, hout⟩ := execClassify_fifos request
      exact ⟨.inr ⟨w, by rw [fifo, hin]⟩, .inl hout⟩
  · cases h
    exact kept (by simp)
  · cases h
    exact kept ⟨rfl, rfl⟩
  · exact kept (clsUpdate_frame h).fifos
  · exact kept (clsVote_frame h).fifos
  · cases h
    exact kept ⟨rfl, rfl⟩
  · rw [clsEmit_eq] at h
    split at h <;> cases h
    · exact ⟨.inl rfl, .inr ⟨_, rfl⟩⟩
    · exact kept ⟨rfl, rfl⟩
  · cases h
    exact kept ⟨rfl, rfl⟩

theorem unitTurn_fifos {v : UnitId} {g : Grain} {s t : State} (u : UnitId) (h : takeTurn (.unit v g) s = .next t) :
    Drained (s.inFifo u) (t.inFifo u) ∧ Filled (s.outFifo u) (t.outFifo u) := by
  cases v with
  | rot =>
    cases u with
    | rot => exact rotTurn_fifos h
    | cls => rw [rotTurn_frame h]; exact ⟨.inl rfl, .inl rfl⟩
  | cls =>
    cases u with
    | rot => rw [clsTurn_frame h]; exact ⟨.inl rfl, .inl rfl⟩
    | cls => exact clsTurn_fifos h

theorem State.inFifo_setIn (s : State) (u v : UnitId) (ws : List Word32) :
    (s.setIn v ws).inFifo u = if u = v then ws else s.inFifo u := by
  cases u <;> cases v <;> rfl

theorem State.outFifo_setOut (s : State) (u v : UnitId) (ws : List Word32) :
    (s.setOut v ws).outFifo u = if u = v then ws else s.outFifo u := by
  cases u <;> cases v <;> rfl

@[simp] theorem hostDone_inFifo (os : List Observation) (s : State) (u : UnitId) :
    (hostDone os s).inFifo u = s.inFifo u := by cases u <;> rfl

@[simp] theorem hostDone_outFifo (os : List Observation) (s : State) (u : UnitId) :
    (hostDone os s).outFifo u = s.outFifo u := by cases u <;> rfl

theorem resetTarget_inFifo (target : ResetTarget) (s : State) (u : UnitId) :
    (resetTarget target s).inFifo u = if target = .unit u ∨ target = .all then [] else s.inFifo u := by
  obtain (_ | _) | _ := target <;> cases u <;> rfl

theorem resetTarget_outFifo (target : ResetTarget) (s : State) (u : UnitId) :
    (resetTarget target s).outFifo u = if target = .unit u ∨ target = .all then [] else s.outFifo u := by
  obtain (_ | _) | _ := target <;> cases u <;> rfl

/-- The host's turn fills an input FIFO and drains an output FIFO, or it takes a reset action, which empties a FIFO or
leaves it. -/
theorem hostTurn_fifos {s t : State} (u : UnitId) (h : hostTurn s = .next t) :
    (Filled (s.inFifo u) (t.inFifo u) ∧ Drained (s.outFifo u) (t.outFifo u)) ∨
      ∃ target rest, s.host.todo = .reset target :: rest ∧ (t.inFifo u = [] ∨ t.inFifo u = s.inFifo u) ∧
        (t.outFifo u = [] ∨ t.outFifo u = s.outFifo u) := by
  obtain rfl | ⟨v, w, _, -, -, rfl⟩ | ⟨v, _, _, w, ws, -, fifo, rfl⟩ | ⟨_, _, _, -, rfl⟩ | ⟨target, rest, todo, rfl⟩ :=
    hostTurn_cases h
  · exact .inl ⟨.inl rfl, .inl rfl⟩
  · refine .inl ⟨?_, .inl (by simp)⟩
    by_cases own : u = v
    · exact .inr ⟨w, by simp [own]⟩
    · exact .inl (by simp [State.inFifo_setIn, own])
  · refine .inl ⟨.inl (by simp), ?_⟩
    by_cases own : u = v
    · exact .inr ⟨w, by simp [own, fifo]⟩
    · exact .inl (by simp [State.outFifo_setOut, own])
  · exact .inl ⟨.inl (by simp), .inl (by simp)⟩
  · refine .inr ⟨target, rest, todo, ?_⟩
    rw [hostDone_inFifo, hostDone_outFifo, resetTarget_inFifo, resetTarget_outFifo]
    exact ⟨ite_eq_or_eq _ _ _, ite_eq_or_eq _ _ _⟩

/-- Settles O53: a unit drains its input and fills its output, the host does the reverse, and only a reset empties. -/
theorem fifosKeepOrder : Obligations.FifosKeepOrder := by
  unfold Obligations.FifosKeepOrder
  intro s t turn u h
  cases turn with
  | unit v g =>
    obtain ⟨hin, hout⟩ := unitTurn_fifos u h
    exact ⟨hin.imp_right fun drained => .inr (.inl drained), hout.imp_right .inl⟩
  | host =>
    obtain ⟨hin, hout⟩ | ⟨target, rest, todo, hin, hout⟩ := hostTurn_fifos u h
    · exact ⟨hin.imp_right .inl, hout.imp_right fun drained => .inr (.inl drained)⟩
    · have emptied {old new : List Word32} (change : new = [] ∨ new = old) :
          new = old ∨ (∃ w, new = old ++ [w]) ∨ (∃ w, old = w :: new) ∨
            ∃ target rest, Turn.host = .host ∧ s.host.todo = .reset target :: rest ∧ new = [] :=
        change.symm.imp_right fun empty => .inr (.inr ⟨target, rest, rfl, todo, empty⟩)
      exact ⟨emptied hin, emptied hout⟩

end Sys2Proof.Machine

/-! The host's pushes and pops (20_memory R76, R77), and requests fetched whole (20_memory R78). -/

namespace Sys2Proof.Machine

/-- Settles O46: a push is one case of room in `u.in`. -/
theorem hostPushes : Obligations.HostPushes := by
  unfold Obligations.HostPushes
  intro s u w rest todo
  have turn : takeTurn .host s = hostPush u w s := by simp [takeTurn, hostTurn, todo, hostAct]
  rw [turn, hostPush]
  refine ⟨fun full => ?_, fun room => ?_⟩
  · rw [inPush_eq_none.2 full]
    rfl
  · rw [inPush_eq_some.2 ⟨room, rfl⟩]
    cases u <;> simp [hostDone, todo, State.inFifo]

/-- Settles O47: a pop is one case of a word in `u.out`. -/
theorem hostPops : Obligations.HostPops := by
  unfold Obligations.HostPops
  intro s u dst rest todo
  have turn : takeTurn .host s = hostPop u dst s := by simp [takeTurn, hostTurn, todo, hostAct]
  rw [turn, hostPop]
  refine ⟨fun empty => ?_, fun w ws fifo => ?_⟩
  · rw [outPop_eq_none.2 empty]
    rfl
  · rw [outPop_eq_some.2 ⟨ws, fifo, rfl⟩]
    cases u <;> simp [hostDone, todo, State.setOut]

theorem rotTurn_of_haveLo {s : State} (g : Grain) (h : s.rot.phase = .haveLo) : rotTurn g s = rotSecondWord g s := by
  simp [rotTurn, h]

theorem clsTurn_of_haveLo {s : State} (g : Grain) (h : s.cls.phase = .haveLo) : clsTurn g s = clsSecondWord g s := by
  simp [clsTurn, h]

theorem step_of_wf {s : State} (wf : s.cfg.wf = true) : step s = takeTurn (nextTurn s) (nextTick s) := if_pos wf

/-- A request that decodes is executed as the instruction it decodes to. -/
theorem runRequest_of_decode {u : UnitId} {v : Word64} {i : Instr} (h : decode u v = .ok i) (s : State) :
    runRequest u v s = exec i s := by
  rw [runRequest, h]

/-- Settles O7: the whole turn in HAVE_LO runs the request, which is its instruction. -/
theorem stepRunsDecodedRequest : Obligations.StepRunsDecodedRequest := by
  unfold Obligations.StepRunsDecodedRequest
  intro s w rest i wf
  refine ⟨fun turn phase fifo decoded => ?_, fun turn phase fifo decoded => ?_⟩
  · rw [step_of_wf wf, turn, takeTurn, rotTurn_of_haveLo (s := nextTick s) _ phase,
      rotSecondWord_whole_of_cons (s := nextTick s) fifo, ← runRequest_rot]
    exact runRequest_of_decode decoded _
  · rw [step_of_wf wf, turn, takeTurn, clsTurn_of_haveLo (s := nextTick s) _ phase,
      clsSecondWord_whole_of_cons (s := nextTick s) fifo, ← runRequest_cls_eq_execClassify]
    exact runRequest_of_decode decoded _

/-- Settles O36: the request does what CLASSIFY does with its value, and that is CHECK's fault. -/
theorem malformedRequestFaultsWhenFetched : Obligations.MalformedRequestFaultsWhenFetched := by
  unfold Obligations.MalformedRequestFaultsWhenFetched
  intro s w ws phase fifo malformed
  have turn : takeTurn (.unit .cls .whole) s = execClassify (requestValue w s.cls.lo) { s with clsIn := ws } :=
    (clsTurn_of_haveLo _ phase).trans (clsSecondWord_whole_of_cons fifo)
  rw [turn]
  obtain ⟨hn, check⟩ | ⟨hn, -, check⟩ | ⟨-, legal, -⟩ := clsCheck_cases (requestValue w s.cls.lo) { s with clsIn := ws }
  · rw [execClassify_of_faulted (by simp [check]), check]
    exact ⟨fun some => absurd hn some, fun _ => rfl⟩
  · rw [execClassify_of_faulted (by simp [check]), check]
    exact ⟨fun _ => rfl, fun none => absurd none hn⟩
  · exact absurd legal malformed

end Sys2Proof.Machine

/-! A table word that is placed is fetched next (20_memory R78; log 12). -/

namespace Sys2Proof.Machine

theorem unit_of_decode {u : UnitId} {v : Word64} {i : Instr} (h : decode u v = .ok i) : i.unit = u := by
  cases u with
  | rot =>
    cases h
    rfl
  | cls =>
    simp only [decode] at h
    split at h <;> cases h
    rfl

theorem decodeWords_halves (u : UnitId) (v : Word64) :
    decodeWords u [lowWord v, highWord v] = (decode u v).map fun i => (i, []) := by
  rw [decodeWords, Laws.RequestShape.halves]
  cases decode u v <;> rfl

/-- A table word's instruction is the one its value decodes to on its port. -/
theorem decode_of_decodeTableWord {nbits w : Nat} {i : Instr} (h : decodeTableWord nbits w = some i) :
    decode (tableUnit (tableValue nbits w)) (tableValue nbits w) = .ok i := by
  simp only [decodeTableWord, decodeWords_halves] at h
  split at h
  · cases decoded : decode (tableUnit (tableValue nbits w)) (tableValue nbits w) with
    | error e => simp [decoded, Except.map] at h
    | ok j => simpa [decoded, Except.map] using h
  · cases h

/-- The step after a request is placed executes it, its second word taken. -/
theorem step_placeRequest {s : State} {u : UnitId} {v : Word64} {i : Instr} (wf : s.cfg.wf = true)
    (h : decode u v = .ok i) :
    step (placeRequest u v s) =
      exec i { (placeRequest u v s).setIn u (s.inFifo u).tail with turns := s.turns, tick := s.tick + 1 } := by
  cases u with
  | rot =>
    refine (stepRunsDecodedRequest (placeRequest .rot v s) (highWord v) s.rotIn.tail i wf).1 rfl rfl rfl ?_
    exact (congrArg (decode .rot) (Laws.RequestShape.halves v)).trans h
  | cls =>
    refine (stepRunsDecodedRequest (placeRequest .cls v s) (highWord v) s.clsIn.tail i wf).2 rfl rfl rfl ?_
    exact (congrArg (decode .cls) (Laws.RequestShape.halves v)).trans h

/-- Settles O8: the placed words are the request's, and the unit is the instruction's. -/
theorem placedWordRunsNext : Obligations.PlacedWordRunsNext := by
  unfold Obligations.PlacedWordRunsNext
  intro s nbits w i wf h
  have decoded := decode_of_decodeTableWord h
  rw [State.withFetchWord, unit_of_decode decoded]
  generalize tableValue nbits w = v at decoded ⊢
  refine ⟨_, step_placeRequest wf decoded, ?_⟩
  cases tableUnit v <;> exact ⟨rfl, rfl, rfl, rfl, rfl, rfl, rfl⟩

end Sys2Proof.Machine

/-! Runs of one unit's turns: the schedule counts them, and no unit sees it (92 D33; log 3). -/

namespace Sys2Proof.Machine

theorem andThen_congr {o : Result} {f g : State → Result} (h : ∀ t, o = .next t → f t = g t) :
    andThen o f = andThen o g := by
  cases o with
  | next t => exact h t rfl
  | fault e => rfl
  | refused e => rfl

@[simp] theorem andThen_ret (o : Result) : andThen o .next = o := by cases o <;> rfl

/-- `n` steps of the machine, with its own types written out. -/
def run (n : Nat) : State → Result := Host.Core.run core n

theorem run_succ (n : Nat) (s : State) : run (n + 1) s = andThen (step s) (run n) := by
  simp only [run, Host.Core.run]
  split <;> rename_i answer <;> rw [show step s = _ from answer] <;> rfl

/-- s with another schedule. -/
def State.scheduled (s : State) (ts : List Turn) (k : Nat) : State := { s with turns := ts, tick := k }

theorem unitTurn_ignores_schedule (u : UnitId) (g : Grain) (ts : List Turn) (k : Nat) :
    Ignores (fun s => s.scheduled ts k) (takeTurn (.unit u g)) := by
  intro s
  cases u with
  | rot =>
    refine (rotTurn_ignores (s.scheduled ts k) g s).trans (andThen_congr fun t ht => ?_)
    rw [rotTurn_frame ht]
    rfl
  | cls =>
    refine (clsTurn_ignores (s.scheduled ts k) g s).trans (andThen_congr fun t ht => ?_)
    rw [clsTurn_frame ht]
    rfl

/-- n turns of one unit at one grain. -/
def unitTurns (u : UnitId) (g : Grain) (n : Nat) : State → Result := forEach takeTurn (List.replicate n (.unit u g))

section UnitTurns

variable (u : UnitId) (g : Grain)

@[simp] theorem unitTurns_zero (s : State) : unitTurns u g 0 s = .next s := rfl

theorem unitTurns_succ (n : Nat) (s : State) :
    unitTurns u g (n + 1) s = andThen (takeTurn (.unit u g) s) (unitTurns u g n) := rfl

@[simp] theorem unitTurns_one (s : State) : unitTurns u g 1 s = takeTurn (.unit u g) s := andThen_ret _

theorem unitTurns_add (m n : Nat) (s : State) :
    unitTurns u g (m + n) s = andThen (unitTurns u g m s) (unitTurns u g n) := by
  rw [unitTurns, List.replicate_add]
  exact forEach_append _ _ _ _

variable {u g} in
/-- A unit that holds keeps holding. -/
theorem unitTurns_of_hold {s : State} (h : takeTurn (.unit u g) s = .next s) (n : Nat) :
    unitTurns u g n s = .next s := by
  induction n with
  | zero => rfl
  | succ n ih => rw [unitTurns_succ, h, andThen_next, ih]

theorem takeTurn_of_faulted {s : State} (h : s.faulted u = true) : takeTurn (.unit u g) s = .next s := by
  cases u with
  | rot =>
    have phase : s.rot.phase = .fault := of_decide_eq_true h
    simp [takeTurn, rotTurn, phase, hold]
  | cls =>
    have phase : s.cls.phase = .fault := of_decide_eq_true h
    simp [takeTurn, clsTurn, phase, hold]

/-- A run over a schedule of one unit's turns is these turns, with the schedule used up beforehand. -/
theorem run_unitTurns (ts : List Turn) (n k : Nat) {s : State} (wf : s.cfg.wf = true) :
    run n (s.scheduled (List.replicate n (.unit u g) ++ ts) k) =
      unitTurns u g n (s.scheduled ts (k + n)) := by
  induction n generalizing s k with
  | zero => rfl
  | succ n ih =>
    have turn : step (s.scheduled (List.replicate (n + 1) (.unit u g) ++ ts) k) =
        takeTurn (.unit u g) (s.scheduled (List.replicate n (.unit u g) ++ ts) (k + 1)) := step_of_wf wf
    rw [run_succ, turn, unitTurns_succ, unitTurn_ignores_schedule u g _ _ s, unitTurn_ignores_schedule u g _ _ s,
      andThen_assoc, andThen_assoc]
    refine andThen_congr fun t ht => ?_
    rw [andThen_next, andThen_next, ih (k + 1) (by rwa [takeTurn_cfg ht])]
    congr 2
    omega

end UnitTurns

/-! Loops with a predicate for each turn: `P n` holds before turn n. -/

section Loops

variable {α : Type} {f : α → State → Result} {as : List α} {P : Nat → State → Prop} {s : State}

theorem forEach_reaches (keeps : ∀ n (hn : n < as.length) s t, P n s → f as[n] s = .next t → P (n + 1) t)
    (start : P 0 s) {t : State} (h : forEach f as s = .next t) : P as.length t := by
  induction as generalizing s P with
  | nil =>
    cases h
    exact start
  | cons a as ih =>
    obtain ⟨v, hv, ht⟩ := andThen_eq_next.1 h
    exact ih (P := fun n => P (n + 1)) (fun n hn => keeps (n + 1) (Nat.succ_lt_succ hn))
      (keeps 0 (Nat.zero_lt_succ _) s v start hv) ht

theorem unitTurns_eq_forEach {u : UnitId} {g : Grain} {cost : Nat}
    (turns : ∀ n (hn : n < as.length) s, P n s → unitTurns u g cost s = f as[n] s)
    (keeps : ∀ n (hn : n < as.length) s t, P n s → f as[n] s = .next t → P (n + 1) t) (start : P 0 s) :
    unitTurns u g (cost * as.length) s = forEach f as s := by
  induction as generalizing s P with
  | nil => rfl
  | cons a as ih =>
    rw [List.length_cons, Nat.mul_succ, Nat.add_comm, unitTurns_add, turns 0 (Nat.zero_lt_succ _) s start, forEach_cons]
    refine andThen_congr fun t ht => ?_
    exact ih (P := fun n => P (n + 1)) (fun n hn => turns (n + 1) (Nat.succ_lt_succ hn))
      (fun n hn => keeps (n + 1) (Nat.succ_lt_succ hn)) (keeps 0 (Nat.zero_lt_succ _) s t start ht)

end Loops

end Sys2Proof.Machine

/-! ROT's phases and its whole turn (20_memory R78). -/

namespace Sys2Proof.Machine

/-- A running pseudo-rotation is a phase of ROT, faulted or not. -/
theorem rotTurn_of_running {s t : State} {n : Nat} (hn : n < 20) (h : RotRunning s n t) :
    rotTurn .phase t = rotationUnlessFaulted t := by
  obtain ⟨th, co, si, rfl | ⟨i, rfl⟩⟩ := h
  · simp [rotTurn, rotationUnlessFaulted, State.faulted, rotAt, hn]
  · simp [rotTurn, rotationUnlessFaulted, State.faulted]

/-- Twenty phases from the angle load are ROTATE. -/
theorem unitTurns_rotLoad (v : Word64) (s : State) : unitTurns .rot .phase 20 (rotLoad v s) = execRotate v s :=
  unitTurns_eq_forEach (as := List.range 20) (cost := 1) (P := RotRunning s)
    (fun n hn t h => by
      rw [List.length_range] at hn
      exact (unitTurns_one _ _ t).trans (rotTurn_of_running hn h))
    (fun n hn t u h hu => by
      rw [List.length_range] at hn
      exact rotationUnlessFaulted_running hn h hu)
    ⟨v, s.cfg.kgain, 0, .inl rfl⟩

/-- Twenty-one phases of ROT in HAVE_LO are its whole turn. -/
theorem unitTurns_rot_of_haveLo {s : State} (phase : s.rot.phase = .haveLo) :
    unitTurns .rot .phase 21 s = takeTurn (.unit .rot .whole) s := by
  have turn (g : Grain) : takeTurn (.unit .rot g) s = rotSecondWord g s := rotTurn_of_haveLo g phase
  cases fifo : s.rotIn with
  | nil => rw [unitTurns_of_hold ((turn _).trans (rotSecondWord_of_nil _ fifo)), turn, rotSecondWord_of_nil _ fifo]
  | cons w ws =>
    rw [unitTurns_succ, turn, turn, rotSecondWord_phase_of_cons fifo, rotSecondWord_whole_of_cons fifo, andThen_next,
      unitTurns_rotLoad]

/-- Settles O21: after the second word, ROTATE's loop takes a phase of ROT for each pseudo-rotation. -/
theorem rotPhasesEqualWhole : Obligations.RotPhasesEqualWhole := by
  unfold Obligations.RotPhasesEqualWhole
  intro s ts wf phase
  have phases := run_unitTurns .rot .phase ts 21 s.tick wf
  have whole := run_unitTurns .rot .whole ts 1 (s.tick + 20) wf
  rw [unitTurns_rot_of_haveLo (s := s.scheduled ts (s.tick + 21)) phase] at phases
  rw [unitTurns_one] at whole
  exact phases.trans whole.symm

end Sys2Proof.Machine

/-! A ROTATE transaction (20_memory R78, R83; 40_cordic R128). -/

namespace Sys2Proof.Machine

/-- s with the response words `ws` pushed and ROT in phase p. -/
def emitting (s : State) (ws : List Word32) (p : RotPhase) : State :=
  { s with rotOut := s.rotOut ++ ws, rot := { s.rot with phase := p } }

theorem rotTurn_emitting {s : State} (g : Grain) (ws : List Word32) (k : Fin 4)
    (room : s.rotOut.length + ws.length < s.cfg.outDepth) :
    rotTurn g (emitting s ws (.emit k)) =
      .next (emitting s (ws ++ [rotResponse s.rot k]) (rotPhaseAfterEmit k)) := by
  refine (rotEmit_eq k (emitting s ws (.emit k))).trans (congrArg _ ((if_pos ?_).trans ?_))
  · simpa [emitting] using room
  · simp [emitting, rotResponse]

/-- Four turns from EMIT(0) push the response and end in IDLE (40_cordic R128). -/
theorem unitTurns_of_emit {s : State} (g : Grain) (phase : s.rot.phase = .emit 0)
    (room : s.rotOut.length + 4 ≤ s.cfg.outDepth) :
    unitTurns .rot g 4 s =
      .next (emitting s [lowWord s.rot.cos, highWord s.rot.cos, lowWord s.rot.sin, highWord s.rot.sin] .idle) := by
  have start : s = emitting s [] (.emit 0) := by rw [emitting, List.append_nil, ← phase]
  have turn (ws : List Word32) (k : Fin 4) (fits : ws.length < 4) :
      takeTurn (.unit .rot g) (emitting s ws (.emit k)) =
        .next (emitting s (ws ++ [rotResponse s.rot k]) (rotPhaseAfterEmit k)) :=
    rotTurn_emitting g ws k (by omega)
  have next : rotPhaseAfterEmit 0 = .emit 1 ∧ rotPhaseAfterEmit 1 = .emit 2 ∧ rotPhaseAfterEmit 2 = .emit 3 ∧
    rotPhaseAfterEmit 3 = .idle := by decide
  obtain ⟨next0, next1, next2, next3⟩ := next
  conv_lhs => rw [start]
  simp [unitTurns_succ, turn, next0, next1, next2, next3, rotResponse]

theorem rotTurn_of_idle {s : State} (g : Grain) (h : s.rot.phase = .idle) : rotTurn g s = rotFirstWord s := by
  simp [rotTurn, h]

/-- s with ROT in HAVE_LO, a request's first word taken and `ws` behind it. -/
def rotHavingLo (s : State) (w : Word32) (ws : List Word32) : State :=
  { s with rotIn := ws, rot := { s.rot with lo := w, phase := .haveLo } }

/-- Two whole turns from IDLE take a request and execute it (30_encoding R101). -/
theorem unitTurns_rot_request {s : State} {w0 w1 : Word32} {rest : List Word32} (idle : s.rot.phase = .idle)
    (fifo : s.rotIn = w0 :: w1 :: rest) :
    unitTurns .rot .whole 2 s = execRotate (requestValue w1 w0) (rotHavingLo s w0 rest) := by
  have first : takeTurn (.unit .rot .whole) s = .next (rotHavingLo s w0 (w1 :: rest)) :=
    (rotTurn_of_idle _ idle).trans (rotFirstWord_of_cons fifo)
  rw [unitTurns_succ, first, andThen_next, unitTurns_one]
  exact (rotTurn_of_haveLo .whole rfl).trans (rotSecondWord_whole_of_cons (s := rotHavingLo s w0 (w1 :: rest)) rfl)

/-- Two turns take and execute a request that does not overflow, and four push its response. -/
theorem unitTurns_rot_transaction {s : State} {w0 w1 : Word32} {rest : List Word32} {t c z : Int}
    (wf : s.cfg.wf = true) (idle : s.rot.phase = .idle) (fifo : s.rotIn = w0 :: w1 :: rest)
    (room : s.rotOut.length + 4 ≤ s.cfg.outDepth) (h : Functions.rotate s.cfg (requestValue w1 w0) = .ok (t, c, z)) :
    unitTurns .rot .whole (2 + 4) s =
      .next { s with
        rot := { s.rot with
          lo := w0, theta := BitVec.ofInt 64 t, cos := BitVec.ofInt 64 c, sin := BitVec.ofInt 64 z, i := 19
          phase := .idle }
        rotIn := rest
        rotOut := s.rotOut ++
          [lowWord (BitVec.ofInt 64 c), highWord (BitVec.ofInt 64 c), lowWord (BitVec.ofInt 64 z),
            highWord (BitVec.ofInt 64 z)] } := by
  have result : execRotate (requestValue w1 w0) (rotHavingLo s w0 rest) = _ :=
    rotateComputesItsFunction (rotHavingLo s w0 rest) (requestValue w1 w0) t c z wf h
  rw [unitTurns_add, unitTurns_rot_request idle fifo, result, andThen_next]
  exact unitTurns_of_emit .whole rfl room

/-- Settles O20: the transaction's six turns, whatever schedule follows them. -/
theorem rotateTransaction : Obligations.RotateTransaction := by
  unfold Obligations.RotateTransaction
  intro s w0 w1 rest ts t c z wf idle fifo room turns h
  have schedule : s = s.scheduled (List.replicate 6 (.unit .rot .whole) ++ ts) s.tick := by
    rw [← turns]
    rfl
  have transaction := unitTurns_rot_transaction (s := s.scheduled ts (s.tick + 6)) wf idle fifo room h
  exact (congrArg (run 6) schedule).trans ((run_unitTurns .rot .whole ts 6 s.tick wf).trans transaction)

end Sys2Proof.Machine

/-! CLS's phases and its whole turn (20_memory R78). -/

namespace Sys2Proof.Machine

/-- The phase before the updates of class n, or after those of the last class (10_state R37). -/
def classPhase (n : Nat) : ClsPhase := if h : n < 10 then .update ⟨n, h⟩ 0 else .vote 0

/-- The phase before UPDATE(c, n), or after the last update of class c (10_state R37). -/
def updatePhase (cfg : Cfg) (c : ClassIdx) (n : Nat) : ClsPhase :=
  if n < cfg.trainN then .update c n else classPhase (c.val + 1)

/-- The phase before vote round n, or after the last round (10_state R37). -/
def roundPhase (cfg : Cfg) (n : Nat) : ClsPhase := if n < cfg.knnK then .vote n else .decide

theorem clsPhaseAfterUpdate_eq (cfg : Cfg) (c : ClassIdx) (n : Nat) :
    clsPhaseAfterUpdate cfg c n = updatePhase cfg c (n + 1) := rfl

theorem clsPhaseAfterVote_eq (cfg : Cfg) (n : Nat) : clsPhaseAfterVote cfg n = roundPhase cfg (n + 1) := rfl

/-- Before turn n of a loop of CLS: the configuration is `cfg`, and CLS is in the phase of that turn. -/
def ClsAt (cfg : Cfg) (phase : Nat → ClsPhase) (n : Nat) (s : State) : Prop := s.cfg = cfg ∧ s.cls.phase = phase n

theorem clsUpdate_clsAt {cfg : Cfg} {c : ClassIdx} {n : Nat} {s t : State} (h : ClsAt cfg (updatePhase cfg c) n s)
    (ht : clsUpdate c n s = .next t) : ClsAt cfg (updatePhase cfg c) (n + 1) t := by
  obtain ⟨rfl, -⟩ := h
  obtain ⟨x, -, rfl⟩ := clsUpdate_eq_next ht
  exact ⟨rfl, clsEnter_phase _ _⟩

theorem clsVote_clsAt {cfg : Cfg} {n : Nat} {s t : State} (h : ClsAt cfg (roundPhase cfg) n s)
    (ht : clsVote n s = .next t) : ClsAt cfg (roundPhase cfg) (n + 1) t := by
  obtain ⟨rfl, -⟩ := h
  obtain ⟨heads, -, rfl⟩ := clsVote_eq_next ht
  exact ⟨rfl, rfl⟩

/-- The phases of a class's updates are step 1 of CLASSIFY for it (41_knn_update R158). -/
theorem unitTurns_updateKnn {s : State} {c : ClassIdx} (phase : s.cls.phase = .update c 0) (hn : 0 < s.cfg.trainN) :
    unitTurns .cls .phase s.cfg.trainN s = updateKnn c s ∧
      ∀ t, updateKnn c s = .next t → ClsAt s.cfg classPhase (c.val + 1) t := by
  have start : ClsAt s.cfg (updatePhase s.cfg c) 0 s := ⟨rfl, by rw [updatePhase, if_pos hn, phase]⟩
  have keeps (n : Nat) (hn : n < (List.range s.cfg.trainN).length) (t u : State)
      (h : ClsAt s.cfg (updatePhase s.cfg c) n t) (hu : clsUpdate c (List.range s.cfg.trainN)[n] t = .next u) :
      ClsAt s.cfg (updatePhase s.cfg c) (n + 1) u := by
    rw [List.getElem_range] at hu
    exact clsUpdate_clsAt h hu
  refine ⟨?_, fun t ht => ?_⟩
  · have loop := unitTurns_eq_forEach (u := .cls) (g := .phase) (cost := 1) (fun n hn t h => ?_) keeps start
    · rwa [List.length_range, one_mul] at loop
    · rw [List.length_range] at hn
      obtain ⟨-, phase⟩ := h
      rw [updatePhase, if_pos hn] at phase
      simp [takeTurn, clsTurn, phase]
  · obtain ⟨cfg, phase⟩ := forEach_reaches keeps start ht
    rw [List.length_range, updatePhase, if_neg (lt_irrefl _)] at phase
    exact ⟨cfg, phase⟩

/-- The phases of all classes' updates are the update loop. -/
theorem unitTurns_updateLoop {s : State} (phase : s.cls.phase = .update 0 0) (hn : 0 < s.cfg.trainN) :
    unitTurns .cls .phase (s.cfg.trainN * 10) s = forEach updateKnn (List.finRange 10) s := by
  have turns (n : Nat) (hn10 : n < (List.finRange 10).length) (t : State) (h : ClsAt s.cfg classPhase n t) :
      unitTurns .cls .phase s.cfg.trainN t = updateKnn (List.finRange 10)[n] t ∧
        ∀ u, updateKnn (List.finRange 10)[n] t = .next u → ClsAt s.cfg classPhase (n + 1) u := by
    rw [List.length_finRange] at hn10
    obtain ⟨cfg, phase⟩ := h
    rw [classPhase, dif_pos hn10] at phase
    rw [List.getElem_finRange, ← cfg]
    exact unitTurns_updateKnn phase (by rwa [cfg])
  exact unitTurns_eq_forEach (as := List.finRange 10) (P := ClsAt s.cfg classPhase)
    (fun n hn10 t h => (turns n hn10 t h).1) (fun n hn10 t u h => (turns n hn10 t h).2 u) ⟨rfl, phase⟩

/-- The phases of the vote rounds, and DECIDE, are the vote loop and the decision. -/
theorem unitTurns_voteLoop {s : State} (phase : s.cls.phase = .vote 0) (hk : 0 < s.cfg.knnK) :
    unitTurns .cls .phase (s.cfg.knnK + 1) s =
      andThen (forEach clsVote (List.range s.cfg.knnK) s) fun s => .next (clsDecide s) := by
  have start : ClsAt s.cfg (roundPhase s.cfg) 0 s := ⟨rfl, by rw [roundPhase, if_pos hk, phase]⟩
  have keeps (n : Nat) (hn : n < (List.range s.cfg.knnK).length) (t u : State)
      (h : ClsAt s.cfg (roundPhase s.cfg) n t) (hu : clsVote (List.range s.cfg.knnK)[n] t = .next u) :
      ClsAt s.cfg (roundPhase s.cfg) (n + 1) u := by
    rw [List.getElem_range] at hu
    exact clsVote_clsAt h hu
  have loop := unitTurns_eq_forEach (u := .cls) (g := .phase) (cost := 1) (fun n hn t h => ?_) keeps start
  · rw [List.length_range, one_mul] at loop
    rw [unitTurns_add, loop]
    refine andThen_congr fun t ht => ?_
    obtain ⟨-, phase⟩ := forEach_reaches keeps start ht
    rw [List.length_range, roundPhase, if_neg (lt_irrefl _)] at phase
    simp [takeTurn, clsTurn, phase]
  · rw [List.length_range] at hn
    obtain ⟨-, phase⟩ := h
    rw [roundPhase, if_pos hn] at phase
    simp [takeTurn, clsTurn, phase]

/-- The phases from INIT to DECIDE are the classification. -/
theorem unitTurns_classifyQuery {s : State} (phase : s.cls.phase = .init) (hn : 0 < s.cfg.trainN)
    (hk : 0 < s.cfg.knnK) :
    unitTurns .cls .phase (1 + (s.cfg.trainN * 10 + (s.cfg.knnK + 1))) s = classifyQuery s := by
  have init : takeTurn (.unit .cls .phase) s = .next (clsInit s) := by simp [takeTurn, clsTurn, phase]
  rw [unitTurns_add, unitTurns_one, init, andThen_next, unitTurns_add]
  have loop := unitTurns_updateLoop (s := clsInit s) rfl hn
  rw [clsInit_cfg] at loop
  rw [loop, classifyQuery]
  refine andThen_congr fun t ht => ?_
  have cfg : t.cfg = s.cfg := (forEach_frame (fun _ _ _ h => updateKnn_frame h) ht).cfg
  obtain ⟨vote, -⟩ := updateLoop_last ht hn
  rw [← cfg]
  exact unitTurns_voteLoop vote (by rwa [cfg])

/-- The phases from CHECK to DECIDE are CLASSIFY. -/
theorem unitTurns_execClassify {s : State} {v : Word64} (wf : s.cfg.wf = true) (phase : s.cls.phase = .check v) :
    unitTurns .cls .phase (1 + (1 + (s.cfg.trainN * 10 + (s.cfg.knnK + 1)))) s = execClassify v s := by
  obtain ⟨-, hk, -⟩ := (cfg_wf_iff s.cfg).1 wf
  have check : takeTurn (.unit .cls .phase) s = .next (clsCheck v s) := by simp [takeTurn, clsTurn, phase]
  rw [unitTurns_add, unitTurns_one, check, andThen_next]
  obtain faulted | ⟨hn, accepted, init⟩ := clsCheck_faulted_or_accepts v s
  · rw [unitTurns_of_hold (takeTurn_of_faulted .cls .phase faulted), execClassify_of_faulted faulted]
  · rw [execClassify_of_accepted accepted]
    rw [← clsCheck_cfg v s] at hn hk ⊢
    exact unitTurns_classifyQuery init hn hk

/-- CLASSIFY does not look at the phase it starts from. -/
theorem execClassify_phase (v : Word64) (p : ClsPhase) (s : State) :
    execClassify v { s with cls := { s.cls with phase := p } } = execClassify v s := by
  rw [execClassify, clsCheck_phase, execClassify]

/-- The phases of CLS from HAVE_LO to DECIDE are its whole turn. -/
theorem unitTurns_cls_of_haveLo {s : State} (wf : s.cfg.wf = true) (phase : s.cls.phase = .haveLo) :
    unitTurns .cls .phase (4 + 10 * s.cfg.trainN + s.cfg.knnK) s = takeTurn (.unit .cls .whole) s := by
  have turn (g : Grain) : takeTurn (.unit .cls g) s = clsSecondWord g s := clsTurn_of_haveLo g phase
  cases fifo : s.clsIn with
  | nil => rw [unitTurns_of_hold ((turn _).trans (clsSecondWord_of_nil _ fifo)), turn, clsSecondWord_of_nil _ fifo]
  | cons w ws =>
    have phases : 4 + 10 * s.cfg.trainN + s.cfg.knnK = 1 + (1 + (s.cfg.trainN * 10 + (s.cfg.knnK + 1))) + 1 := by omega
    rw [phases, unitTurns_succ, turn, turn, clsSecondWord_phase_of_cons fifo, clsSecondWord_whole_of_cons fifo,
      andThen_next]
    refine Eq.trans ?_ (execClassify_phase _ (.check (requestValue w s.cls.lo)) { s with clsIn := ws })
    exact unitTurns_execClassify wf rfl

/-- Settles O40: after the second word, CHECK, INIT, each update, each vote round and DECIDE take a phase of CLS. -/
theorem clsPhasesEqualWhole : Obligations.ClsPhasesEqualWhole := by
  unfold Obligations.ClsPhasesEqualWhole
  intro s ts wf phase
  have count := unitTurns_cls_of_haveLo (s := s.scheduled ts (s.tick + (4 + 10 * s.cfg.trainN + s.cfg.knnK))) wf phase
  have phases := run_unitTurns .cls .phase ts (4 + 10 * s.cfg.trainN + s.cfg.knnK) s.tick wf
  have whole := run_unitTurns .cls .whole ts 1 (s.tick + 3 + 10 * s.cfg.trainN + s.cfg.knnK) wf
  have ticks : s.tick + 3 + 10 * s.cfg.trainN + s.cfg.knnK + 1 = s.tick + (4 + 10 * s.cfg.trainN + s.cfg.knnK) := by
    omega
  rw [unitTurns_one, ticks] at whole
  exact (phases.trans count).trans whole.symm

end Sys2Proof.Machine

/-! Bounded ordered insertion, on lists of numbers: what the k-best arrays of `smallest` go through (41_knn_update R156,
R157). -/

namespace Sys2Proof.Functions

/-- Ordered insertion of a distance. -/
abbrev insertNat (d : Nat) (l : List Nat) : List Nat := l.orderedInsert (fun a b => a ≤ b) d

/-- Sorting a list of distances. -/
abbrev sortNat (l : List Nat) : List Nat := l.insertionSort fun a b => a ≤ b

theorem insertNat_append_of_le {d : Nat} {r : List Nat} (h : ∀ e ∈ r, d ≤ e) (l : List Nat) :
    insertNat d (l ++ r) = insertNat d l ++ r := by
  induction l with
  | nil =>
    cases r with
    | nil => rfl
    | cons e r => simp [h e (by simp)]
  | cons a l ih =>
    simp only [insertNat, List.cons_append, List.orderedInsert_cons]
    split
    · simp
    · simp only [List.cons_append]
      exact congrArg _ ih

/-- What is cut off before an insertion would be cut off after it. -/
theorem take_insertNat_take (d k : Nat) (l : List Nat) : (insertNat d (l.take k)).take k = (insertNat d l).take k := by
  induction l generalizing k with
  | nil => simp
  | cons a l ih =>
    cases k with
    | zero => simp
    | succ k =>
      simp only [insertNat, List.take_succ_cons, List.orderedInsert_cons]
      split
      · cases k <;> simp [List.take_take]
      · simpa using ih k

theorem sortNat_append_singleton (l : List Nat) (d : Nat) : sortNat (l ++ [d]) = insertNat d (sortNat l) := by
  have perm : (sortNat (l ++ [d])).Perm (sortNat (d :: l)) :=
    (List.perm_insertionSort _ _).trans ((List.perm_append_singleton d l).trans (List.perm_insertionSort _ _).symm)
  exact perm.eq_of_pairwise (fun _ _ _ _ => Nat.le_antisymm) (List.pairwise_insertionSort _ _)
    (List.pairwise_insertionSort _ (d :: l))

/-- The K smallest are the first K of the sorted distances with K sentinels behind them. -/
theorem smallest_eq_take (k : Nat) (ds : List Nat) : smallest k ds = (sortNat ds ++ List.replicate k 50).take k := by
  rw [smallest, List.take_append, List.take_replicate, List.length_insertionSort, min_eq_left (Nat.sub_le k _)]

@[simp] theorem smallest_nil (k : Nat) : smallest k [] = List.replicate k 50 := by simp [smallest]

/-- One more distance is inserted in order, and the largest is dropped (41_knn_update R156). -/
theorem smallest_append_singleton (k : Nat) (ds : List Nat) {d : Nat} (h : d ≤ 50) :
    smallest k (ds ++ [d]) = (insertNat d (smallest k ds)).take k := by
  have sentinels : ∀ e ∈ List.replicate k 50, d ≤ e := fun e he => by rwa [List.eq_of_mem_replicate he]
  rw [smallest_eq_take, smallest_eq_take, take_insertNat_take, insertNat_append_of_le sentinels,
    sortNat_append_singleton]

/-- The count of differing bits is the number of 1 bits of the XOR (00_scope R14, 41_knn_update R155). -/
theorem distance_eq_popcount (q x : Bitmap) : distance q x = Machine.popcount (q ^^^ x) := by
  rw [Machine.popcount, ← List.map_coe_finRange_eq_range, List.countP_map, List.countP_eq_length_filter, distance]
  congr 2
  funext j
  simp

/-! The winner is the lowest class as good as every class (42_knn_vote R184). -/

theorem winner_eq {cnt score : ClassIdx → Nat} {r : ClassIdx} (good : ∀ b, asGood cnt score r b = true)
    (lowest : ∀ c < r, ∃ b, asGood cnt score c b = false) : winner cnt score = r := by
  have found : (List.finRange 10).find? (fun c => (List.finRange 10).all fun b => asGood cnt score c b) = some r := by
    refine List.find?_eq_some_iff_getElem.2 ⟨by simpa using good, r.val, by simp, by simp, fun j hj => ?_⟩
    obtain ⟨b, hb⟩ := lowest ⟨j, hj.trans r.isLt⟩ hj
    simpa using ⟨b, hb⟩
  rw [winner, found, Option.getD_some]

end Sys2Proof.Functions

/-! CLASSIFY follows its function (41_knn_update R150 to R158, 42_knn_vote R180 to R186). -/

namespace Sys2Proof.Machine

open Functions

theorem hamming_toNat_eq_distance (q x : Bitmap) : (hamming q x).toNat = distance q x := by
  rw [hamming_toNat, distance_eq_popcount]

/-- Insertion into an ascending array inserts in order and drops the largest (41_knn_update R156). -/
theorem insertDist_eq_take {kb : List Dist} (d : Dist) (h : Ascending kb) :
    insertDist kb d = (kb.orderedInsert DistLe d).take kb.length := by
  induction kb using List.reverseRecOn with
  | nil => simp [insertDist]
  | append_singleton l w _ =>
    have asc := (List.pairwise_append.1 h).1
    have last : (l ++ [w])[(l ++ [w]).length - 1]? = some w := by simp
    rw [insertDist, last]
    by_cases hdw : d.toNat < w.toNat
    · have swap : (l ++ [w]).set ((l ++ [w]).length - 1) d = l ++ [d] := by simp
      have len : (l ++ [w]).length - 1 = l.length := by simp
      simp only [distLt, hdw, decide_true, if_true]
      rw [swap, len, bubble_insert d [] l asc, orderedInsert_append d w hdw.le,
        List.append_nil, List.length_append, List.length_singleton, ← List.orderedInsert_length DistLe l d,
        List.take_left]
    · have above : ∀ a ∈ l ++ [w], DistLe a d := by
        intro a ha
        rcases List.mem_append.1 ha with ha | ha
        · exact ((List.pairwise_append.1 h).2.2 a ha w (by simp)).trans (not_lt.1 hdw)
        · rw [List.mem_singleton.1 ha]
          exact not_lt.1 hdw
      have whole : Ascending (l ++ [w] ++ [d]) :=
        List.pairwise_append.2 ⟨h, by simp, fun a ha b hb => by rw [List.mem_singleton.1 hb]; exact above a ha⟩
      simp only [distLt, hdw, decide_false, Bool.false_eq_true, if_false]
      rw [orderedInsert_ge d whole, List.take_left]

/-- The same on the entries' numbers. -/
theorem insertDist_map_toNat {kb : List Dist} (d : Dist) (h : Ascending kb) :
    (insertDist kb d).map (·.toNat) = (insertNat d.toNat (kb.map (·.toNat))).take kb.length := by
  rw [insertDist_eq_take d h, List.map_take]
  congr 1
  exact List.map_orderedInsert _ _ _ _ _ (fun _ _ => Iff.rfl) (fun _ _ => Iff.rfl)

/-- From K sentinels the array holds the K smallest of the distances inserted (41_knn_update R157). -/
theorem foldl_insertDist_smallest (k : Nat) (ds : List Dist) (h : ∀ d ∈ ds, d.toNat ≤ 50) :
    Ascending (ds.foldl insertDist (List.replicate k 50)) ∧
      (ds.foldl insertDist (List.replicate k 50)).map (·.toNat) = smallest k (ds.map (·.toNat)) := by
  induction ds using List.reverseRecOn with
  | nil => exact ⟨List.pairwise_replicate.2 (.inr le_rfl), by simp⟩
  | append_singleton ds d ih =>
    obtain ⟨asc, entries⟩ := ih fun e he => h e (by simp [he])
    have len : (ds.foldl insertDist (List.replicate k 50)).length = k := by
      rw [← List.length_map (·.toNat), entries, smallest_eq_take]
      simp
    rw [List.foldl_append, List.foldl_cons, List.foldl_nil]
    refine ⟨insertDist_ascending d asc, ?_⟩
    rw [insertDist_map_toNat d asc, entries, len, List.map_append, List.map_singleton,
      smallest_append_singleton k _ (h d (by simp))]

end Sys2Proof.Machine

/-! The update loop inserts each class's distances into its own array (41_knn_update R158). -/

namespace Sys2Proof.Machine

open Functions

/-- The training instances of class c (10_state R55). -/
def trainRow (cfg : Cfg) (c : ClassIdx) : List Bitmap := cfg.train.getD c.val []

theorem trainRow_length {cfg : Cfg} (wf : cfg.wf = true) (c : ClassIdx) : (trainRow cfg c).length = cfg.trainN := by
  obtain ⟨-, -, ⟨len, rows⟩, -⟩ := (cfg_wf_iff cfg).1 wf
  have hc : c.val < cfg.train.length := by omega
  rw [trainRow, List.getD_eq_getElem _ _ hc]
  exact rows _ (List.getElem_mem hc)

theorem getElem?_trainRow_of_trainRead {cfg : Cfg} {c : ClassIdx} {n : Nat} {x : Bitmap}
    (h : trainRead cfg c n = .ok x) : (trainRow cfg c)[n]? = some x := by
  unfold trainRead at h
  split at h
  · rename_i row hrow
    split at h
    · rename_i y hy
      cases h
      simpa [trainRow, hrow] using hy
    · cases h
  · cases h

/-- Array kb with the distances of query q to the instances xs inserted, in order. -/
def insertAll (q : Bitmap) (kb : List Dist) (xs : List Bitmap) : List Dist := (xs.map (hamming q)).foldl insertDist kb

theorem insertAll_append_singleton (q : Bitmap) (kb : List Dist) (xs : List Bitmap) (x : Bitmap) :
    insertAll q kb (xs ++ [x]) = insertDist (insertAll q kb xs) (hamming q x) := by
  simp [insertAll]

/-- t is s with the k-best arrays `kbest`, in any phase and with any tallies. -/
structure Updated (s t : State) (kbest : ClassIdx → List Dist) : Prop where
  frame : ClassifyFrame s t
  arrays : ∀ b, getAt t.cls.kbest b = kbest b

theorem ClassifyFrame.query {s t : State} (h : ClassifyFrame s t) : t.cls.query = s.cls.query := by rw [h]

/-- u is s with the first n instances of class c inserted into its array. -/
def InstancesInserted (s : State) (c : ClassIdx) (n : Nat) (u : State) : Prop :=
  Updated s u fun b =>
    if b = c then insertAll s.cls.query (getAt s.cls.kbest c) ((trainRow s.cfg c).take n) else getAt s.cls.kbest b

/-- u is s with the instances of the first n classes inserted into their arrays. -/
def ClassesInserted (s : State) (n : Nat) (u : State) : Prop :=
  Updated s u fun b =>
    if b.val < n then insertAll s.cls.query (getAt s.cls.kbest b) (trainRow s.cfg b) else getAt s.cls.kbest b

theorem clsUpdate_inserted {s u v : State} {c : ClassIdx} {n : Nat} (hu : InstancesInserted s c n u)
    (hv : clsUpdate c n u = .next v) : InstancesInserted s c (n + 1) v := by
  obtain ⟨x, hx, rfl⟩ := clsUpdate_eq_next hv
  refine ⟨hu.frame.trans (clsUpdate_frame hv), fun b => ?_⟩
  rw [hu.frame.cfg] at hx
  have taken : (trainRow s.cfg c).take (n + 1) = (trainRow s.cfg c).take n ++ [x] := by
    rw [List.take_add_one, getElem?_trainRow_of_trainRead hx]
    rfl
  simp only [clsEnter_kbest, getAt_setAt, hu.arrays, taken, insertAll_append_singleton, hu.frame.query, if_true]
  split <;> rfl

/-- The updates of class c insert its instances' distances into its array, and leave the other arrays. -/
theorem updateKnn_inserted {c : ClassIdx} {s t : State} (wf : s.cfg.wf = true) (h : updateKnn c s = .next t) :
    Updated s t fun b =>
      if b = c then insertAll s.cls.query (getAt s.cls.kbest c) (trainRow s.cfg c) else getAt s.cls.kbest b := by
  have start : InstancesInserted s c 0 s := ⟨.refl s, fun b => by split <;> simp_all [insertAll]⟩
  have done : InstancesInserted s c (List.range s.cfg.trainN).length t :=
    forEach_reaches (fun n _ u v hu hv => clsUpdate_inserted hu (by rwa [List.getElem_range] at hv)) start h
  rwa [InstancesInserted, List.length_range, ← trainRow_length wf c, List.take_length] at done

theorem updateKnn_classesInserted {s u v : State} {c : ClassIdx} (wf : s.cfg.wf = true)
    (hu : ClassesInserted s c.val u) (hv : updateKnn c u = .next v) : ClassesInserted s (c.val + 1) v := by
  have one := updateKnn_inserted (by rwa [hu.frame.cfg]) hv
  refine ⟨hu.frame.trans one.frame, fun b => ?_⟩
  rw [one.arrays, hu.arrays, hu.arrays, hu.frame.cfg, hu.frame.query]
  by_cases own : b = c
  · simp [own]
  · have earlier : b.val < c.val + 1 ↔ b.val < c.val := by
      have := Fin.val_ne_of_ne own
      omega
    simp [own, earlier]

/-- The update loop inserts every class's distances. -/
theorem updateLoop_inserted {s t : State} (wf : s.cfg.wf = true)
    (h : forEach updateKnn (List.finRange 10) s = .next t) :
    Updated s t fun b => insertAll s.cls.query (getAt s.cls.kbest b) (trainRow s.cfg b) := by
  have start : ClassesInserted s 0 s := ⟨.refl s, fun b => by simp⟩
  have done : ClassesInserted s (List.finRange 10).length t :=
    forEach_reaches (fun n hn u v hu hv => by
      rw [List.getElem_finRange] at hv
      exact updateKnn_classesInserted wf hu hv) start h
  exact ⟨done.frame, fun b => by simpa using done.arrays b⟩

/-- The arrays after the update loop are those of CLASSIFY's function (42_knn_vote R186). -/
theorem insertAll_sentinels (cfg : Cfg) (q : Bitmap) (c : ClassIdx) :
    Ascending (insertAll q (List.replicate cfg.knnK Config.sentinel) (trainRow cfg c)) ∧
      (insertAll q (List.replicate cfg.knnK Config.sentinel) (trainRow cfg c)).map (·.toNat) =
        Functions.kbest cfg q c := by
  have le50 : ∀ d ∈ (trainRow cfg c).map (hamming q), d.toNat ≤ 50 := by
    intro d hd
    obtain ⟨x, -, rfl⟩ := List.mem_map.1 hd
    have := popcount_le (q ^^^ x)
    rw [hamming_toNat]
    omega
  obtain ⟨asc, entries⟩ := foldl_insertDist_smallest cfg.knnK _ le50
  refine ⟨asc, entries.trans ?_⟩
  rw [List.map_map, Functions.kbest, distances, trainRow]
  congr 2
  funext x
  exact hamming_toNat_eq_distance q x

/-! The decision (42_knn_vote R184). -/

/-- DECIDE's order on classes as an order on keys: the larger count, then the larger score, is the smaller key. -/
def tallyKey (cnt score : PerClass Nat) (c : ClassIdx) : (Nat ×ₗ Nat)ᵒᵈ :=
  OrderDual.toDual (toLex (getAt cnt c, getAt score c))

theorem decision_eq_winner (cnt score : PerClass Nat) : decision cnt score = winner (getAt cnt) (getAt score) := by
  have strict (c b : ClassIdx) :
      tallyBeats (getAt cnt c) (getAt score c) (getAt cnt b) (getAt score b) =
        decide (tallyKey cnt score c < tallyKey cnt score b) := by
    simp only [tallyBeats, tallyKey, OrderDual.toDual_lt_toDual, Prod.Lex.toLex_lt_toLex]
    congr 1
    simp [eq_comm]
  have weak (c b : ClassIdx) :
      asGood (getAt cnt) (getAt score) c b = decide (tallyKey cnt score c ≤ tallyKey cnt score b) := by
    simp only [asGood, tallyKey, OrderDual.toDual_le_toDual, Prod.Lex.toLex_le_toLex]
  have best := firstBest_smallest (tallyKey cnt score)
  have same : decision cnt score = firstBest fun c b => decide (tallyKey cnt score c < tallyKey cnt score b) := by
    simp only [decision, strict]
  rw [← same] at best
  refine (winner_eq (fun b => ?_) fun c hc => ⟨decision cnt score, ?_⟩).symm
  · rw [weak]
    exact decide_eq_true (best b).1
  · rw [weak]
    exact decide_eq_false (not_le.2 ((best c).2 hc))

theorem decision_ofFn (cnt score : ClassIdx → Nat) :
    decision (Vector.ofFn cnt) (Vector.ofFn score) = winner cnt score := by
  rw [decision_eq_winner]
  congr 1 <;> exact funext fun c => getAt_ofFn _ c

/-- CLASSIFY's steps 1 and 2 on an accepted query compute its function (42_knn_vote R186). -/
theorem classifyQuery_eq {s : State} (wf : s.cfg.wf = true) (hn : 0 < s.cfg.trainN) :
    classifyQuery s =
      .next { s with
        cls := { s.cls with
          kbest := Vector.ofFn fun c => (Functions.kbest s.cfg s.cls.query c).map (BitVec.ofNat 6)
          ptr := Vector.ofFn (countOf (neighbours s.cfg s.cls.query))
          cnt := Vector.ofFn (countOf (neighbours s.cfg s.cls.query))
          score := Vector.ofFn (scoreOf s.cfg.knnK (neighbours s.cfg s.cls.query))
          result := BitVec.ofNat 4 (classOf s.cfg s.cls.query).val
          phase := .emit } } := by
  obtain ⟨-, hk, -⟩ := (cfg_wf_iff s.cfg).1 wf
  obtain ⟨u, hu⟩ := updateLoop_completes (s := clsInit s) wf (List.finRange 10)
  obtain ⟨frame, arrays⟩ := updateLoop_inserted (s := clsInit s) wf hu
  obtain ⟨-, ptr, cnt, score⟩ := updateLoop_last hu hn
  have cfg : u.cfg = s.cfg := frame.cfg
  have form := updateLoop_kbestInv hu (clsInit_kbestInv s)
  have entries (c : ClassIdx) : Functions.kbest s.cfg s.cls.query c = (getAt u.cls.kbest c).map (·.toNat) := by
    rw [arrays, clsInit_cls, getAt_allClasses]
    exact (insertAll_sentinels s.cfg s.cls.query c).2.symm
  have votes := voteCountsNearestNeighbours u (Functions.kbest s.cfg s.cls.query) (by rwa [cfg])
    (fun c => ⟨(form c).1, (form c).2.1⟩) entries (fun c => by simp [ptr, cnt, score])
  have kbest : u.cls.kbest = Vector.ofFn fun c => (Functions.kbest s.cfg s.cls.query c).map (BitVec.ofNat 6) :=
    perClass_ext fun c => by simp [entries, Function.comp_def]
  rw [classifyQuery, hu, andThen_next, votes, andThen_next, clsDecide, decision_ofFn, ← kbest, frame]
  rfl

end Sys2Proof.Machine

/-! A CLASSIFY transaction (20_memory R78, R83; 42_knn_vote R185). -/

namespace Sys2Proof.Machine

open Functions

/-- s with CLS in HAVE_LO, a request's first word taken and `ws` behind it. -/
def clsHavingLo (s : State) (w : Word32) (ws : List Word32) : State :=
  { s with clsIn := ws, cls := { s.cls with lo := w, phase := .haveLo } }

theorem clsTurn_of_idle {s : State} (g : Grain) (h : s.cls.phase = .idle) : clsTurn g s = clsFirstWord s := by
  simp [clsTurn, h]

/-- Two whole turns from IDLE take a request and execute it (30_encoding R101). -/
theorem unitTurns_cls_request {s : State} {w0 w1 : Word32} {rest : List Word32} (idle : s.cls.phase = .idle)
    (fifo : s.clsIn = w0 :: w1 :: rest) :
    unitTurns .cls .whole 2 s = execClassify (requestValue w1 w0) (clsHavingLo s w0 rest) := by
  have first : takeTurn (.unit .cls .whole) s = .next (clsHavingLo s w0 (w1 :: rest)) :=
    (clsTurn_of_idle _ idle).trans (clsFirstWord_of_cons fifo)
  rw [unitTurns_succ, first, andThen_next, unitTurns_one]
  exact (clsTurn_of_haveLo .whole rfl).trans (clsSecondWord_whole_of_cons (s := clsHavingLo s w0 (w1 :: rest)) rfl)

/-- A well-formed CLASSIFY ends in EMIT with its function's class for its result (41_knn_update R150). -/
theorem execClassify_of_wf {s : State} {v : Word64} (wf : s.cfg.wf = true) (hn : s.cfg.trainN ≠ 0)
    (legal : reservedField v = 0) :
    ∃ r : ClsRegs, execClassify v s = .next { s with cls := r } ∧ r.lo = s.cls.lo ∧ r.cause = s.cls.cause ∧
      r.phase = .emit ∧ r.result = BitVec.ofNat 4 (classOf s.cfg (queryField v)).val := by
  obtain ⟨none, -⟩ | ⟨-, malformed, -⟩ | ⟨-, -, check⟩ := clsCheck_cases v s
  · exact absurd none hn
  · exact absurd legal malformed
  · have accepted := execClassify_of_accepted (v := v) (s := s) (by rw [check]; rfl)
    rw [check] at accepted
    exact ⟨_, accepted.trans (classifyQuery_eq wf (Nat.pos_of_ne_zero hn)), rfl, rfl, rfl, rfl⟩

theorem clsTurn_of_emit {s : State} (g : Grain) (phase : s.cls.phase = .emit)
    (room : s.clsOut.length < s.cfg.outDepth) :
    clsTurn g s = .next { s with clsOut := s.clsOut ++ [clsResponse s.cls], cls := { s.cls with phase := .idle } } := by
  simp only [clsTurn, phase, clsEmit_eq, room, if_true]

/-- The response word is the class (30_encoding R106). -/
theorem clsResponse_of_result {r : ClsRegs} {c : ClassIdx} (h : r.result = BitVec.ofNat 4 c.val) :
    clsResponse r = BitVec.ofNat 32 c.val := by
  rw [clsResponse, h]
  clear h
  decide +revert

/-- Two turns take and classify a well-formed request, and one pushes its class. -/
theorem unitTurns_cls_transaction {s : State} {w0 w1 : Word32} {rest : List Word32} (wf : s.cfg.wf = true)
    (hn : s.cfg.trainN ≠ 0) (legal : reservedField (requestValue w1 w0) = 0) (idle : s.cls.phase = .idle)
    (fifo : s.clsIn = w0 :: w1 :: rest) (room : s.clsOut.length < s.cfg.outDepth) :
    ∃ r : ClsRegs, r.phase = .idle ∧ r.cause = s.cls.cause ∧ r.lo = w0 ∧
      unitTurns .cls .whole (2 + 1) s =
        .next { s with
          cls := r
          clsIn := rest
          clsOut := s.clsOut ++ [BitVec.ofNat 32 (classOf s.cfg (queryField (requestValue w1 w0))).val] } := by
  obtain ⟨r, exec, lo, cause, phase, result⟩ := execClassify_of_wf (s := clsHavingLo s w0 rest) wf hn legal
  refine ⟨{ r with phase := .idle }, rfl, cause, lo, ?_⟩
  have response : BitVec.ofNat 32 (classOf s.cfg (queryField (requestValue w1 w0))).val = clsResponse r :=
    (clsResponse_of_result result).symm
  rw [unitTurns_add, unitTurns_cls_request idle fifo, exec, andThen_next, unitTurns_one, response]
  exact clsTurn_of_emit (s := { clsHavingLo s w0 rest with cls := r }) .whole phase room

/-- Settles O39: the transaction's three turns, whatever schedule follows them. -/
theorem classifyTransaction : Obligations.ClassifyTransaction := by
  unfold Obligations.ClassifyTransaction
  intro s w0 w1 rest ts wf hn legal idle fifo room turns
  have schedule : s = s.scheduled (List.replicate 3 (.unit .cls .whole) ++ ts) s.tick := by
    rw [← turns]
    rfl
  obtain ⟨r, phase, cause, lo, transaction⟩ :=
    unitTurns_cls_transaction (s := s.scheduled ts (s.tick + 3)) wf hn legal idle fifo room
  refine ⟨r, phase, cause, lo, ?_⟩
  exact (congrArg (run 3) schedule).trans ((run_unitTurns .cls .whole ts 3 s.tick wf).trans transaction)

end Sys2Proof.Machine

/-! A request's value and its two words determine each other (30_encoding R101, 20_memory R74). -/

namespace Sys2Proof

@[simp] theorem lowWord_requestValue (w1 w0 : Word32) : lowWord (requestValue w1 w0) = w0 :=
  BitVec.extractLsb'_append_eq_right

@[simp] theorem highWord_requestValue (w1 w0 : Word32) : highWord (requestValue w1 w0) = w1 :=
  BitVec.extractLsb'_append_eq_left

/-- The value with the given words is the one they assemble to. -/
theorem words_eq_iff {v : Word64} {w0 w1 : Word32} : lowWord v = w0 ∧ highWord v = w1 ↔ v = requestValue w1 w0 := by
  constructor
  · rintro ⟨rfl, rfl⟩
    exact (Laws.RequestShape.halves v).symm
  · rintro rfl
    exact ⟨lowWord_requestValue w1 w0, highWord_requestValue w1 w0⟩

theorem requestValue_eq_shiftLeft_or (w1 w0 : Word32) :
    requestValue w1 w0 = (w1.setWidth 64 <<< 32 ||| w0.setWidth 64) :=
  (BitVec.setWidth_eq _).symm.trans BitVec.setWidth_append_eq_shiftLeft_setWidth_or

theorem getLsbD_lowWord (v : Word64) {j : Nat} (h : j < 32) : (lowWord v).getLsbD j = v.getLsbD j := by
  simp [lowWord, h]

theorem getLsbD_highWord (v : Word64) {j : Nat} (h : j < 32) : (highWord v).getLsbD j = v.getLsbD (32 + j) := by
  simp [highWord, h]

/-- Settles O1: the value is the concatenation of its words, and each word is a slice of it. -/
theorem requestWordOrder : Obligations.RequestWordOrder := by
  unfold Obligations.RequestWordOrder
  exact ⟨fun w1 w0 =>
      ⟨requestValue_eq_shiftLeft_or w1 w0, lowWord_requestValue w1 w0, highWord_requestValue w1 w0⟩,
    fun v _ h => ⟨getLsbD_lowWord v h, getLsbD_highWord v h⟩⟩

end Sys2Proof

/-! The opcode map: what each port makes of a value (30_encoding R102 to R104, R107). -/

namespace Sys2Proof

theorem getLsbD_reservedField (v : Word64) {k : Nat} (h : k < 15) :
    (reservedField v).getLsbD k = v.getLsbD (49 + k) := by
  simp [reservedField, h]

/-- The reserved field is 0 when bits 63 to 49 are. -/
theorem reservedField_eq_zero_iff {v : Word64} :
    reservedField v = 0 ↔ ∀ j, 49 ≤ j → j < 64 → v.getLsbD j = false := by
  constructor
  · intro zero j hj hj'
    obtain ⟨k, rfl⟩ := Nat.exists_eq_add_of_le hj
    rw [← getLsbD_reservedField v (by omega), zero]
    exact BitVec.getLsbD_zero
  · intro bits
    refine BitVec.eq_of_getLsbD_eq fun k hk => ?_
    rw [getLsbD_reservedField v hk, bits (49 + k) (by omega) (by omega)]
    exact BitVec.getLsbD_zero.symm

theorem decode_rot (v : Word64) : decode .rot v = .ok (.rotate v) := rfl

theorem decode_cls_of_legal {v : Word64} (h : reservedField v = 0) : decode .cls v = .ok (.classify v) :=
  if_pos ((Machine.and_classifyMask_eq_zero_iff v).2 h)

theorem decode_cls_of_malformed {v : Word64} (h : reservedField v ≠ 0) : decode .cls v = .error .reservedBitsSet :=
  if_neg (mt (Machine.and_classifyMask_eq_zero_iff v).1 h)

/-- Settles O3: the reserved field of a value on `cls.in` decides. -/
theorem portSelectsOperation : Obligations.PortSelectsOperation := by
  unfold Obligations.PortSelectsOperation
  refine fun v => ⟨decode_rot v, fun clear => decode_cls_of_legal (reservedField_eq_zero_iff.2 clear), ?_⟩
  rintro ⟨j, hj, hj', set⟩
  refine decode_cls_of_malformed fun zero => ?_
  rw [reservedField_eq_zero_iff.1 zero j hj hj'] at set
  cases set

end Sys2Proof

/-! Decoding and encoding are inverse to each other on well-formed requests (30_encoding R100, R101, R107). -/

namespace Sys2Proof

theorem Instr.wf_rotate (v : Word64) : (Instr.rotate v).wf = true := rfl

theorem Instr.wf_classify_iff {v : Word64} : (Instr.classify v).wf = true ↔ reservedField v = 0 := beq_iff_eq

/-- A port decodes a value to the well-formed request of that port and value, if there is one. -/
theorem decode_eq_ok_iff {u : UnitId} {v : Word64} {i : Instr} :
    decode u v = .ok i ↔ i.wf = true ∧ i.unit = u ∧ i.value = v := by
  constructor
  · intro h
    cases u with
    | rot =>
      cases h
      exact ⟨Instr.wf_rotate v, rfl, rfl⟩
    | cls =>
      by_cases legal : reservedField v = 0
      · rw [decode_cls_of_legal legal] at h
        cases h
        exact ⟨Instr.wf_classify_iff.2 legal, rfl, rfl⟩
      · rw [decode_cls_of_malformed legal] at h
        cases h
  · rintro ⟨wf, rfl, rfl⟩
    cases i with
    | rotate v => exact decode_rot v
    | classify v => exact decode_cls_of_legal (Instr.wf_classify_iff.1 wf)

theorem decodeWords_cons_cons (u : UnitId) (w0 w1 : Word32) (ws : List Word32) :
    decodeWords u (w0 :: w1 :: ws) = (decode u (requestValue w1 w0)).map fun i => (i, ws) := by
  rw [decodeWords]
  cases decode u (requestValue w1 w0) <;> rfl

/-- Decoding a word list takes the value of its first two words, and needs both (30_encoding R100). -/
theorem decodeWords_eq_ok_iff {u : UnitId} {ws rest : List Word32} {i : Instr} :
    decodeWords u ws = .ok (i, rest) ↔
      ∃ w0 w1 : Word32, ws = w0 :: w1 :: rest ∧ decode u (requestValue w1 w0) = .ok i := by
  constructor
  · intro h
    match ws with
    | [] => cases h
    | [_] => cases h
    | w0 :: w1 :: _ =>
      rw [decodeWords_cons_cons] at h
      cases decoded : decode u (requestValue w1 w0) with
      | error _ =>
        rw [decoded] at h
        cases h
      | ok _ =>
        rw [decoded] at h
        cases h
        exact ⟨w0, w1, rfl, decoded⟩
  · rintro ⟨w0, w1, rfl, decoded⟩
    rw [decodeWords_cons_cons, decoded]
    rfl

theorem encode_eq_iff {i : Instr} {w0 w1 : Word32} : encode i = [w0, w1] ↔ i.value = requestValue w1 w0 := by
  rw [← words_eq_iff]
  simp [encode]

/-- Settles O4: the two words assemble to the value, which decodes to its request. -/
theorem decodeEncodeRoundTrip : Obligations.DecodeEncodeRoundTrip := by
  unfold Obligations.DecodeEncodeRoundTrip
  intro i rest wf
  have decoded : decode i.unit (requestValue (highWord i.value) (lowWord i.value)) = .ok i :=
    decode_eq_ok_iff.2 ⟨wf, rfl, (Laws.RequestShape.halves i.value).symm⟩
  exact decodeWords_eq_ok_iff.2 ⟨lowWord i.value, highWord i.value, rfl, decoded⟩

/-- Settles O5: the words decoded are the two whose value is the request's. -/
theorem decodedRequestReencodes : Obligations.DecodedRequestReencodes := by
  unfold Obligations.DecodedRequestReencodes
  intro u ws rest i h
  obtain ⟨w0, w1, rfl, decoded⟩ := decodeWords_eq_ok_iff.1 h
  obtain ⟨wf, unit, value⟩ := decode_eq_ok_iff.1 decoded
  exact ⟨wf, unit, congrArg (· ++ rest) (encode_eq_iff.2 value)⟩

/-- Settles O2: each word list is written out, and the decoder is run on it. -/
theorem decodesWordsOfSpec : Obligations.DecodesWordsOfSpec := by
  unfold Obligations.DecodesWordsOfSpec
  decide

end Sys2Proof

/-! What the pseudo-instructions stand for (30_encoding R109). -/

namespace Sys2Proof

/-- GETROT assembles a value from its two words as a request is assembled (30_encoding R101, R109). -/
theorem getrotValue_eq_requestValue (hi lo : Word32) : getrotValue hi lo = requestValue hi lo := rfl

theorem getclsValue_toNat (w : Word32) : (getclsValue w).toNat = w.toNat % 16 := by
  rw [getclsValue, BitVec.extractLsb'_toNat, Nat.shiftRight_zero]

/-- Settles O6: the pushes are the request's words, and the pops are read as the response's fields. -/
theorem pseudoInstructionsExpand : Obligations.PseudoInstructionsExpand := by
  unfold Obligations.PseudoInstructionsExpand
  refine ⟨fun v => ⟨rfl, rfl, ?_⟩, fun _ _ _ _ => rfl, fun _ => rfl, getclsValue_toNat⟩
  rw [getrotValue_eq_requestValue, Laws.RequestShape.halves]

end Sys2Proof

/-! ROTATE stops at an overflow with the values before it (40_cordic R127; 60_exceptions R204, R206, R208). -/

namespace Sys2Proof.Machine

open Functions

/-- A faulted unit sits out what is left of ROTATE's loop (60_exceptions R208). -/
theorem restOfLoop_of_faulted {s : State} (h : s.faulted .rot = true) (l : List Nat) :
    forEach (fun _ => rotationUnlessFaulted) l s = .next s := by
  have turn : rotationUnlessFaulted s = .next s := if_pos h
  induction l with
  | nil => rfl
  | cons n l ih => rw [forEach_cons, turn, andThen_next, ih]

/-- Where a pseudo-rotation from index n on overflows, the rest of ROTATE's loop faults there and keeps the results before
it. -/
theorem restOfLoop_of_rotations_error {s : State} {t c z : Int} (l : List Word64) :
    ∀ (n : Nat) (th co si : Word64), s.cfg.atan.drop n = l → n + l.length = 20 →
      rotations (l.zipIdx n) th.toInt co.toInt si.toInt = .error (t, c, z) →
      ∃ k < 20, forEach (fun _ => rotationUnlessFaulted) (List.range' n l.length) (rotating s n th co si) =
        .next (raiseFault .rot .arithOverflow
          (rotating s k (BitVec.ofInt 64 t) (BitVec.ofInt 64 c) (BitVec.ofInt 64 z))) := by
  induction l with
  | nil =>
    intro n th co si _ _ h
    cases h
  | cons a l ih =>
    intro n th co si tail len h
    rw [List.length_cons] at len
    have hn : n < 20 := by omega
    have ha : s.cfg.atan[n]? = some a := by rw [← List.head?_drop, tail, List.head?_cons]
    have iter : (rotating s n th co si).rot.phase = .iter := by simp [rotating, rotAt, hn]
    rw [List.zipIdx_cons, rotations_cons] at h
    rw [List.length_cons, List.range'_succ, forEach_cons, rotationUnlessFaulted_of_iter iter,
      pseudoRotation_rotating th co si hn ha]
    dsimp only at h ⊢
    split at h <;> rename_i fit
    · rw [if_pos fit, andThen_next]
      simp only [rotationFits, Bool.and_eq_true] at fit
      obtain ⟨⟨ft, fc⟩, fz⟩ := fit
      refine ih (n + 1) _ _ _ ?_ (by omega) ?_
      · rw [← List.drop_drop, tail, List.drop_one, List.tail_cons]
      · rwa [toInt_u64 ft, toInt_u64 fc, toInt_u64 fz]
    · cases h
      refine ⟨n, hn, ?_⟩
      rw [if_neg fit, andThen_next, restOfLoop_of_faulted (raiseFault_faulted _ _ _)]
      simp only [BitVec.ofInt_toInt]

theorem raiseFault_rotating (s : State) (i : Fin 20) (th co si : Word64) :
    raiseFault .rot .arithOverflow (rotating s i th co si) = { s with
      rot := { s.rot with theta := th, cos := co, sin := si, i := i, cause := .arithOverflow, phase := .fault } } := by
  simp [raiseFault, rotating, rotAt]

/-- Settles O15: the loop follows the function up to the overflow, by induction on the ROM words still to read. -/
theorem rotateOverflowFaults : Obligations.RotateOverflowFaults := by
  unfold Obligations.RotateOverflowFaults
  intro s v t c z wf h
  obtain ⟨-, -, -, len, -⟩ := (cfg_wf_iff s.cfg).1 wf
  obtain ⟨k, hk, loop⟩ :=
    restOfLoop_of_rotations_error (s := s) s.cfg.atan 0 v s.cfg.kgain 0 List.drop_zero (by omega) h
  rw [len, ← List.range_eq_range', raiseFault_rotating s ⟨k, hk⟩] at loop
  exact ⟨⟨k, hk⟩, loop⟩

end Sys2Proof.Machine

/-! The norm of the vector under pseudo-rotations, and why the default tables never overflow (40_cordic R130). -/

namespace Sys2Proof.Machine

open Functions

/-- A floor moves each component by less than 1, so a pseudo-rotation with m = 2^i scales the squared norm by 1 + 1 / m² up
to a slack that is linear in the components (40_cordic R130). -/
theorem rotated_normSq_le {c z m R : Int} (hm : 0 < m) (hc : |c| ≤ R) (hz : |z| ≤ R) :
    m ^ 2 * ((c - z / m) ^ 2 + (z + c / m) ^ 2) ≤ (m ^ 2 + 1) * (c ^ 2 + z ^ 2) + m ^ 2 * (8 * R + 2) := by
  have hR : R ≤ m * R := le_mul_of_one_le_left ((abs_nonneg c).trans hc) hm
  have error {e x y : Int} (he : 0 ≤ e ∧ e ≤ m) (hx : |x| ≤ R) (hy : |y| ≤ R) :
      e * (m * x + y) ≤ m * (2 * (m * R)) := by
    have hxy : |m * x + y| ≤ 2 * (m * R) := calc
      |m * x + y| ≤ |m * x| + |y| := abs_add_le _ _
      _ = m * |x| + |y| := by rw [abs_mul, abs_of_pos hm]
      _ ≤ m * R + R := add_le_add (mul_le_mul_of_nonneg_left hx hm.le) hy
      _ ≤ 2 * (m * R) := by omega
    calc e * (m * x + y) ≤ |e * (m * x + y)| := le_abs_self _
      _ = e * |m * x + y| := by rw [abs_mul, abs_of_nonneg he.1]
      _ ≤ m * (2 * (m * R)) := mul_le_mul he.2 hxy (abs_nonneg _) hm.le
  have rem (x : Int) : 0 ≤ x % m ∧ x % m ≤ m := ⟨Int.emod_nonneg x hm.ne', (Int.emod_lt_of_pos x hm).le⟩
  have floor (x : Int) : m * (x / m) = x - x % m := eq_sub_of_add_eq (Int.mul_ediv_add_emod x m)
  have sq (x : Int) : (x % m) ^ 2 ≤ m ^ 2 := pow_le_pow_left₀ (rem x).1 (rem x).2 2
  have cosError := error (rem z) hc ((abs_neg z).trans_le hz)
  have sinError := error (rem c) ((abs_neg z).trans_le hz) ((abs_neg c).trans_le hc)
  calc m ^ 2 * ((c - z / m) ^ 2 + (z + c / m) ^ 2)
      = (m * c - m * (z / m)) ^ 2 + (m * z + m * (c / m)) ^ 2 := by ring
    _ = (m ^ 2 + 1) * (c ^ 2 + z ^ 2) + 2 * (z % m * (m * c + -z)) + 2 * (c % m * (m * -z + -c)) +
          ((z % m) ^ 2 + (c % m) ^ 2) := by rw [floor, floor]; ring
    _ ≤ (m ^ 2 + 1) * (c ^ 2 + z ^ 2) + m ^ 2 * (8 * R + 2) := by linarith only [cosError, sinError, sq c, sq z]

/-- A bound on the squared norm of the vector after n pseudo-rotations from the default KGAIN: the factor of each, and the
slack of its floors. -/
def normBound : Nat → Int
  | 0 => Config.kgainDefault.toInt ^ 2
  | n + 1 => normBound n + normBound n / (2 ^ n) ^ 2 + (8 * 2 ^ 63 + 2)

/-- The vector keeps below 2 in Q2.62, so each component is a 64-bit value. -/
theorem normBound_lt : ∀ n ≤ 20, normBound n < (2 ^ 63) ^ 2 := by decide

theorem abs_lt_of_normSq_le {c z : Int} {n : Nat} (hn : n ≤ 20) (h : c ^ 2 + z ^ 2 ≤ normBound n) :
    |c| < 2 ^ 63 ∧ |z| < 2 ^ 63 := by
  have lt := h.trans_lt (normBound_lt n hn)
  exact ⟨abs_lt_of_sq_lt_sq ((le_add_of_nonneg_right (sq_nonneg z)).trans_lt lt) (by norm_num),
    abs_lt_of_sq_lt_sq ((le_add_of_nonneg_left (sq_nonneg c)).trans_lt lt) (by norm_num)⟩

/-- A pseudo-rotation in the positive direction keeps the bound. -/
theorem rotated_normSq_le_normBound {c z : Int} {n : Nat} (hn : n < 20) (h : c ^ 2 + z ^ 2 ≤ normBound n) :
    (c - z / 2 ^ n) ^ 2 + (z + c / 2 ^ n) ^ 2 ≤ normBound (n + 1) := by
  obtain ⟨hc, hz⟩ := abs_lt_of_normSq_le hn.le h
  have hm : (0 : Int) < 2 ^ n := by positivity
  have scaled := rotated_normSq_le hm hc.le hz.le
  have grown : (c - z / 2 ^ n) ^ 2 + (z + c / 2 ^ n) ^ 2 - normBound n - (8 * 2 ^ 63 + 2) ≤ normBound n / (2 ^ n) ^ 2 := by
    rw [Int.le_ediv_iff_mul_le (by positivity)]
    have := mul_le_mul_of_nonneg_left h (by positivity : (0 : Int) ≤ (2 ^ n) ^ 2 + 1)
    linarith only [scaled, this]
  rw [normBound]
  omega

/-- Either direction keeps the bound: the negative one turns (s, c) as the positive one turns (c, s). -/
theorem rotationExact_normSq_le (positive : Bool) {a t c z : Int} {n : Nat} (hn : n < 20)
    (h : c ^ 2 + z ^ 2 ≤ normBound n) :
    (rotationExact positive n a t c z).2.1 ^ 2 + (rotationExact positive n a t c z).2.2 ^ 2 ≤ normBound (n + 1) := by
  cases positive with
  | true => exact rotated_normSq_le_normBound hn h
  | false =>
    rw [add_comm] at h ⊢
    exact rotated_normSq_le_normBound hn h

/-- The residual keeps in range: it moves by a ROM word towards 0, from its sign's side (40_cordic R130). -/
theorem rotationExact_residual_signed64 {a : Word64} {t c z : Int} (i : Nat) (ha : 0 ≤ a.toInt) (ht : Signed64 t) :
    Signed64 (rotationExact (decide (0 < t)) i a.toInt t c z).1 := by
  have := BitVec.toInt_lt (x := a)
  by_cases h : 0 < t
  · rw [decide_eq_true h]
    exact ⟨show -2 ^ 63 ≤ t - a.toInt by omega, show t - a.toInt < 2 ^ 63 by omega⟩
  · rw [decide_eq_false h]
    exact ⟨show -2 ^ 63 ≤ t + a.toInt by omega, show t + a.toInt < 2 ^ 63 by omega⟩

theorem rotationFits_iff {e : Int × Int × Int} :
    rotationFits e = true ↔ Signed64 e.1 ∧ Signed64 e.2.1 ∧ Signed64 e.2.2 := by
  simp [rotationFits, fits64, Signed64, and_assoc]

/-- From a vector within the bound, pseudo-rotations with non-negative ROM words stay in range, whatever the residual. -/
theorem rotations_completes (l : List Word64) :
    ∀ (n : Nat) (t c z : Int), (∀ a ∈ l, 0 ≤ a.toInt) → n + l.length ≤ 20 → Signed64 t →
      c ^ 2 + z ^ 2 ≤ normBound n → ∃ r, rotations (l.zipIdx n) t c z = .ok r := by
  induction l with
  | nil => exact fun n t c z _ _ _ _ => ⟨(t, c, z), rfl⟩
  | cons a l ih =>
    intro n t c z ha len ht h
    rw [List.forall_mem_cons] at ha
    obtain ⟨ha, hl⟩ := ha
    rw [List.length_cons] at len
    have residual := rotationExact_residual_signed64 (c := c) (z := z) n ha ht
    have norm := rotationExact_normSq_le (decide (0 < t)) (a := a.toInt) (t := t) (by omega) h
    obtain ⟨cosine, sine⟩ := abs_lt_of_normSq_le (by omega) norm
    have fits := rotationFits_iff.2 ⟨residual, (abs_lt.1 cosine).imp_left le_of_lt, (abs_lt.1 sine).imp_left le_of_lt⟩
    rw [List.zipIdx_cons, rotations_cons]
    dsimp only
    rw [if_pos fits]
    exact ih (n + 1) _ _ _ hl (by omega) residual norm

theorem rotate_of_defaultTables {cfg : Cfg} (h : DefaultTables cfg) (v : Word64) :
    rotate cfg v = rotations Config.atanDefault.zipIdx v.toInt Config.kgainDefault.toInt 0 := by
  rw [rotate, h.1, h.2]

theorem atanDefault_nonneg : ∀ a ∈ Config.atanDefault, 0 ≤ a.toInt := by simp [Config.atanDefault]

/-- With the default tables the function has a result for every angle. -/
theorem rotate_completes_of_defaultTables {cfg : Cfg} (h : DefaultTables cfg) (v : Word64) :
    ∃ r, rotate cfg v = .ok r := by
  rw [rotate_of_defaultTables h]
  exact rotations_completes _ 0 _ _ _ atanDefault_nonneg (by decide) ⟨BitVec.le_toInt v, BitVec.toInt_lt⟩ (by decide)

/-- The reset configuration with KGAIN = 1.3 (V-OVF-1). -/
def cfgBigGain : Cfg := { Config.resetCfg with kgain := 0x5333333333333333 }

/-- Pseudo-rotation 1 of angle 0 overflows with KGAIN = 1.3. -/
theorem rotate_cfgBigGain_zero :
    rotate cfgBigGain 0 = .error (0x14978FA3269EE125, 0x7CCCCCCCCCCCCCCD, -0x299999999999999A) := by
  simp [rotate, rotations, cfgBigGain, Config.resetCfg, Config.atanDefault]

/-- Settles O16: the norm stays below 2 with the default KGAIN; with KGAIN = 1.3 it does not. -/
theorem defaultTablesNeverOverflow : Obligations.DefaultTablesNeverOverflow := by
  unfold Obligations.DefaultTablesNeverOverflow
  refine ⟨fun s v wf tables => ?_, ?_⟩
  · obtain ⟨⟨t, c, z⟩, h⟩ := rotate_completes_of_defaultTables tables v
    exact ⟨_, _, _, _, rotateComputesItsFunction s v t c z wf h⟩
  · obtain ⟨i, overflow⟩ := rotateOverflowFaults (State.powerOn cfgBigGain) 0 _ _ _ (by decide) rotate_cfgBigGain_zero
    exact ⟨State.powerOn cfgBigGain, _, 0, by decide, rfl, overflow, rfl, rfl⟩

end Sys2Proof.Machine

/-! ROTATE's function at two kinds of angle (40_cordic R131, R133). -/

namespace Sys2Proof.Machine

open Functions

/-- The default tables' pseudo-rotations from angle 0. -/
theorem rotate_zero_of_defaultTables {cfg : Cfg} (h : DefaultTables cfg) :
    rotate cfg 0 = .ok (-0x1CC5C61DCF1, 0x3FFFFFFFFFCEDDBB, 0x1CC5C61DCF0) := by
  rw [rotate_of_defaultTables h]
  simp [rotations, Config.atanDefault, Config.kgainDefault]

/-- Settles O17: the function is run at 0. -/
theorem rotateZeroResult : Obligations.RotateZeroResult := by
  unfold Obligations.RotateZeroResult
  intro s wf tables
  exact ⟨19, rotateComputesItsFunction s 0 _ _ _ wf (rotate_zero_of_defaultTables tables)⟩

/-- Two residuals above the sum of the ROM words are positive at every pseudo-rotation, so both turn the vector the same way
(40_cordic R124, R133). -/
theorem rotations_eq_of_sum_lt (l : List Word64) :
    ∀ (n : Nat) (t u c z : Int) (p q : Int × Int × Int), (∀ a ∈ l, 0 ≤ a.toInt) →
      (l.map fun a => a.toInt).sum < t → (l.map fun a => a.toInt).sum < u →
      rotations (l.zipIdx n) t c z = .ok p → rotations (l.zipIdx n) u c z = .ok q → p.2 = q.2 := by
  induction l with
  | nil =>
    intro n t u c z p q _ _ _ hp hq
    cases hp
    cases hq
    rfl
  | cons a l ih =>
    intro n t u c z p q ha ht hu hp hq
    rw [List.forall_mem_cons] at ha
    obtain ⟨ha, hl⟩ := ha
    rw [List.map_cons, List.sum_cons] at ht hu
    have rest : 0 ≤ (l.map fun a => a.toInt).sum := List.sum_nonneg (by simpa using hl)
    rw [List.zipIdx_cons, rotations_cons] at hp hq
    rw [decide_eq_true (by omega : 0 < t)] at hp
    rw [decide_eq_true (by omega : 0 < u)] at hq
    dsimp only at hp hq
    split at hp
    · split at hq
      · exact ih (n + 1) (t - a.toInt) (u - a.toInt) _ _ p q hl (by omega) (by omega) hp hq
      · cases hq
    · cases hp

/-- The default tables' pseudo-rotations from the largest angle (V-ROT-11). -/
theorem rotate_max_of_defaultTables {cfg : Cfg} (h : DefaultTables cfg) :
    rotate cfg 0x7FFFFFFFFFFFFFFF = .ok (0x106E05F461157924, -0xAFC0E97939C641D, 0x3F0CDF91AF338248) := by
  rw [rotate_of_defaultTables h]
  simp [rotations, Config.atanDefault, Config.kgainDefault]

/-- Settles O18: every angle above the sum turns the vector as the largest angle does. -/
theorem rotateBeyondConvergence : Obligations.RotateBeyondConvergence := by
  unfold Obligations.RotateBeyondConvergence
  intro s v wf tables beyond
  obtain ⟨⟨t, c, z⟩, h⟩ := rotate_completes_of_defaultTables tables v
  have max := rotate_max_of_defaultTables tables
  have maxBeyond : (Config.atanDefault.map fun a => a.toInt).sum < (0x7FFFFFFFFFFFFFFF : Word64).toInt := by
    simp [Config.atanDefault]
  have same := rotations_eq_of_sum_lt _ 0 _ _ _ _ _ _ atanDefault_nonneg beyond maxBeyond
    ((rotate_of_defaultTables tables v).symm.trans h) ((rotate_of_defaultTables tables _).symm.trans max)
  cases same
  exact ⟨_, _, rotateComputesItsFunction s v t _ _ wf h⟩

end Sys2Proof.Machine

/-! ROTATE reads ROT's datapath and the two tables, and nothing else (40_cordic R129). -/

namespace Sys2Proof.Machine

/-- A loop from two related states: what a turn does to the one it does to the other, up to the relation. -/
theorem forEach_simulates {α : Type} {R : State → State → Prop} {f : α → State → Result}
    (turn : ∀ a s s' t, R s s' → f a s = .next t → ∃ t', f a s' = .next t' ∧ R t t') (as : List α) :
    ∀ {s s' t : State}, R s s' → forEach f as s = .next t → ∃ t', forEach f as s' = .next t' ∧ R t t' := by
  induction as with
  | nil =>
    intro s s' t hs h
    cases h
    exact ⟨s', rfl, hs⟩
  | cons a as ih =>
    intro s s' t hs h
    obtain ⟨u, hu, h⟩ := andThen_eq_next.1 h
    obtain ⟨u', hu', rel⟩ := turn a s s' u hs hu
    obtain ⟨t', ht', rel⟩ := ih rel h
    exact ⟨t', by rw [forEach_cons, hu', andThen_next, ht'], rel⟩

/-- s and s' have the same arctangent ROM and the same datapath and sequencer of ROT. -/
structure SameDatapath (s s' : State) : Prop where
  atan : s.cfg.atan = s'.cfg.atan
  theta : s.rot.theta = s'.rot.theta
  cos : s.rot.cos = s'.rot.cos
  sin : s.rot.sin = s'.rot.sin
  i : s.rot.i = s'.rot.i
  phase : s.rot.phase = s'.rot.phase

theorem rotAfterIter_i_congr {r r' : RotRegs} (h : r.i = r'.i) : (rotAfterIter r).i = (rotAfterIter r').i := by
  unfold rotAfterIter
  rw [h]
  split <;> rfl

theorem rotAfterIter_phase_congr {r r' : RotRegs} (h : r.i = r'.i) :
    (rotAfterIter r).phase = (rotAfterIter r').phase := by
  unfold rotAfterIter
  rw [h]
  split <;> rfl

theorem pseudoRotation_simulates {s s' t : State} (h : SameDatapath s s') (ht : pseudoRotation s = .next t) :
    ∃ t', pseudoRotation s' = .next t' ∧ SameDatapath t t' := by
  obtain ⟨atan, theta, cos, sin, i, phase⟩ := h
  obtain ⟨a, ha, ht⟩ := withRead_eq_next.1 ht
  have rom : atanRead s'.cfg s'.rot.i = .ok a := by rwa [atanRead, ← atan, ← i]
  rw [pseudoRotation, rom, withRead_ok, ← theta, ← cos, ← sin, ← i]
  dsimp only at ht ⊢
  split at ht <;> rename_i fit <;> cases ht
  · rw [if_pos fit]
    exact ⟨_, rfl, atan, by simp, by simp, by simp, rotAfterIter_i_congr i, rotAfterIter_phase_congr i⟩
  · rw [if_neg fit]
    exact ⟨_, rfl, atan, theta, cos, sin, i, rfl⟩

theorem rotationUnlessFaulted_simulates {s s' t : State} (h : SameDatapath s s')
    (ht : rotationUnlessFaulted s = .next t) : ∃ t', rotationUnlessFaulted s' = .next t' ∧ SameDatapath t t' := by
  have same : s'.faulted .rot = s.faulted .rot := by rw [State.faulted, State.faulted, h.phase]
  rw [rotationUnlessFaulted, same]
  unfold rotationUnlessFaulted at ht
  split at ht <;> rename_i faulted
  · cases ht
    exact ⟨s', if_pos faulted, h⟩
  · rw [if_neg faulted]
    exact pseudoRotation_simulates h ht

/-- Settles O19: the angle load gives the same datapath, and every turn of the loop keeps it the same. -/
theorem rotateDependsOnTablesOnly : Obligations.RotateDependsOnTablesOnly := by
  unfold Obligations.RotateDependsOnTablesOnly
  intro s s' t v atan kgain h
  have load : SameDatapath (rotLoad v s) (rotLoad v s') := ⟨atan, rfl, kgain, rfl, rfl, rfl⟩
  have loop : forEach (fun _ => rotationUnlessFaulted) (List.range 20) (rotLoad v s) = .next t := h
  obtain ⟨t', ht', -, theta, cos, sin, -, phase⟩ :=
    forEach_simulates (fun _ _ _ _ => rotationUnlessFaulted_simulates) (List.range 20) load loop
  exact ⟨t', ht', theta.symm, cos.symm, sin.symm, phase.symm⟩

end Sys2Proof.Machine

/-! What the two instructions leave unchanged (40_cordic R120, 41_knn_update R150, 60_exceptions R206). -/

namespace Sys2Proof.Machine

/-- CLASSIFY's loops end with the decision, in EMIT (10_state R37). -/
theorem classifyQuery_phase {s t : State} (h : classifyQuery s = .next t) : t.cls.phase = .emit := by
  obtain ⟨u, -, h⟩ := andThen_eq_next.1 h
  obtain ⟨w, -, h⟩ := andThen_eq_next.1 h
  cases h
  rfl

/-- Everything CLASSIFY can do to a state: it writes CLS's registers except `cls.lo`, and ends in EMIT or in one of CHECK's
faults. -/
theorem execClassify_frame_lo {v : Word64} {s t : State} (h : execClassify v s = .next t) :
    t = { s with cls := { t.cls with lo := s.cls.lo } } ∧
      ((t.cls.phase = .emit ∧ t.cls.cause = s.cls.cause) ∨
        (t.cls.phase = .fault ∧ (t.cls.cause = .invalidInput ∨ t.cls.cause = .degenerateModel))) := by
  obtain ⟨-, check⟩ | ⟨-, -, check⟩ | ⟨-, -, check⟩ := clsCheck_cases v s
  · rw [execClassify_of_faulted (by simp [check]), check] at h
    cases h
    exact ⟨rfl, .inr ⟨rfl, .inr rfl⟩⟩
  · rw [execClassify_of_faulted (by simp [check]), check] at h
    cases h
    exact ⟨rfl, .inr ⟨rfl, .inl rfl⟩⟩
  · rw [execClassify_of_accepted (by simp [check, State.faulted]), check] at h
    have frame := classifyQuery_frame h
    exact ⟨by rw [frame], .inl ⟨classifyQuery_phase h, by rw [frame]⟩⟩

/-- Settles O41: all that ROTATE and CLASSIFY can do. -/
theorem instructionFrames : Obligations.InstructionFrames := by
  unfold Obligations.InstructionFrames
  intro s t v
  refine ⟨fun h => ?_, execClassify_frame_lo⟩
  obtain ⟨_, _, _, rfl | ⟨_, rfl⟩⟩ := execRotate_cases h
  · exact ⟨rfl, .inl ⟨rfl, rfl⟩⟩
  · exact ⟨rfl, .inr ⟨rfl, rfl⟩⟩

end Sys2Proof.Machine

/-! ROT's turn in each of its phases (40_cordic R121 to R128). -/

namespace Sys2Proof.Machine

/-- Settles O10: IDLE's turn on an empty and on a filled `rot.in`. -/
theorem rotTakesFirstWord : Obligations.RotTakesFirstWord := by
  unfold Obligations.RotTakesFirstWord
  intro s g idle
  have turn : takeTurn (.unit .rot g) s = rotFirstWord s := rotTurn_of_idle g idle
  rw [turn]
  exact ⟨rotFirstWord_of_nil, fun _ _ => rotFirstWord_of_cons⟩

/-- Settles O11: HAVE_LO's turn on an empty and on a filled `rot.in`. -/
theorem rotLoadsAngle : Obligations.RotLoadsAngle := by
  unfold Obligations.RotLoadsAngle
  intro s haveLo
  have turn (g : Grain) : takeTurn (.unit .rot g) s = rotSecondWord g s := rotTurn_of_haveLo g haveLo
  refine ⟨fun g empty => ?_, fun w ws fifo => ?_⟩
  · rw [turn, rotSecondWord_of_nil g empty]
  · rw [turn, rotSecondWord_phase_of_cons fifo]
    rfl

/-- A pseudo-rotation with its ROM word: write the three exact results together, or take ArithOverflow (40_cordic R126,
R127). -/
theorem pseudoRotation_of_atan {s : State} {a : Word64} (h : s.cfg.atan[s.rot.i.val]? = some a) :
    pseudoRotation s =
      let e := rotationExact (decide (0 < s.rot.theta.toInt)) s.rot.i.val a.toInt s.rot.theta.toInt s.rot.cos.toInt
        s.rot.sin.toInt
      if rotationFits e then
        .next { s with rot := rotAfterIter { s.rot with theta := u64 e.1, cos := u64 e.2.1, sin := u64 e.2.2 } }
      else .next (raiseFault .rot .arithOverflow s) := by
  have rom : atanRead s.cfg s.rot.i = .ok a := by simp [atanRead, h]
  rw [pseudoRotation, rom, withRead_ok]
  rfl

/-- The exact results, each chosen by the sign of the residual (40_cordic R124, R126). -/
theorem rotationExact_eq (i : Nat) (a t c z : Int) :
    rotationExact (decide (0 < t)) i a t c z =
      (if 0 < t then t - a else t + a, if 0 < t then c - z / 2 ^ i else c + z / 2 ^ i,
        if 0 < t then z + c / 2 ^ i else z - c / 2 ^ i) := by
  by_cases h : 0 < t <;> simp [rotationExact, shiftFloor, h]

/-- Settles O12: the pseudo-rotation's two outcomes, and where ITER(i) leads. -/
theorem pseudoRotationStep : Obligations.PseudoRotationStep := by
  unfold Obligations.PseudoRotationStep
  rintro s i g word a t c z t' c' z' phase rfl rom rfl rfl rfl rfl ht' hc' hz'
  have turn : takeTurn (.unit .rot g) s = pseudoRotation s := by simp [takeTurn, rotTurn, phase]
  rw [turn, pseudoRotation_of_atan rom, rotationExact_eq, ← ht', ← hc', ← hz']
  dsimp only
  refine ⟨fun fits => ?_, fun overflow => if_neg (mt rotationFits_iff.1 overflow)⟩
  rw [if_pos (rotationFits_iff.2 fits), rotAfterIter_eq]
  have lead := rotAfterIter_cases { s.rot with theta := u64 t', cos := u64 c', sin := u64 z' }
  refine ⟨_, _, fun before => ?_, fun last => ?_, rfl⟩
  · obtain ⟨-, iter, next⟩ | ⟨last, -⟩ := lead
    · exact ⟨next, iter⟩
    · exact absurd last (Nat.ne_of_lt before)
  · obtain ⟨before, -⟩ | ⟨-, emit, -⟩ := lead
    · exact absurd last (Nat.ne_of_lt before)
    · exact emit

/-- Settles O13: EMIT(k)'s turn with and without room, for each k. -/
theorem rotEmitsResponse : Obligations.RotEmitsResponse := by
  unfold Obligations.RotEmitsResponse
  intro s k g phase
  have turn : takeTurn (.unit .rot g) s = rotEmit k s := by simp [takeTurn, rotTurn, phase]
  rw [turn, rotEmit_eq]
  refine ⟨fun full => by rw [if_neg (Nat.not_lt.2 full)], fun room => ?_⟩
  rw [if_pos room]
  refine ⟨_, _, ?_, ?_, ?_, ?_, rfl⟩ <;> rintro rfl <;> exact ⟨rfl, rfl⟩

end Sys2Proof.Machine

/-! CLASSIFY as a whole (41_knn_update R150, 42_knn_vote R186). -/

namespace Sys2Proof.Machine

/-- An accepted CLASSIFY is the classification of its query. -/
theorem execClassify_of_legal {s : State} {v : Word64} (hn : s.cfg.trainN ≠ 0) (legal : reservedField v = 0) :
    execClassify v s = classifyQuery { s with cls := { s.cls with query := queryField v, phase := .init } } := by
  have check := clsCheck_of_legal hn legal
  rw [execClassify_of_accepted (by rw [check]; rfl), check]

/-- Settles O33: CHECK accepts the request, and the classification of its query follows the function. -/
theorem classifyComputesItsFunction : Obligations.ClassifyComputesItsFunction := by
  unfold Obligations.ClassifyComputesItsFunction
  rintro s v q wf hn legal rfl
  exact (execClassify_of_legal hn legal).trans (classifyQuery_eq wf (Nat.pos_of_ne_zero hn))

/-- A class index fits the result register (42_knn_vote R184). -/
theorem classIdx_ofNat_lt (c : ClassIdx) : (BitVec.ofNat 4 c.val).toNat < 10 :=
  (Nat.mod_le _ _).trans_lt c.isLt

/-- Settles O34: the registers that CLASSIFY writes are those of its function, whose class is 0..9. -/
theorem classifyCompletes : Obligations.ClassifyCompletes := by
  unfold Obligations.ClassifyCompletes
  intro s v wf hn legal
  exact ⟨_, _, _, _, _, classIdx_ofNat_lt _, classifyComputesItsFunction s v _ wf hn legal rfl⟩

end Sys2Proof.Machine

/-! Distances (41_knn_update R155). -/

namespace Sys2Proof.Machine

theorem hamming_comm (a b : Bitmap) : hamming a b = hamming b a := by
  rw [hamming, hamming, BitVec.xor_comm]

theorem hamming_self (a : Bitmap) : hamming a a = 0 := by
  rw [hamming, BitVec.xor_self]
  decide

theorem hamming_le (a b : Bitmap) : (hamming a b).toNat ≤ 49 := by
  rw [hamming_toNat]
  exact popcount_le _

/-- Settles O25: the distance is the number of 1 bits of the XOR. -/
theorem hammingDistanceLaws : Obligations.HammingDistanceLaws := by
  unfold Obligations.HammingDistanceLaws
  exact fun a b => ⟨hamming_toNat_eq_distance a b, hamming_comm a b, hamming_self a, hamming_le a b⟩

end Sys2Proof.Machine

/-! Insertion (41_knn_update R156, R157). -/

namespace Sys2Proof.Functions

/-- The K smallest are those of the multiset of distances. -/
theorem smallest_perm (k : Nat) {ds ds' : List Nat} (h : ds.Perm ds') : smallest k ds = smallest k ds' := by
  have sorted : sortNat ds = sortNat ds' :=
    ((List.perm_insertionSort _ ds).trans (h.trans (List.perm_insertionSort _ ds').symm)).eq_of_pairwise
      (fun _ _ _ _ => Nat.le_antisymm) (List.pairwise_insertionSort _ ds) (List.pairwise_insertionSort _ ds')
  rw [smallest_eq_take, smallest_eq_take, sorted]

end Sys2Proof.Functions

namespace Sys2Proof.Machine

open Functions

/-- Settles O26: the insertion into an ascending array, read on the entries' numbers. -/
theorem insertionDropsLargest : Obligations.InsertionDropsLargest := by
  unfold Obligations.InsertionDropsLargest
  exact fun _ d asc => insertDist_map_toNat d asc

/-- Settles O27: the array's entries are the K smallest, which do not depend on the order of the distances. -/
theorem kbestHoldsKSmallest : Obligations.KbestHoldsKSmallest := by
  unfold Obligations.KbestHoldsKSmallest
  intro k ds le49
  have le50 : ∀ d ∈ ds, d.toNat ≤ 50 := fun d hd => (le49 d hd).trans (by decide)
  obtain ⟨asc, entries⟩ := foldl_insertDist_smallest k ds le50
  refine ⟨asc, entries, fun ds' perm => List.map_injective_iff.2 BitVec.toNat_injective ?_⟩
  have entries' := (foldl_insertDist_smallest k ds' fun d hd => le50 d (perm.mem_iff.2 hd)).2
  exact entries'.trans ((smallest_perm k (perm.map _).symm).trans entries.symm)

end Sys2Proof.Machine

/-! CLS's turn in its phases IDLE to UPDATE (41_knn_update R151 to R158). -/

namespace Sys2Proof.Machine

theorem allClasses_eq_ofFn {α : Type} (a : α) : allClasses a = Vector.ofFn fun _ => a :=
  perClass_ext fun c => by simp

/-- `setAt` is the vector that has the new value at its class and the old ones elsewhere. -/
theorem eq_setAt {α : Type} {v w : PerClass α} {c : ClassIdx} {a : α} (own : getAt w c = a)
    (others : ∀ b, b ≠ c → getAt w b = getAt v b) : w = setAt v c a :=
  perClass_ext fun b => by
    rw [getAt_setAt]
    split
    · next h => rw [h, own]
    · next h => exact others b h

/-- Settles O22: IDLE's turn on an empty and on a filled `cls.in`. -/
theorem clsTakesFirstWord : Obligations.ClsTakesFirstWord := by
  unfold Obligations.ClsTakesFirstWord
  intro s g idle
  have turn : takeTurn (.unit .cls g) s = clsFirstWord s := clsTurn_of_idle g idle
  rw [turn]
  exact ⟨clsFirstWord_of_nil, fun _ _ => clsFirstWord_of_cons⟩

/-- Settles O23: HAVE_LO's turn on an empty and on a filled `cls.in`, and CHECK's three outcomes. -/
theorem clsChecksRequest : Obligations.ClsChecksRequest := by
  unfold Obligations.ClsChecksRequest
  refine ⟨fun s haveLo => ?_, fun s v g check => ?_⟩
  · have turn (g : Grain) : takeTurn (.unit .cls g) s = clsSecondWord g s := clsTurn_of_haveLo g haveLo
    refine ⟨fun g empty => ?_, fun w ws fifo => ?_⟩
    · rw [turn, clsSecondWord_of_nil g empty]
    · rw [turn, clsSecondWord_phase_of_cons fifo]
      rfl
  · have turn : takeTurn (.unit .cls g) s = .next (clsCheck v s) := by simp [takeTurn, clsTurn, check]
    rw [turn]
    refine ⟨fun hn => ?_, fun hn malformed => ?_, fun hn legal => ?_⟩
    · rw [clsCheck_of_untrained hn]
      rfl
    · rw [clsCheck_of_malformed hn malformed]
      rfl
    · rw [clsCheck_of_legal hn legal]
      rfl

/-- Settles O24: INIT's turn writes the same array for every class. -/
theorem clsInitialisesKbest : Obligations.ClsInitialisesKbest := by
  unfold Obligations.ClsInitialisesKbest
  intro s g init
  have turn : takeTurn (.unit .cls g) s = .next (clsInit s) := by simp [takeTurn, clsTurn, init]
  rw [turn, clsInit, allClasses_eq_ofFn]

theorem trainRead_of_getElem? {cfg : Cfg} {c : ClassIdx} {n : Nat} {row : List Bitmap} {x : Bitmap}
    (hrow : cfg.train[c.val]? = some row) (hx : row[n]? = some x) : trainRead cfg c n = .ok x := by
  simp [trainRead, hrow, hx]

/-- An update, its k-best arrays given class by class. -/
theorem clsUpdate_of_trainRead {s : State} {c : ClassIdx} {n : Nat} {x : Bitmap} {kb : PerClass (List Dist)}
    (rom : trainRead s.cfg c n = .ok x) (own : getAt kb c = insertDist (getAt s.cls.kbest c) (hamming s.cls.query x))
    (others : ∀ b, b ≠ c → getAt kb b = getAt s.cls.kbest b) :
    clsUpdate c n s =
      .next { s with cls := clsEnter (clsPhaseAfterUpdate s.cfg c n) { s.cls with kbest := kb } } := by
  rw [clsUpdate, rom, withRead_ok, eq_setAt own others]

/-! The phase after UPDATE(c, n) (10_state R37). -/

theorem clsPhaseAfterUpdate_of_lt {cfg : Cfg} {n : Nat} (c : ClassIdx) (h : n + 1 < cfg.trainN) :
    clsPhaseAfterUpdate cfg c n = .update c (n + 1) := if_pos h

theorem clsPhaseAfterUpdate_of_last {cfg : Cfg} {c : ClassIdx} {n : Nat} (h : n + 1 = cfg.trainN) (hc : c.val < 9) :
    clsPhaseAfterUpdate cfg c n = .update (Fin.ofNat 10 (c.val + 1)) 0 := by
  have index : Fin.ofNat 10 (c.val + 1) = ⟨c.val + 1, Nat.succ_lt_succ hc⟩ :=
    Fin.ext (Nat.mod_eq_of_lt (Nat.succ_lt_succ hc))
  rw [clsPhaseAfterUpdate, if_neg h.not_lt, dif_pos (Nat.succ_lt_succ hc), index]

theorem clsPhaseAfterUpdate_of_last_class {cfg : Cfg} {c : ClassIdx} {n : Nat} (h : n + 1 = cfg.trainN)
    (hc : c.val = 9) : clsPhaseAfterUpdate cfg c n = .vote 0 := by
  rw [clsPhaseAfterUpdate, if_neg h.not_lt, dif_neg (by omega)]

/-- Settles O28: an update inserts into its class's array and enters the next phase. -/
theorem clsUpdatesOneClass : Obligations.ClsUpdatesOneClass := by
  unfold Obligations.ClsUpdatesOneClass
  intro s g c n row x kb update hrow hx own others
  have turn : takeTurn (.unit .cls g) s = clsUpdate c n s := by simp [takeTurn, clsTurn, update]
  rw [turn, clsUpdate_of_trainRead (trainRead_of_getElem? hrow hx) own others]
  refine ⟨fun before => ?_, fun last hc => ?_, fun last hc => ?_⟩
  · rw [clsPhaseAfterUpdate_of_lt c before]
    rfl
  · rw [clsPhaseAfterUpdate_of_last last hc]
    rfl
  · rw [clsPhaseAfterUpdate_of_last_class last hc, ← allClasses_eq_ofFn]
    rfl

end Sys2Proof.Machine

/-! CLS's turn in its phases VOTE to EMIT (42_knn_vote R182 to R185). -/

namespace Sys2Proof.Machine

/-- A vote round whose entries are `head` is won by the class that `votePick` takes from them. -/
theorem clsVote_of_heads {r : Nat} {s : State} {head : ClassIdx → Dist}
    (entry : ∀ c, (getAt s.cls.kbest c)[getAt s.cls.ptr c]? = some (head c)) :
    clsVote r s =
      let b := votePick (Vector.ofFn head)
      .next { s with
        cls := { s.cls with
          ptr := setAt s.cls.ptr b (getAt s.cls.ptr b + 1)
          cnt := setAt s.cls.cnt b (getAt s.cls.cnt b + 1)
          score := setAt s.cls.score b (getAt s.cls.score b + (s.cfg.knnK - r))
          phase := clsPhaseAfterVote s.cfg r } } := by
  have heads : voteHeads s.cls = .ok (Vector.ofFn head) :=
    voteHeads_eq_ok.2 fun c => voteHead_eq_ok.2 (by rw [getAt_ofFn, entry c])
  rw [clsVote, heads, withRead_ok]

/-- Adding to the value of one class, read class by class. -/
theorem getAt_setAt_add (v : PerClass Nat) (b c : ClassIdx) (k : Nat) :
    getAt (setAt v b (getAt v b + k)) c = if c = b then getAt v c + k else getAt v c := by
  rw [getAt_setAt]
  split
  · next own => rw [own]
  · rfl

/-- Settles O29: the round's entries are the given ones, and `votePick` is the lowest class with the smallest of them. -/
theorem voteRoundPicksSmallest : Obligations.VoteRoundPicksSmallest := by
  unfold Obligations.VoteRoundPicksSmallest
  intro s g r head vote hr entry
  have turn : takeTurn (.unit .cls g) s = clsVote r s := by simp [takeTurn, clsTurn, vote]
  have best := votePick_smallest (Vector.ofFn head)
  simp only [getAt_ofFn] at best
  refine ⟨votePick (Vector.ofFn head), clsPhaseAfterVote s.cfg r, _, _, _, fun c => (best c).1, fun c => (best c).2,
    fun before => if_pos before, fun last => if_neg last.not_lt, fun c => getAt_setAt_add _ _ c 1,
    fun c => getAt_setAt_add _ _ c 1, fun c => getAt_setAt_add _ _ c (s.cfg.knnK - r), ?_⟩
  rw [turn, clsVote_of_heads entry]

/-- DECIDE's class has the best key of all classes, and a better one than every lower class (42_knn_vote R184). -/
theorem decision_first (cnt score : PerClass Nat) (c : ClassIdx) :
    tallyKey cnt score (decision cnt score) ≤ tallyKey cnt score c ∧
      (c < decision cnt score → tallyKey cnt score (decision cnt score) < tallyKey cnt score c) := by
  have strict (c b : ClassIdx) :
      tallyBeats (getAt cnt c) (getAt score c) (getAt cnt b) (getAt score b) =
        decide (tallyKey cnt score c < tallyKey cnt score b) := by
    simp [tallyBeats, tallyKey, Prod.Lex.toLex_lt_toLex, eq_comm]
  have same : decision cnt score = firstBest fun c b => decide (tallyKey cnt score c < tallyKey cnt score b) := by
    simp only [decision, strict]
  rw [same]
  exact firstBest_smallest (tallyKey cnt score) c

theorem tallyKey_le_iff {cnt score : PerClass Nat} {b c : ClassIdx} :
    tallyKey cnt score b ≤ tallyKey cnt score c ↔
      getAt cnt c < getAt cnt b ∨ (getAt cnt c = getAt cnt b ∧ getAt score c ≤ getAt score b) := by
  rw [tallyKey, tallyKey, OrderDual.toDual_le_toDual, Prod.Lex.toLex_le_toLex]

theorem tallyKey_lt_iff {cnt score : PerClass Nat} {b c : ClassIdx} :
    tallyKey cnt score b < tallyKey cnt score c ↔
      getAt cnt c < getAt cnt b ∨ (getAt cnt c = getAt cnt b ∧ getAt score c < getAt score b) := by
  rw [tallyKey, tallyKey, OrderDual.toDual_lt_toDual, Prod.Lex.toLex_lt_toLex]

/-- Settles O30: the decision is the first class with the best key. -/
theorem decisionOrder : Obligations.DecisionOrder := by
  unfold Obligations.DecisionOrder
  intro s g phase
  have best := decision_first s.cls.cnt s.cls.score
  refine ⟨decision s.cls.cnt s.cls.score, fun c => tallyKey_le_iff.1 (best c).1,
    fun c hc => tallyKey_lt_iff.1 ((best c).2 hc), ?_⟩
  simp [takeTurn, clsTurn, phase, clsDecide]

/-- Settles O31: EMIT's turn with and without room. -/
theorem clsEmitsResponse : Obligations.ClsEmitsResponse := by
  unfold Obligations.ClsEmitsResponse
  intro s g phase
  have turn : takeTurn (.unit .cls g) s = clsEmit s := by simp [takeTurn, clsTurn, phase]
  rw [turn, clsEmit_eq]
  refine ⟨fun full => by rw [if_neg full.not_gt], fun room => ?_⟩
  rw [if_pos room, clsResponse, BitVec.ofNat_toNat]

end Sys2Proof.Machine

/-! The bounds of the tallies of a classification (42_knn_vote R187). -/

namespace Sys2Proof.Machine

/-- The weights of the rounds 0 to k−1 sum to k·(k+1)/2. -/
theorem sum_weights (k : Nat) : ((List.range k).map fun j => k - j).sum = k * (k + 1) / 2 := by
  have twice : 2 * ((List.range k).map fun j => k - j).sum = k * (k + 1) := by
    induction k with
    | zero => rfl
    | succ k ih =>
      have shift : (List.range (k + 1)).map (fun j => k + 1 - j) = (k + 1) :: (List.range k).map fun j => k - j := by
        simp [List.range_succ_eq_map, Function.comp_def]
      rw [shift, List.sum_cons, Nat.mul_add, ih]
      ring
  rw [← twice, Nat.mul_div_cancel_left _ Nat.two_pos]

/-- The result of a classification is the decision over its tallies. -/
theorem classifyQuery_result {s t : State} (h : classifyQuery s = .next t) :
    t.cls.result = BitVec.ofNat 4 (decision t.cls.cnt t.cls.score).val := by
  obtain ⟨u, -, h⟩ := andThen_eq_next.1 h
  obtain ⟨w, -, h⟩ := andThen_eq_next.1 h
  cases h
  rfl

/-- A CLASSIFY that ends in EMIT is the classification of an accepted query. -/
theorem execClassify_emit {v : Word64} {s t : State} (h : execClassify v s = .next t) (emit : t.cls.phase = .emit) :
    0 < s.cfg.trainN ∧ classifyQuery (clsCheck v s) = .next t := by
  obtain faulted | ⟨hn, accepted, -⟩ := clsCheck_faulted_or_accepts v s
  · rw [execClassify_of_faulted faulted] at h
    cases h
    simp [State.faulted, emit] at faulted
  · exact ⟨hn, (execClassify_of_accepted accepted).symm.trans h⟩

/-- Where some class has a count, the decision has one (42_knn_vote R187). -/
theorem one_le_cnt_decision {cnt score : PerClass Nat} (h : 1 ≤ total cnt) : 1 ≤ getAt cnt (decision cnt score) := by
  by_contra without
  have zero : cnt = allClasses 0 := perClass_ext fun c => by
    have best := tallyKey_le_iff.1 (decision_first cnt score c).1
    rw [getAt_allClasses]
    omega
  rw [zero, total_allClasses_zero] at h
  omega

/-- Settles O37: the tallies of KNN_K rounds, and a decision over them. -/
theorem voteBounds : Obligations.VoteBounds := by
  unfold Obligations.VoteBounds
  intro s t v wf h emit
  obtain ⟨hn, query⟩ := execClassify_emit h emit
  obtain ⟨t', ht', -, -, -, ⟨-, cnt, score⟩, -⟩ := classifyQuery_completes (s := clsCheck v s) (by rwa [clsCheck_cfg])
    (by rwa [clsCheck_cfg])
  cases query.symm.trans ht'
  rw [clsCheck_cfg] at cnt score
  rw [sum_weights] at score
  obtain ⟨-, hk, -⟩ := (cfg_wf_iff s.cfg).1 wf
  exact ⟨cnt, score, fun c => ⟨cnt ▸ getAt_le_total _ c, score ▸ getAt_le_total _ c⟩, _, classifyQuery_result query,
    one_le_cnt_decision (cnt ▸ hk)⟩

end Sys2Proof.Machine

/-! One nearest neighbour (42_knn_vote R188). -/

namespace Sys2Proof.Functions

/-- The one smallest of a nonempty list is its minimum. -/
theorem smallest_one {ds : List Nat} (h : ds ≠ []) : ∃ m ∈ ds, smallest 1 ds = [m] ∧ ∀ e ∈ ds, m ≤ e := by
  have perm : (sortNat ds).Perm ds := List.perm_insertionSort _ ds
  have sorted : (sortNat ds).Pairwise fun a b => a ≤ b := List.pairwise_insertionSort _ ds
  have nonempty : sortNat ds ≠ [] := fun nil => h (by rwa [nil, List.nil_perm] at perm)
  obtain ⟨m, rest, split⟩ := List.exists_cons_of_ne_nil nonempty
  rw [split] at perm sorted
  refine ⟨m, perm.mem_iff.1 List.mem_cons_self, by simp [smallest_eq_take, split], fun e he => ?_⟩
  rcases List.mem_cons.1 (perm.mem_iff.2 he) with rfl | later
  · exact le_rfl
  · exact (List.pairwise_cons.1 sorted).1 e later

/-- Of ten arrays of one entry, the nearest neighbour is the smallest entry, the lowest class on ties. -/
theorem nearest_one {kb : ClassIdx → List Nat} {m : ClassIdx → Nat} (one : ∀ c, kb c = [m c]) :
    ∃ b : ClassIdx, nearest 1 kb = [(m b, b.val)] ∧ ∀ c, nearer (m b, b.val) (m c, c.val) := by
  have asc (c : ClassIdx) : (kb c).Pairwise (· ≤ ·) := by simp [one c]
  have entry (c : ClassIdx) : (kb c)[countOf [] c]? = some (m c) := by simp [one c]
  have len := length_le_length_ranked (asc 0)
  rw [one 0, List.length_singleton] at len
  obtain ⟨⟨d, i⟩, post, split⟩ := List.exists_cons_of_length_pos len
  obtain ⟨b, rfl⟩ := class_of_mem_ranked (split ▸ List.mem_cons_self)
  have first := getElem?_countOf_of_ranked_next (pre := []) (asc b) split
  rw [entry b, Option.some_inj] at first
  subst first
  exact ⟨b, by simp [nearest_eq_take_ranked, split], fun c => nearer_of_ranked_next (pre := []) (asc c) split (entry c)⟩

/-- A single neighbour's class wins the vote. -/
theorem winner_countOf_singleton (d : Nat) (b : ClassIdx) (score : ClassIdx → Nat) :
    winner (countOf [(d, b.val)]) score = b := by
  have count (c : ClassIdx) : countOf [(d, b.val)] c = if c = b then 1 else 0 :=
    countOf_append_singleton [] d b c
  refine winner_eq (fun c => ?_) fun c hc => ⟨b, ?_⟩
  · by_cases own : c = b
    · simp [asGood, own]
    · simp [asGood, count, own]
  · simp [asGood, count, hc.ne]

end Sys2Proof.Functions

namespace Sys2Proof.Machine

open Functions

theorem distances_ne_nil {cfg : Cfg} (wf : cfg.wf = true) (hn : cfg.trainN ≠ 0) (q : Bitmap) (c : ClassIdx) :
    distances cfg q c ≠ [] := by
  have len : (distances cfg q c).length = cfg.trainN := List.length_map (distance q) |>.trans (trainRow_length wf c)
  exact List.ne_nil_of_length_pos (len ▸ Nat.pos_of_ne_zero hn)

/-- With KNN_K = 1 the function's class owns the smallest distance, and every lower class's distances are larger. -/
theorem classOf_owns_smallest {cfg : Cfg} (wf : cfg.wf = true) (hk : cfg.knnK = 1) (hn : cfg.trainN ≠ 0) (q : Bitmap) :
    ∃ d ∈ distances cfg q (classOf cfg q), ∀ c, ∀ e ∈ distances cfg q c, d ≤ e ∧ (c < classOf cfg q → d < e) := by
  choose m own one least using fun c => smallest_one (distances_ne_nil wf hn q c)
  have arrays (c : ClassIdx) : Functions.kbest cfg q c = [m c] := by rw [Functions.kbest, hk, one c]
  obtain ⟨b, near, first⟩ := nearest_one arrays
  have ns : neighbours cfg q = [(m b, b.val)] := by rw [neighbours, hk, near]
  have cls : classOf cfg q = b := by rw [classOf, ns, winner_countOf_singleton]
  rw [cls]
  refine ⟨m b, own b, fun c e he => ?_⟩
  have le := least c e he
  rcases first c with closer | ⟨tie, lower⟩
  · exact ⟨closer.le.trans le, fun _ => closer.trans_le le⟩
  · exact ⟨tie.trans_le le, fun hc => absurd hc (not_lt.2 lower)⟩

/-- Settles O38: CLASSIFY's function for one neighbour. -/
theorem oneNearestNeighbour : Obligations.OneNearestNeighbour := by
  unfold Obligations.OneNearestNeighbour
  intro s v wf hk hn legal
  obtain ⟨d, own, smallest⟩ := classOf_owns_smallest wf hk hn (v.extractLsb' 0 49)
  exact ⟨_, _, d, classifyComputesItsFunction s v _ wf hn legal rfl, rfl, rfl, own, smallest⟩

end Sys2Proof.Machine

/-! Faults of the block: taking one, staying in FAULT, and the host beside a faulted unit (60_exceptions R202, R203, R206 to
R208). -/

namespace Sys2Proof.Machine

/-- A fault of CHECK ends CLASSIFY. -/
theorem exec_classify_of_clsCheck_fault {v : Word64} {s : State} {c : Cause} (h : clsCheck v s = raiseFault .cls c s) :
    exec (.classify v) s = .next (raiseFault .cls c s) := by
  have faulted : (clsCheck v s).faulted .cls = true := by rw [h, raiseFault_faulted]
  rw [← h]
  exact execClassify_of_faulted faulted

/-- Settles O35: CHECK takes the fault, and CLASSIFY ends there. -/
theorem classifyFaults : Obligations.ClassifyFaults := by
  unfold Obligations.ClassifyFaults
  exact fun s v => ⟨fun untrained => exec_classify_of_clsCheck_fault (clsCheck_of_untrained untrained),
    fun trained malformed => exec_classify_of_clsCheck_fault (clsCheck_of_malformed trained malformed)⟩

/-- Whether unit `u` is in FAULT, and with which cause, is the same in t as in s. -/
def FaultKept (u : UnitId) (s t : State) : Prop := t.faulted u = s.faulted u ∧ t.cause u = s.cause u

theorem FaultKept.refl (u : UnitId) (s : State) : FaultKept u s s := ⟨rfl, rfl⟩

theorem FaultKept.of_rot {s t : State} (h : t.rot = s.rot) : FaultKept .rot s t := by
  simp [FaultKept, State.faulted, State.cause, h]

theorem FaultKept.of_cls {s t : State} (h : t.cls = s.cls) : FaultKept .cls s t := by
  simp [FaultKept, State.faulted, State.cause, h]

/-- No unit's turn changes a fault: a faulted unit holds, and the other unit's turn does not write its registers. -/
theorem unitTurn_faultKept {u v : UnitId} {g : Grain} {s t : State} (faulted : s.faulted u = true)
    (h : takeTurn (.unit v g) s = .next t) : FaultKept u s t := by
  by_cases own : v = u
  · rw [own, takeTurn_of_faulted u g faulted] at h
    cases h
    exact .refl u s
  · cases u with
    | rot =>
      cases v with
      | rot => exact absurd rfl own
      | cls => exact .of_rot (by rw [clsTurn_frame h])
    | cls =>
      cases v with
      | rot => exact .of_cls (by rw [rotTurn_frame h])
      | cls => exact absurd rfl own

/-- The host's turn leaves a unit's fault as it is, unless it resets the unit. -/
theorem hostTurn_faultKept {s t : State} (u : UnitId) (h : hostTurn s = .next t) : FaultKept u s t ∨ ResetNext s u := by
  obtain ⟨rot, cls⟩ := hostTurn_regs h
  cases u with
  | rot => exact rot.imp .of_rot And.right
  | cls => exact cls.imp .of_cls And.right

/-- Settles O42: no unit's turn changes the fault, and the host's does so by a reset alone. -/
theorem faultIsStickyUntilReset : Obligations.FaultIsStickyUntilReset := by
  unfold Obligations.FaultIsStickyUntilReset
  intro s t u turn faulted
  have sticky (kept : FaultKept u s t) : t.faulted u = true ∧ t.cause u = s.cause u := ⟨kept.1.trans faulted, kept.2⟩
  refine ⟨fun g => takeTurn_of_faulted u g faulted, fun h => ?_⟩
  cases turn with
  | unit v g => exact .inl (sticky (unitTurn_faultKept faulted h))
  | host =>
    obtain kept | ⟨target, rest, todo, named⟩ := hostTurn_faultKept u h
    · exact .inl (sticky kept)
    · exact .inr ⟨target, rest, rfl, todo, named⟩

theorem statusWord_eq_ofNat (u : UnitId) (s : State) :
    statusWord u s = BitVec.ofNat 32 (causeCode (s.cause u)).toNat := by
  rw [← statusWord_toNat, BitVec.ofNat_toNat, BitVec.setWidth_eq]

/-- Settles O43: the host's push, pop and STATUS read ask nothing of the unit's phase. -/
theorem hostServesFaultedUnit : Obligations.HostServesFaultedUnit := by
  unfold Obligations.HostServesFaultedUnit
  intro s u rest _
  obtain ⟨-, -, -, -, -, -, read⟩ := statusWordShowsCause s u
  refine ⟨fun w todo room => ⟨_, (hostPushes s u w rest todo).2 room, ?_, rfl⟩,
    fun dst w ws todo fifo => ⟨_, (hostPops s u dst rest todo).2 w ws fifo, ?_, rfl⟩,
    fun dst todo => ⟨_, read dst rest todo, ?_⟩⟩
  · cases u <;> rfl
  · cases u <;> rfl
  · rw [statusWord_eq_ofNat]

end Sys2Proof.Machine

/-! Held units: a unit that holds changes nothing, and neither it nor the host it blocks ends a run (70_reset_and_hazards R241,
R247). -/

namespace Sys2Proof.Machine

theorem rotEmit_of_full {s : State} (k : Fin 4) (h : s.cfg.outDepth ≤ s.rotOut.length) : rotEmit k s = .next s := by
  rw [rotEmit_eq, if_neg h.not_gt]

theorem clsEmit_of_full {s : State} (h : s.cfg.outDepth ≤ s.clsOut.length) : clsEmit s = .next s := by
  rw [clsEmit_eq, if_neg h.not_gt]

theorem rotTurn_of_holds {s : State} (g : Grain) (h : s.holds .rot = true) : rotTurn g s = .next s := by
  cases phase : s.rot.phase <;> simp only [rotTurn, phase] <;>
    simp only [State.holds, State.phasePort, rotPhasePort, phase, List.isEmpty_iff, decide_eq_true_eq] at h
  case idle => exact rotFirstWord_of_nil h
  case haveLo => exact rotSecondWord_of_nil g h
  case emit k => exact rotEmit_of_full k h
  case iter => cases h
  case fault => cases h

theorem clsTurn_of_holds {s : State} (g : Grain) (h : s.holds .cls = true) : clsTurn g s = .next s := by
  cases phase : s.cls.phase <;> simp only [clsTurn, phase] <;>
    simp only [State.holds, State.phasePort, clsPhasePort, phase, List.isEmpty_iff, decide_eq_true_eq] at h
  case idle => exact clsFirstWord_of_nil h
  case haveLo => exact clsSecondWord_of_nil g h
  case emit => exact clsEmit_of_full h
  all_goals cases h

/-- A unit that holds on a FIFO changes nothing in its turn (20_memory R76, R77). -/
theorem takeTurn_of_holds {s : State} {u : UnitId} (g : Grain) (h : s.holds u = true) :
    takeTurn (.unit u g) s = .next s := by
  cases u with
  | rot => exact rotTurn_of_holds g h
  | cls => exact clsTurn_of_holds g h

theorem State.phasePort_of_emit {s : State} {u : UnitId} (rot : u = .rot → ∃ k : Fin 4, s.rot.phase = .emit k)
    (cls : u = .cls → s.cls.phase = .emit) : s.phasePort u = .output := by
  cases u with
  | rot =>
    obtain ⟨k, phase⟩ := rot rfl
    simp [State.phasePort, phase, rotPhasePort]
  | cls => simp [State.phasePort, cls rfl, clsPhasePort]

theorem hostTurn_of_no_action {s : State} (h : s.host.todo = []) : hostTurn s = .next s := by
  rw [hostTurn, h]
  rfl

/-- In a stuck state the host has an action left, or a unit is in a transaction. -/
theorem not_endOfRun_of_stuck {σ : Nat → State} {n : Nat} (h : Stuck (σ n)) : ¬EndOfRun σ n := by
  rintro ⟨⟨-, rot⟩, ⟨-, cls⟩, todo⟩
  obtain ⟨-, u, held⟩ | ⟨u, ⟨w, rest, push⟩, -⟩ := h
  · obtain ⟨transaction, -⟩ := (State.heldInTransaction_iff _ u).1 held
    obtain ⟨busy, running⟩ := (State.inTransaction_iff _ u).1 transaction
    cases u with
    | rot => simp [busy, running] at rot
    | cls => simp [busy, running] at cls
  · simp [push] at todo

/-- Settles O52: the host waits for room or has no action, and the unit holds. -/
theorem backPressureDeadlock : Obligations.BackPressureDeadlock := by
  unfold Obligations.BackPressureDeadlock
  refine ⟨fun s u w rest rot cls outFull inFull todo => ?_, fun s u todo held => ?_,
    fun σ n => not_endOfRun_of_stuck⟩
  · have port := State.phasePort_of_emit rot cls
    refine ⟨.inr ⟨u, ⟨w, rest, todo⟩, inFull, port, outFull⟩, ?_⟩
    rintro _ (rfl | ⟨g, rfl⟩)
    · exact (hostPushes s u w rest todo).1 inFull
    · exact takeTurn_of_holds g ((State.holds_of_output port).2 outFull)
  · refine ⟨.inl ⟨todo, u, held⟩, ?_⟩
    rintro _ (rfl | ⟨g, rfl⟩)
    · exact hostTurn_of_no_action todo
    · exact takeTurn_of_holds g ((State.heldInTransaction_iff s u).1 held).2

end Sys2Proof.Machine

/-! Reset and launch (70_reset_and_hazards R230 to R233). -/

namespace Sys2Proof.Machine

/-- Settles O49: the host's turn resets the target, and each target names its units. -/
theorem resetActsOnNamedUnits : Obligations.ResetActsOnNamedUnits := by
  unfold Obligations.ResetActsOnNamedUnits
  intro s target rest todo
  have turn : takeTurn .host s = .next (hostDone [] (resetTarget target s)) := by
    simp [takeTurn, hostTurn, todo, hostAct, hostReset]
  refine ⟨_, turn, by simp, by simp [todo], ?_⟩
  cases target with
  | all => exact ⟨fun _ => ⟨rfl, rfl, rfl, rfl⟩, fun _ => ⟨rfl, rfl, rfl, rfl⟩, nofun, nofun⟩
  | unit u =>
    cases u with
    | rot => exact ⟨fun _ => ⟨rfl, rfl, rfl, rfl⟩, nofun, nofun, fun _ => ⟨rfl, rfl, rfl⟩⟩
    | cls => exact ⟨nofun, fun _ => ⟨rfl, rfl, rfl, rfl⟩, fun _ => ⟨rfl, rfl, rfl⟩, nofun⟩

/-- Settles O50: both states have the given configuration, and registers and FIFOs as a reset leaves them. -/
theorem powerOnIsLaunchState : Obligations.PowerOnIsLaunchState := by
  unfold Obligations.PowerOnIsLaunchState
  exact fun s wf => ⟨⟨wf, ⟨rfl, rfl⟩, rfl, rfl, rfl, rfl, rfl, rfl⟩, wf, ⟨rfl, rfl⟩, rfl, rfl, rfl, rfl, rfl, rfl⟩

end Sys2Proof.Machine

/-! The phases that a transaction has left: each turn that does not hold lowers their number (10_state R33, R37). -/

namespace Sys2Proof.Machine

theorem rotPhasesLeft_eq_zero {r : RotRegs} (h : rotPhasesLeft r = 0) : r.phase = .idle ∨ r.phase = .fault := by
  cases phase : r.phase <;> simp only [rotPhasesLeft, phase] at h
  case idle => exact .inl rfl
  case fault => exact .inr rfl
  all_goals omega

theorem rotSecondWord_phasesLeft_lt {s t : State} {g : Grain} (phase : s.rot.phase = .haveLo) (word : s.rotIn ≠ [])
    (h : rotSecondWord g s = .next t) : rotPhasesLeft t.rot < rotPhasesLeft s.rot := by
  obtain ⟨w, ws, fifo⟩ := List.exists_cons_of_ne_nil word
  cases g with
  | phase =>
    rw [rotSecondWord_phase_of_cons fifo] at h
    cases h
    simp [rotPhasesLeft, phase]
  | whole =>
    rw [rotSecondWord_whole_of_cons fifo] at h
    obtain ⟨_, _, _, rfl | ⟨_, rfl⟩⟩ := execRotate_cases h <;> simp [rotPhasesLeft, phase]

theorem rotAfterIter_phasesLeft_lt {r : RotRegs} (phase : r.phase = .iter) :
    rotPhasesLeft (rotAfterIter r) < rotPhasesLeft r := by
  obtain ⟨hi, next, i⟩ | ⟨hi, next, -⟩ := rotAfterIter_cases r
  · simp only [rotPhasesLeft, phase, next, i]
    omega
  · simp [rotPhasesLeft, phase, next, hi]

theorem pseudoRotation_phasesLeft_lt {s t : State} (phase : s.rot.phase = .iter) (h : pseudoRotation s = .next t) :
    rotPhasesLeft t.rot < rotPhasesLeft s.rot := by
  obtain ⟨_, -, ⟨th, co, si, rfl⟩ | rfl⟩ := pseudoRotation_eq_next h
  · exact rotAfterIter_phasesLeft_lt (r := { s.rot with theta := th, cos := co, sin := si }) phase
  · simp only [rotPhasesLeft, phase, raiseFault_rot_rot]
    omega

theorem rotEmit_phasesLeft_lt {s t : State} {k : Fin 4} (phase : s.rot.phase = .emit k)
    (room : s.rotOut.length < s.cfg.outDepth) (h : rotEmit k s = .next t) :
    rotPhasesLeft t.rot < rotPhasesLeft s.rot := by
  rw [rotEmit_eq, if_pos room] at h
  cases h
  obtain ⟨l, next, after⟩ | ⟨last, after⟩ := rotPhaseAfterEmit_cases k <;>
    simp only [rotPhasesLeft, phase, after] <;> omega

/-- A turn of ROT in a transaction, with the word or the room it needs, leaves fewer phases. -/
theorem rotTurn_phasesLeft_lt {s t : State} {g : Grain} (busy : s.rot.phase ≠ .idle) (running : s.rot.phase ≠ .fault)
    (word : s.rot.phase = .haveLo → s.rotIn ≠ [])
    (room : (∃ k : Fin 4, s.rot.phase = .emit k) → s.rotOut.length < s.cfg.outDepth) (h : rotTurn g s = .next t) :
    rotPhasesLeft t.rot < rotPhasesLeft s.rot := by
  unfold rotTurn at h
  split at h <;> rename_i phase
  · exact absurd phase busy
  · exact rotSecondWord_phasesLeft_lt phase (word phase) h
  · exact pseudoRotation_phasesLeft_lt phase h
  · exact rotEmit_phasesLeft_lt phase (room ⟨_, phase⟩) h
  · exact absurd phase running

/-! CLS -/

theorem clsPhasesLeft_eq_zero {cfg : Cfg} {p : ClsPhase} (h : clsPhasesLeft cfg p = 0) : p = .idle ∨ p = .fault := by
  cases p
  case idle => exact .inl rfl
  case fault => exact .inr rfl
  all_goals simp [clsPhasesLeft] at h

/-- Each update leaves fewer, also the last of a class, which enters the next class or the vote (10_state R37). -/
theorem clsPhasesLeft_phaseAfterUpdate_lt {cfg : Cfg} (c : ClassIdx) {n : Nat} (hn : n < cfg.trainN) :
    clsPhasesLeft cfg (clsPhaseAfterUpdate cfg c n) < clsPhasesLeft cfg (.update c n) := by
  have hc : cfg.trainN ≤ (10 - c.val) * cfg.trainN := Nat.le_mul_of_pos_left _ (by omega)
  obtain ⟨-, next⟩ | ⟨last, d, hd, next⟩ | ⟨-, -, next⟩ := clsPhaseAfterUpdate_cases cfg c n <;>
    simp only [next, clsPhasesLeft]
  · omega
  · have classDone : (10 - c.val) * cfg.trainN = (10 - d.val) * cfg.trainN + cfg.trainN := by
      rw [← Nat.succ_mul]
      congr 1
      omega
    omega
  · omega

theorem clsPhasesLeft_phaseAfterVote_lt {cfg : Cfg} {r : Nat} (hr : r < cfg.knnK) :
    clsPhasesLeft cfg (clsPhaseAfterVote cfg r) < clsPhasesLeft cfg (.vote r) := by
  obtain ⟨-, next⟩ | ⟨-, next⟩ := clsPhaseAfterVote_cases cfg r <;> simp only [next, clsPhasesLeft] <;> omega

theorem clsSecondWord_phasesLeft_lt {s t : State} {g : Grain} (phase : s.cls.phase = .haveLo) (word : s.clsIn ≠ [])
    (h : clsSecondWord g s = .next t) :
    clsPhasesLeft s.cfg t.cls.phase < clsPhasesLeft s.cfg s.cls.phase := by
  obtain ⟨w, ws, fifo⟩ := List.exists_cons_of_ne_nil word
  cases g with
  | phase =>
    rw [clsSecondWord_phase_of_cons fifo] at h
    cases h
    simp [clsPhasesLeft, phase]
  | whole =>
    rw [clsSecondWord_whole_of_cons fifo] at h
    obtain ⟨-, ⟨next, -⟩ | ⟨next, -⟩⟩ := execClassify_frame_lo h <;> simp [clsPhasesLeft, phase, next]

theorem clsCheck_phasesLeft_lt {s : State} {v : Word64} (phase : s.cls.phase = .check v) :
    clsPhasesLeft s.cfg (clsCheck v s).cls.phase < clsPhasesLeft s.cfg s.cls.phase := by
  obtain ⟨-, check⟩ | ⟨-, -, check⟩ | ⟨-, -, check⟩ := clsCheck_cases v s <;> simp [clsPhasesLeft, phase, check]

/-- A turn of CLS in a transaction, with its counters in range and the word or the room it needs, leaves fewer phases. -/
theorem clsTurn_phasesLeft_lt {s t : State} {g : Grain} (counters : clsPhaseInv s.cfg s.cls = true)
    (busy : s.cls.phase ≠ .idle) (running : s.cls.phase ≠ .fault) (word : s.cls.phase = .haveLo → s.clsIn ≠ [])
    (room : s.cls.phase = .emit → s.clsOut.length < s.cfg.outDepth) (h : clsTurn g s = .next t) :
    clsPhasesLeft s.cfg t.cls.phase < clsPhasesLeft s.cfg s.cls.phase := by
  unfold clsTurn at h
  split at h <;> rename_i phase
  · exact absurd phase busy
  · exact clsSecondWord_phasesLeft_lt phase (word phase) h
  · cases h
    exact clsCheck_phasesLeft_lt phase
  · cases h
    simp [clsPhasesLeft, phase]
  · obtain ⟨_, -, rfl⟩ := clsUpdate_eq_next h
    rw [clsEnter_phase, phase]
    exact clsPhasesLeft_phaseAfterUpdate_lt _ ((clsPhaseInv_of_update phase).1 counters)
  · obtain ⟨_, -, rfl⟩ := clsVote_eq_next h
    rw [phase]
    exact clsPhasesLeft_phaseAfterVote_lt ((clsPhaseInv_of_vote phase).1 counters).1
  · cases h
    simp [clsPhasesLeft, phase]
  · rw [clsEmit_eq, if_pos (room phase)] at h
    cases h
    simp [clsPhasesLeft, phase]
  · exact absurd phase running

end Sys2Proof.Machine

/-! A fair run takes an unheld transaction to its end (70_reset_and_hazards R251). -/

namespace Sys2Proof.Machine

/-- How many phases unit `u` has left in its transaction, at most. -/
def State.phasesLeft (s : State) : UnitId → Nat
  | .rot => rotPhasesLeft s.rot
  | .cls => clsPhasesLeft s.cfg s.cls.phase

/-! What it means for a unit not to hold (20_memory R76, R77). -/

theorem State.inFifo_ne_nil_of_unheld {s : State} {u : UnitId} (port : s.phasePort u = .input)
    (unheld : s.holds u = false) :
    s.inFifo u ≠ [] := fun nil => by simp [(State.holds_of_input port).2 nil] at unheld

theorem State.room_of_unheld {s : State} {u : UnitId} (port : s.phasePort u = .output) (unheld : s.holds u = false) :
    (s.outFifo u).length < s.cfg.outDepth := not_le.1 fun full => by simp [(State.holds_of_output port).2 full] at unheld

/-- A turn of a unit in a transaction that does not hold leaves it fewer phases. -/
theorem unitTurn_phasesLeft_lt {s t : State} {u : UnitId} {g : Grain} (inv : Invariant s)
    (busy : s.inTransaction u = true) (unheld : s.holds u = false) (h : takeTurn (.unit u g) s = .next t) :
    t.phasesLeft u < s.phasesLeft u := by
  obtain ⟨-, -, -, -, counters, -⟩ := inv
  cases u with
  | rot =>
    simp only [State.inTransaction_iff, State.idle, State.faulted, decide_eq_false_iff_not] at busy
    obtain ⟨busy, running⟩ := busy
    exact rotTurn_phasesLeft_lt busy running
      (fun phase => State.inFifo_ne_nil_of_unheld (u := .rot) (by simp [State.phasePort, phase, rotPhasePort]) unheld)
      (fun ⟨k, phase⟩ => State.room_of_unheld (u := .rot) (by simp [State.phasePort, phase, rotPhasePort]) unheld) h
  | cls =>
    simp only [State.inTransaction_iff, State.idle, State.faulted, decide_eq_false_iff_not] at busy
    obtain ⟨busy, running⟩ := busy
    rw [State.phasesLeft, (clsTurn_frame h).cfg]
    exact clsTurn_phasesLeft_lt counters busy running
      (fun phase => State.inFifo_ne_nil_of_unheld (u := .cls) (by simp [State.phasePort, phase, clsPhasePort]) unheld)
      (fun phase => State.room_of_unheld (u := .cls) (by simp [State.phasePort, phase, clsPhasePort]) unheld) h

theorem RotFrame.phasesLeft_cls {s t : State} (h : RotFrame s t) : t.phasesLeft .cls = s.phasesLeft .cls := by
  rw [h]
  rfl

theorem ClsFrame.phasesLeft_rot {s t : State} (h : ClsFrame s t) : t.phasesLeft .rot = s.phasesLeft .rot := by
  rw [h]
  rfl

/-- The host leaves a unit's transaction as it is, or resets the unit. -/
theorem hostTurn_phasesLeft_le {s t : State} (u : UnitId) (h : hostTurn s = .next t) :
    t.phasesLeft u ≤ s.phasesLeft u := by
  obtain ⟨rot, cls⟩ := hostTurn_regs h
  cases u with
  | rot =>
    obtain same | ⟨reset, -⟩ := rot
    · simp [State.phasesLeft, same]
    · simp [State.phasesLeft, reset, RotRegs.reset, rotPhasesLeft]
  | cls =>
    obtain same | ⟨reset, -⟩ := cls
    · simp [State.phasesLeft, same, hostTurn_cfg h]
    · simp [State.phasesLeft, reset, ClsRegs.reset, clsPhasesLeft]

/-- No agent's turn leaves more phases to a unit in a transaction that does not hold. -/
theorem takeTurn_phasesLeft_le {s t : State} {u : UnitId} {turn : Turn} (inv : Invariant s)
    (busy : s.inTransaction u = true) (unheld : s.holds u = false) (h : takeTurn turn s = .next t) :
    t.phasesLeft u ≤ s.phasesLeft u := by
  cases turn with
  | host => exact hostTurn_phasesLeft_le u h
  | unit v g =>
    by_cases own : v = u
    · subst own
      exact (unitTurn_phasesLeft_lt inv busy unheld h).le
    · cases u <;> cases v
      · exact absurd rfl own
      · exact (clsTurn_frame h).phasesLeft_rot.le
      · exact (rotTurn_frame h).phasesLeft_cls.le
      · exact absurd rfl own

/-- A run from the invariant stays in it. -/
theorem IsRun.invariant {σ : Nat → State} (run : IsRun σ) (start : Invariant (σ 0)) (n : Nat) : Invariant (σ n) := by
  induction n with
  | zero => exact start
  | succ n ih => exact stepKeepsInvariant _ _ ih (run n)

/-- If the transaction never ended, its phases left would fall for ever: after the state with the fewest, fairness gives the
unit another turn. -/
theorem fair_transaction_ends {σ : Nat → State} {u : UnitId} (run : IsRun σ) (fair : WeaklyFair u σ)
    (start : Invariant (σ 0)) {n : Nat}
    (free : ∀ m, n ≤ m → (σ m).inTransaction u = true → (σ m).enabled u = true) :
    ∃ m, n ≤ m ∧ ((σ m).idle u = true ∨ (σ m).faulted u = true) := by
  by_contra never
  have busy (j : Nat) : (σ (n + j)).inTransaction u = true := by
    have unended : ¬((σ (n + j)).idle u = true ∨ (σ (n + j)).faulted u = true) := fun ended =>
      never ⟨n + j, Nat.le_add_right n j, ended⟩
    simpa [State.inTransaction_iff] using unended
  have enabled (j : Nat) : (σ (n + j)).enabled u = true := free _ (Nat.le_add_right n j) (busy j)
  have unheld (j : Nat) : (σ (n + j)).holds u = false := ((State.enabled_iff _ u).1 (enabled j)).2
  have turn (m : Nat) : takeTurn (nextTurn (σ m)) (nextTick (σ m)) = .next (σ (m + 1)) := (step_eq_next.1 (run m)).2
  have falls : Antitone fun j => (σ (n + j)).phasesLeft u := antitone_nat_of_succ_le fun j =>
    takeTurn_phasesLeft_le (s := nextTick (σ (n + j))) (run.invariant start _) (busy j) (unheld j) (turn _)
  obtain ⟨least, fewest⟩ : ∃ i, ∀ j, (σ (n + i)).phasesLeft u ≤ (σ (n + j)).phasesLeft u :=
    ⟨_, fun j => Function.argmin_le (fun j => (σ (n + j)).phasesLeft u) j⟩
  have shifted {m : Nat} (later : n + least ≤ m) : ∃ j, least ≤ j ∧ m = n + j := ⟨m - n, by omega, by omega⟩
  obtain ⟨m, later, g, own⟩ := fair (n + least) fun m later => by
    obtain ⟨j, -, rfl⟩ := shifted later
    exact enabled j
  obtain ⟨j, hj, rfl⟩ := shifted later
  have lower : (σ (n + (j + 1))).phasesLeft u < (σ (n + j)).phasesLeft u :=
    unitTurn_phasesLeft_lt (s := nextTick (σ (n + j))) (run.invariant start _) (busy j) (unheld j) (own ▸ turn _)
  exact (lower.trans_le (falls hj)).not_ge (fewest (j + 1))

/-- Settles O57: every phase of a transaction leaves fewer, so a run without an end would not be fair. -/
theorem transactionsFinish : Obligations.TransactionsFinish := by
  unfold Obligations.TransactionsFinish
  refine ⟨fun s g inv => ⟨fun busy running word room => ?_, fun busy running word room => ?_⟩,
    fun σ u run fair start n free => fair_transaction_ends run fair start free⟩
  all_goals obtain ⟨wf, -, cls⟩ := (invariant_iff s).1 inv
  · obtain ⟨t, ht⟩ := rotTurn_completes g wf
    exact ⟨t, ht, rotTurn_phasesLeft_lt busy running word room ht, rotPhasesLeft_eq_zero⟩
  · obtain ⟨t, ht⟩ := clsTurn_completes g wf cls
    obtain ⟨-, -, -, -, counters, -⟩ := cls
    exact ⟨t, ht, clsTurn_phasesLeft_lt counters busy running word room ht, clsPhasesLeft_eq_zero⟩

end Sys2Proof.Machine
